-- ==== Sys2Proof/Word.lean ====
section
/-! DEFINITION. The words of the machine: bytes and lane vectors (00_scope.md R18, R20, R22). -/

namespace Sys2Proof

/-- One byte of a buffer or of the key register (R20). -/
abbrev Byte := BitVec 8

/-- A lane vector: four lanes of `w` bits, lane 0 first (R22). -/
abbrev Lanes (w : Nat) := Vector (BitVec w) 4

end Sys2Proof
end

