-- ==== Sys2Proof/Config.lean ====
section
/-! DEFINITION. What one implementation fixes: the three variants with the sizes the document fixes (00_scope.md R9), the open
constants of the cipher (R10, R11) as ONE opaque value `Config.cfg`, and the spec's reference assignment (R13), which binds no
rule and serves the tests. -/

namespace Sys2Proof

/-- The three variants (R9). Selector 3 selects nothing: `Variant.ofSelector`. -/
inductive Variant where
  | v64_128
  | v64_256
  | v256_256
  deriving DecidableEq, Repr

/-- `VAR` to variant (R9). -/
def Variant.ofSelector (sel : BitVec 2) : Option Variant :=
  if sel = 0 then some .v64_128
  else if sel = 1 then some .v64_256
  else if sel = 2 then some .v256_256
  else none

/-- The selector that means the variant (R9). -/
def Variant.selector : Variant → BitVec 2
  | .v64_128 => 0
  | .v64_256 => 1
  | .v256_256 => 2

/-- `LB`, bytes of one lane (R9). -/
abbrev Variant.lb : Variant → Nat
  | .v64_128 => 1
  | .v64_256 => 1
  | .v256_256 => 4

/-- `KB`, bytes of the key (R9). -/
abbrev Variant.kb : Variant → Nat
  | .v64_128 => 16
  | .v64_256 => 32
  | .v256_256 => 32

/-- `LW`, bits of one lane (R9: `LB = LW/8`). -/
abbrev Variant.lw (v : Variant) : Nat := 8 * v.lb

/-- `HB`, bytes of one half (R9). -/
abbrev Variant.hb (v : Variant) : Nat := 4 * v.lb

/-- `BB`, bytes of one block (R9). -/
abbrev Variant.bb (v : Variant) : Nat := 2 * v.hb

/-- `CW`, bits of the accumulator and of the subkey as one integer (R9). -/
abbrev Variant.cw (v : Variant) : Nat := 4 * v.lw

/-- A 4 by 4 matrix of bits that is invertible over GF(2), the type R10 gives `SWITCH_M` (R11 (c), R165). -/
abbrev MixMatrix := Matrix.GeneralLinearGroup (Fin 4) (ZMod 2)

/-- The open fields (R10), each of the type and range of R10's table. A round count is held less one, so that 1..255 is
exactly its range; what R10 indexes by block width has one field per width, shared by V64_128 and V64_256. -/
structure Cfg where
  /-- `NR_STD[V64_128] - 1`. -/
  nrStdLess1_64_128 : Fin 255
  /-- `NR_STD[V64_256] - 1`. -/
  nrStdLess1_64_256 : Fin 255
  /-- `NR_STD[V256_256] - 1`. -/
  nrStdLess1_256_256 : Fin 255
  /-- `ROT_STEP[V64_128]`. -/
  rotStep_64_128 : Fin 16
  /-- `ROT_STEP[V64_256]`. -/
  rotStep_64_256 : Fin 32
  /-- `ROT_STEP[V256_256]`. -/
  rotStep_256_256 : Fin 32
  /-- `DELTA[64]`. -/
  delta64 : BitVec 32
  /-- `DELTA[256]`. -/
  delta256 : BitVec 128
  /-- `SHIFT[64]`, the amount of lane `j`. -/
  shift64 : Fin 4 → Fin 8
  /-- `SHIFT[256]`, the amount of lane `j`. -/
  shift256 : Fin 4 → Fin 32
  /-- `SWITCH_M[64]`. -/
  switchM64 : MixMatrix
  /-- `SWITCH_M[256]`. -/
  switchM256 : MixMatrix
  /-- `SWITCH_C[64]`. -/
  switchC64 : Lanes 8
  /-- `SWITCH_C[256]`. -/
  switchC256 : Lanes 32
  /-- `NIB_LSB_LANE0`. -/
  nibLsbLane0 : Bool
  deriving Inhabited

/-- `NR_STD[v]` (R10: 1..255). -/
def Cfg.nrStd (c : Cfg) : Variant → BitVec 8
  | .v64_128 => BitVec.ofNat 8 (c.nrStdLess1_64_128.val + 1)
  | .v64_256 => BitVec.ofNat 8 (c.nrStdLess1_64_256.val + 1)
  | .v256_256 => BitVec.ofNat 8 (c.nrStdLess1_256_256.val + 1)

/-- `ROT_STEP[v]` (R10: 0..KB-1). -/
def Cfg.rotStep (c : Cfg) : (v : Variant) → Fin v.kb
  | .v64_128 => c.rotStep_64_128
  | .v64_256 => c.rotStep_64_256
  | .v256_256 => c.rotStep_256_256

/-- `DELTA[bw]` at the accumulator's width (R10, R101). -/
def Cfg.delta (c : Cfg) : (v : Variant) → BitVec v.cw
  | .v64_128 => c.delta64
  | .v64_256 => c.delta64
  | .v256_256 => c.delta256

/-- `SHIFT[bw]` (R10: each amount 0..LW-1). -/
def Cfg.shift (c : Cfg) : (v : Variant) → Fin 4 → Fin v.lw
  | .v64_128 => c.shift64
  | .v64_256 => c.shift64
  | .v256_256 => c.shift256

/-- `SWITCH_M[bw]` (R10), row `j` for output lane `j`. -/
def Cfg.switchM (c : Cfg) : Variant → MixMatrix
  | .v64_128 => c.switchM64
  | .v64_256 => c.switchM64
  | .v256_256 => c.switchM256

/-- `SWITCH_C[bw]` (R10). -/
def Cfg.switchC (c : Cfg) : (v : Variant) → Lanes v.lw
  | .v64_128 => c.switchC64
  | .v64_256 => c.switchC64
  | .v256_256 => c.switchC256

/-- The lane rotation `out[j] = in[(j+1) mod 4]` as a matrix (R13, R164 (a)). -/
def MixMatrix.laneRotation : MixMatrix where
  val := fun j i => if i = j + 1 then 1 else 0
  inv := fun j i => if j = i + 1 then 1 else 0
  val_inv := by decide
  inv_val := by decide

/-- Each output lane the xor of the three other input lanes; its own inverse (R13, R164 (b)). -/
def MixMatrix.xorOfOthers : MixMatrix where
  val := fun j i => if i = j then 0 else 1
  inv := fun j i => if i = j then 0 else 1
  val_inv := by decide
  inv_val := by decide

/-- `CFG_REF` (R13): the spec's reference assignment. No definition of the machine uses it. -/
def Cfg.ref : Cfg where
  nrStdLess1_64_128 := 31
  nrStdLess1_64_256 := 63
  nrStdLess1_256_256 := 63
  rotStep_64_128 := 7
  rotStep_64_256 := 11
  rotStep_256_256 := 13
  delta64 := 0x9E3779B9
  delta256 := 0x9E3779B97F4A7C15F39CC0605CEDC834
  shift64 := ![0, 1, 3, 5]
  shift256 := ![0, 3, 11, 19]
  switchM64 := MixMatrix.laneRotation
  switchM256 := MixMatrix.xorOfOthers
  switchC64 := Vector.replicate 4 0
  switchC256 := Vector.replicate 4 0
  nibLsbLane0 := true

/-- The machine's own configuration: some value of R10's types, and nothing in Lean can say which (log 1). -/
opaque Config.cfg : Cfg

end Sys2Proof
end

