-- ==== Sys2Proof/Syntax.lean ====
section
/-! DEFINITION. The instructions: one constructor per row of spec/opcode_table.json (30_encoding.md R81, R83). -/

namespace Sys2Proof

/-- The four host commands (format H, R80) and the twenty-six micro-operations (format U, R82). Operands are the fields the
encoding gives them; no micro-operation names a register (R90). -/
inductive Instr where
  /-- ENC, encrypt with `rounds` rounds (R230). -/
  | enc (var : BitVec 2) (rounds dlen klen : BitVec 8)
  /-- DEC, decrypt with `rounds` rounds (R231). -/
  | dec (var : BitVec 2) (rounds dlen klen : BitVec 8)
  /-- ENCS, encrypt with the standard round count; `rounds` is stored in `CMD` and otherwise ignored (R232). -/
  | encs (var : BitVec 2) (rounds dlen klen : BitVec 8)
  /-- DECS, decrypt with the standard round count; `rounds` as in ENCS (R233). -/
  | decs (var : BitVec 2) (rounds dlen klen : BitVec 8)
  /-- CHK (R214). -/
  | chk
  /-- LDKEY (R190). -/
  | ldkey
  /-- LDBLK (R191). -/
  | ldblk
  /-- STBLK (R192). -/
  | stblk
  /-- CLR (R193). -/
  | clr
  /-- DONE (R219). -/
  | done
  /-- SETC (R215). -/
  | setc
  /-- SETC2 (R216). -/
  | setc2
  /-- BRZ with its `ARG`, the target (R217). -/
  | brz (target : BitVec 8)
  /-- DECJ with its `ARG`, the target (R218). -/
  | decj (target : BitVec 8)
  /-- ROTF (R122). -/
  | rotf
  /-- ROTB (R123). -/
  | rotb
  /-- RCADV (R104). -/
  | rcadv
  /-- RCRET (R105). -/
  | rcret
  /-- SKTAKE (R182). -/
  | sktake
  /-- SKADD (R106). -/
  | skadd
  /-- SKSUB (R107). -/
  | sksub
  /-- SKFOLD (R183). -/
  | skfold
  /-- WLDL (R184). -/
  | wldl
  /-- WLDR (R185). -/
  | wldr
  /-- SHIFT (R162). -/
  | shift
  /-- XORSK (R186). -/
  | xorsk
  /-- BETA (R145). -/
  | beta
  /-- SWITCH (R166). -/
  | switch
  /-- XFR (R187). -/
  | xfr
  /-- XFL (R188). -/
  | xfl
  deriving DecidableEq, Repr

end Sys2Proof
end

