-- ==== Sys2Proof/WellFormed.lean ====
section
/-! DEFINITION. Which instructions the encoding admits (30_encoding.md R88). -/

namespace Sys2Proof

/-- A branch target is at most 0x7F (R88). -/
def targetInRange (target : BitVec 8) : Bool := decide (target ≤ 0x7F#8)

/-- The one condition of the encoding on operands: R88 bounds the target of BRZ and DECJ. Every value of the fields of format H
is admitted, `VAR = 3` too, which CHK refuses later (R86). -/
def Instr.wellFormed : Instr → Bool
  | .enc _ _ _ _ => true
  | .dec _ _ _ _ => true
  | .encs _ _ _ _ => true
  | .decs _ _ _ _ => true
  | .chk => true
  | .ldkey => true
  | .ldblk => true
  | .stblk => true
  | .clr => true
  | .done => true
  | .setc => true
  | .setc2 => true
  | .brz target => targetInRange target
  | .decj target => targetInRange target
  | .rotf => true
  | .rotb => true
  | .rcadv => true
  | .rcret => true
  | .sktake => true
  | .skadd => true
  | .sksub => true
  | .skfold => true
  | .wldl => true
  | .wldr => true
  | .shift => true
  | .xorsk => true
  | .beta => true
  | .switch => true
  | .xfr => true
  | .xfl => true

end Sys2Proof
end

