-- ==== Sys2Proof/Decode.lean ====
section
/-! DEFINITION. The decoder, total on any word and on any bytes, rejecting by name, and after it the encoder
(30_encoding.md R80 to R94). -/

namespace Sys2Proof

/-- Why a word is no instruction. Raised by the decoder only; the machine turns it into R85's error (format H) or into a
refusal (format U, R87), so a rejection is safe. -/
inductive DecodeError where
  /-- Format H: `OP` in 0x04..0x1F (R81, R85). -/
  | reservedOperation
  /-- Format H: bit 7 is 1 (R80, R85). -/
  | reservedBit
  /-- Format U: `UOP` is not in R83 (R87). -/
  | undefinedMicroOperation
  /-- Format U: `ARG` is not 0 where R88 wants 0. -/
  | nonzeroArgument
  /-- Format U: the target of BRZ or DECJ is above 0x7F (R88). -/
  | targetOutOfRange
  /-- Bytes that are neither two nor four: no format has that length (R91). -/
  | noSuchLength
  deriving DecidableEq, Repr

/-- A word of one of the two formats (R80, R82). -/
inductive Code where
  /-- A host command, 32 bits (R80). -/
  | command (word : BitVec 32)
  /-- A micro-instruction, 16 bits (R82). -/
  | micro (word : BitVec 16)
  deriving DecidableEq, Repr

/-- `OP`, bits 4..0 (R80). -/
def fieldOp (word : BitVec 32) : BitVec 5 := word.extractLsb' 0 5
/-- `VAR`, bits 6..5 (R80). -/
def fieldVar (word : BitVec 32) : BitVec 2 := word.extractLsb' 5 2
/-- The reserved bit 7 (R80). -/
def fieldReserved (word : BitVec 32) : BitVec 1 := word.extractLsb' 7 1
/-- `ROUNDS`, bits 15..8 (R80). -/
def fieldRounds (word : BitVec 32) : BitVec 8 := word.extractLsb' 8 8
/-- `DLEN`, bits 23..16 (R80). -/
def fieldDlen (word : BitVec 32) : BitVec 8 := word.extractLsb' 16 8
/-- `KLEN`, bits 31..24 (R80). -/
def fieldKlen (word : BitVec 32) : BitVec 8 := word.extractLsb' 24 8
/-- `UOP`, bits 15..8 (R82). -/
def fieldUop (word : BitVec 16) : BitVec 8 := word.extractLsb' 8 8
/-- `ARG`, bits 7..0 (R82). -/
def fieldArg (word : BitVec 16) : BitVec 8 := word.extractLsb' 0 8

/-- Decode a host command (R80, R81); every other word is reserved (R85, R89). -/
def decodeCommand (word : BitVec 32) : Except DecodeError Instr :=
  if fieldReserved word ≠ 0 then .error .reservedBit
  else
    let var := fieldVar word
    let rounds := fieldRounds word
    let dlen := fieldDlen word
    let klen := fieldKlen word
    match (fieldOp word).toNat with
    | 0x00 => .ok (.enc var rounds dlen klen)
    | 0x01 => .ok (.dec var rounds dlen klen)
    | 0x02 => .ok (.encs var rounds dlen klen)
    | 0x03 => .ok (.decs var rounds dlen klen)
    | _ => .error .reservedOperation

/-- A micro-operation without operand: `ARG` must be 0 (R88). -/
def decodePlain (arg : BitVec 8) (i : Instr) : Except DecodeError Instr :=
  if arg = 0 then .ok i else .error .nonzeroArgument

/-- A micro-operation with a target: `ARG` is at most 0x7F (R88). -/
def decodeTarget (arg : BitVec 8) (i : BitVec 8 → Instr) : Except DecodeError Instr :=
  if arg ≤ 0x7F#8 then .ok (i arg) else .error .targetOutOfRange

/-- Decode a micro-instruction (R82, R83); every other code is illegal (R87). -/
def decodeMicro (word : BitVec 16) : Except DecodeError Instr :=
  let arg := fieldArg word
  match (fieldUop word).toNat with
  | 0x01 => decodePlain arg .chk
  | 0x02 => decodePlain arg .ldkey
  | 0x03 => decodePlain arg .ldblk
  | 0x04 => decodePlain arg .stblk
  | 0x05 => decodePlain arg .clr
  | 0x06 => decodePlain arg .done
  | 0x08 => decodePlain arg .setc
  | 0x09 => decodePlain arg .setc2
  | 0x0A => decodeTarget arg .brz
  | 0x0B => decodeTarget arg .decj
  | 0x10 => decodePlain arg .rotf
  | 0x11 => decodePlain arg .rotb
  | 0x12 => decodePlain arg .rcadv
  | 0x13 => decodePlain arg .rcret
  | 0x14 => decodePlain arg .sktake
  | 0x15 => decodePlain arg .skadd
  | 0x16 => decodePlain arg .sksub
  | 0x17 => decodePlain arg .skfold
  | 0x18 => decodePlain arg .wldl
  | 0x19 => decodePlain arg .wldr
  | 0x1A => decodePlain arg .shift
  | 0x1B => decodePlain arg .xorsk
  | 0x1C => decodePlain arg .beta
  | 0x1D => decodePlain arg .switch
  | 0x1E => decodePlain arg .xfr
  | 0x1F => decodePlain arg .xfl
  | _ => .error .undefinedMicroOperation

/-- Decode a word of either format. -/
def decode : Code → Except DecodeError Instr
  | .command word => decodeCommand word
  | .micro word => decodeMicro word

/-- Decode bytes, the first byte the least significant (R80 for format H, which is stored little-endian). The two formats have
different lengths and nothing else has an instruction's length (R91; log 21). -/
def decodeBytes : List Byte → Except DecodeError Instr
  | [b0, b1] => decodeMicro (b1 ++ b0)
  | [b0, b1, b2, b3] => decodeCommand (b3 ++ b2 ++ b1 ++ b0)
  | _ => .error .noSuchLength

/-- The first `n` bytes of `w`, least significant first. -/
def bytesOfNat : (n w : Nat) → List Byte
  | 0, _ => []
  | n + 1, w => BitVec.ofNat 8 w :: bytesOfNat n (w / 256)

/-- What the decoder reads from a word of the opcode table: its bytes laid out, given to `decodeBytes`. -/
def decodeTableWord (nbits w : Nat) : Option Instr :=
  match decodeBytes (bytesOfNat (nbits / 8) w) with
  | .ok i => some i
  | .error _ => none

/-- The word of a host command, field by field (R80, R93). -/
def commandWord (op : BitVec 5) (var : BitVec 2) (rounds dlen klen : BitVec 8) : BitVec 32 :=
  klen ++ dlen ++ rounds ++ 0#1 ++ var ++ op

/-- The word of a micro-instruction (R82, R94). -/
def microWord (uop arg : BitVec 8) : BitVec 16 := uop ++ arg

/-- The encoder: the word of an instruction (R81, R83). -/
def encode : Instr → Code
  | .enc var rounds dlen klen => .command (commandWord 0x00 var rounds dlen klen)
  | .dec var rounds dlen klen => .command (commandWord 0x01 var rounds dlen klen)
  | .encs var rounds dlen klen => .command (commandWord 0x02 var rounds dlen klen)
  | .decs var rounds dlen klen => .command (commandWord 0x03 var rounds dlen klen)
  | .chk => .micro (microWord 0x01 0)
  | .ldkey => .micro (microWord 0x02 0)
  | .ldblk => .micro (microWord 0x03 0)
  | .stblk => .micro (microWord 0x04 0)
  | .clr => .micro (microWord 0x05 0)
  | .done => .micro (microWord 0x06 0)
  | .setc => .micro (microWord 0x08 0)
  | .setc2 => .micro (microWord 0x09 0)
  | .brz target => .micro (microWord 0x0A target)
  | .decj target => .micro (microWord 0x0B target)
  | .rotf => .micro (microWord 0x10 0)
  | .rotb => .micro (microWord 0x11 0)
  | .rcadv => .micro (microWord 0x12 0)
  | .rcret => .micro (microWord 0x13 0)
  | .sktake => .micro (microWord 0x14 0)
  | .skadd => .micro (microWord 0x15 0)
  | .sksub => .micro (microWord 0x16 0)
  | .skfold => .micro (microWord 0x17 0)
  | .wldl => .micro (microWord 0x18 0)
  | .wldr => .micro (microWord 0x19 0)
  | .shift => .micro (microWord 0x1A 0)
  | .xorsk => .micro (microWord 0x1B 0)
  | .beta => .micro (microWord 0x1C 0)
  | .switch => .micro (microWord 0x1D 0)
  | .xfr => .micro (microWord 0x1E 0)
  | .xfl => .micro (microWord 0x1F 0)

/-- The bytes of a word as the hardware lays it out, least significant first (R80; log 21 for format U). -/
def codeBytes : Code → List Byte
  | .command word => bytesOfNat 4 word.toNat
  | .micro word => bytesOfNat 2 word.toNat

/-- The match value of an instruction's row of the opcode table (R92). -/
def rowMatch : Instr → Nat
  | .enc _ _ _ _ => 0x00000000
  | .dec _ _ _ _ => 0x00000001
  | .encs _ _ _ _ => 0x00000002
  | .decs _ _ _ _ => 0x00000003
  | .chk => 0x0100
  | .ldkey => 0x0200
  | .ldblk => 0x0300
  | .stblk => 0x0400
  | .clr => 0x0500
  | .done => 0x0600
  | .setc => 0x0800
  | .setc2 => 0x0900
  | .brz _ => 0x0A00
  | .decj _ => 0x0B00
  | .rotf => 0x1000
  | .rotb => 0x1100
  | .rcadv => 0x1200
  | .rcret => 0x1300
  | .sktake => 0x1400
  | .skadd => 0x1500
  | .sksub => 0x1600
  | .skfold => 0x1700
  | .wldl => 0x1800
  | .wldr => 0x1900
  | .shift => 0x1A00
  | .xorsk => 0x1B00
  | .beta => 0x1C00
  | .switch => 0x1D00
  | .xfr => 0x1E00
  | .xfl => 0x1F00

/-- The mask of an instruction's row of the opcode table (R92): format H 0x0000009F; BRZ and DECJ 0xFF80; all others 0xFFFF. -/
def rowMask : Instr → Nat
  | .enc _ _ _ _ | .dec _ _ _ _ | .encs _ _ _ _ | .decs _ _ _ _ => 0x0000009F
  | .brz _ | .decj _ => 0xFF80
  | .chk | .ldkey | .ldblk | .stblk | .clr | .done | .setc | .setc2 => 0xFFFF
  | .rotf | .rotb | .rcadv | .rcret | .sktake | .skadd | .sksub | .skfold => 0xFFFF
  | .wldl | .wldr | .shift | .xorsk | .beta | .switch | .xfr | .xfl => 0xFFFF

/-- The word fits the row of `i` (R92): same format, and `word and mask = match`. -/
def Code.fitsRow : Code → Instr → Bool
  | .command word, i =>
    match encode i with
    | .command _ => word &&& BitVec.ofNat 32 (rowMask i) == BitVec.ofNat 32 (rowMatch i)
    | .micro _ => false
  | .micro word, i =>
    match encode i with
    | .command _ => false
    | .micro _ => word &&& BitVec.ofNat 16 (rowMask i) == BitVec.ofNat 16 (rowMatch i)

end Sys2Proof
end

