-- ==== Sys2Proof/Machine/State.lean ====
section
/-! DEFINITION. The state of the block (10_state.md R30 to R52), the host's coming actions, the reasons a step can stop, and the
state after reset (R52). -/

namespace Sys2Proof.Machine

/-- Why the machine stops with a fault. The two errors of the hardware (60_exceptions.md R260) are NOT here: taking one is a
next state (R264). -/
inductive Fault where
  /-- A micro-operation whose rule computes at a variant's width, run while `VARr = 3`, which selects no variant (00_scope.md
  R9). Raised by those micro-operations. No run reaches it: CHK refuses the command first (45_engine.md R214). Safe: the model
  stops where the spec gives no width. Log 9. -/
  | noVariantSelected
  deriving DecidableEq, Repr

/-- Why the model has no such step. -/
inductive Refusal where
  /-- An instruction that has no meaning in the model. Raised by no arm of `exec`. Safe. -/
  | notModelled (mnemonic : String)
  /-- A fetched word that decodes as illegal, or a BRZ or DECJ whose target breaks R88 (30_encoding.md R87, R88). Raised by the
  engine's fetch and by BRZ and DECJ. Safe: the spec gives it no effect and says to refuse it. Log 11. -/
  | illegalMicroOperation
  /-- A host access of a width or at an offset that no rule covers (20_memory.md R66), but for a write in the window while BUSY,
  which is ignored (R71). Raised by the host's accesses. Safe: the spec gives it no meaning and says to refuse it. Log 10. -/
  | unsupportedHostAccess
  deriving DecidableEq, Repr

/-- `STATUS` (R43). -/
inductive Status where
  /-- 0: no command since reset. -/
  | idle
  /-- 1: a command is running; the engine has a step. -/
  | busy
  /-- 2: the last command ended with success. -/
  | done
  /-- 3: the last command was refused. -/
  | error
  deriving DecidableEq, Repr

/-- `ERR` (R44). Code 3 is never written and has no constructor (log 12). -/
inductive ErrorCode where
  /-- 0: no error. -/
  | none
  /-- 1: INVALID_LENGTH. -/
  | invalidLength
  /-- 2: UNSUPPORTED_VARIANT. -/
  | unsupportedVariant
  deriving DecidableEq, Repr

/-- One coming action of the host side (00_scope.md R17, 20_memory.md R65; log 5). Offsets are relative to `WINDOW_BASE` (R61). -/
inductive HostAction where
  /-- The host makes no access in this step: the engine has it. -/
  | engineTurn
  /-- A byte read. -/
  | readByte (offset : Nat)
  /-- A half-word read (no rule covers it, R66). -/
  | readHalf (offset : Nat)
  /-- A 32-bit read. -/
  | readWord (offset : Nat)
  /-- A byte write. -/
  | writeByte (offset : Nat) (value : BitVec 8)
  /-- A half-word write (no rule of R65 covers it, R66; ignored while BUSY, R71). -/
  | writeHalf (offset : Nat) (value : BitVec 16)
  /-- A 32-bit write. -/
  | writeWord (offset : Nat) (value : BitVec 32)
  /-- Reset, from outside the block (70_reset_and_hazards.md R290). -/
  | reset
  deriving DecidableEq, Repr

/-- Everything the spec gives the block, and the model's own two fields of the host side. -/
structure State where
  /-- `L[0..3]`, the left half (R30), at its physical width (R35). -/
  l : Lanes 32
  /-- `R[0..3]`, the right half (R30). -/
  r : Lanes 32
  /-- `W[0..3]`, the work buffer (R31). -/
  w : Lanes 32
  /-- `SK[0..3]`, the subkey (R32). -/
  sk : Lanes 32
  /-- `KEY[0..31]`, the key register (R33). -/
  key : Vector Byte 32
  /-- `RC`, the round-constant accumulator (R34). -/
  rc : BitVec 128
  /-- `C`, the loop counter (R39). -/
  c : BitVec 9
  /-- `UPC`, the micro-program counter (R38). -/
  upc : BitVec 7
  /-- `OPr`, the latched operation (R40). -/
  opr : BitVec 5
  /-- `VARr`, the latched variant selector (R40). -/
  varr : BitVec 2
  /-- `NRr`, the latched round count (R40). -/
  nrr : BitVec 8
  /-- `DLENr`, the latched data length (R40). -/
  dlenr : BitVec 8
  /-- `KLENr`, the latched key length (R40). -/
  klenr : BitVec 8
  /-- `CMD` (R42). -/
  cmd : BitVec 32
  /-- `STATUS` (R43). -/
  status : Status
  /-- `ERR` (R44). -/
  err : ErrorCode
  /-- The buffers `DIN`, `KIN`, `DOUT` (R48) at their window offsets 0x20..0x7F (20_memory.md R60), in canonical form. -/
  buf : List Host.Cell
  /-- The ROM (R49, 45_engine.md R212): the words that differ from the listing of R212, in canonical form. No step writes it. Log 3. -/
  rom : List (Nat × BitVec 16)
  /-- The model's own: the host's coming actions, one per step. Log 5. -/
  pending : List HostAction
  /-- The model's own: the value the last host read returned. Log 7. -/
  answer : BitVec 32
  deriving DecidableEq, Repr

/-- The state after reset (R52): every piece of the block zero, `STATUS` IDLE, `ERR` NONE, the ROM holding its listing; nothing
pending on the host side. -/
def State.reset : State where
  l := Vector.replicate 4 0
  r := Vector.replicate 4 0
  w := Vector.replicate 4 0
  sk := Vector.replicate 4 0
  key := Vector.replicate 32 0
  rc := 0
  c := 0
  upc := 0
  opr := 0
  varr := 0
  nrr := 0
  dlenr := 0
  klenr := 0
  cmd := 0
  status := .idle
  err := .none
  buf := []
  rom := []
  pending := []
  answer := 0

end Sys2Proof.Machine
end

