-- ==== Sys2Proof/Machine/Operands.lean ====
section
/-! DEFINITION. How registers and bytes are read as operands: little-endian integers (00_scope.md R20, 20_memory.md R62), lane
vectors from bytes and back (R63, R64), a lane vector as one integer (R22), and the physical registers at a variant's width
(10_state.md R33, R35). -/

namespace Sys2Proof.Machine

/-- `LE_n(f 0, …, f (n-1))` as a number: the sum of `f k * 2^(8k)` (R20). -/
def leNat (f : Nat → Byte) : Nat → Nat
  | 0 => 0
  | n + 1 => leNat f n + (f n).toNat * 2 ^ (8 * n)

/-- `LE_n` as a word of `8n` bits (R20). -/
def leWord (n : Nat) (f : Nat → Byte) : BitVec (8 * n) := BitVec.ofNat (8 * n) (leNat f n)

/-- Byte `k` of `BYTES_n(x)`: bits `8k+7..8k` (R20). -/
def byteOf {w : Nat} (x : BitVec w) (k : Nat) : Byte := x.extractLsb' (8 * k) 8

/-- Byte `i` of an array of bytes; every use has `i` in range. -/
def byteAt {n : Nat} (bytes : Vector Byte n) (i : Nat) : Byte := bytes[i]?.getD 0

/-- Four lanes of `lb` bytes each from consecutive bytes: lane `j` is `LE_lb(f (j*lb), …, f (j*lb+lb-1))` (R63, R64). -/
def lanesFrom (lb : Nat) (f : Nat → Byte) : Lanes (8 * lb) :=
  Vector.ofFn fun j => leWord lb fun k => f (j.val * lb + k)

/-- The byte at index `i` of the bytes of a lane vector, the inverse map of `lanesFrom` (R63). -/
def laneByte (lb : Nat) (x : Lanes (8 * lb)) (i : Nat) : Byte := byteOf (x[i / lb]?.getD 0) (i % lb)

/-- `INT(X)`, the sum of `X[j] * 2^(w*j)`: lane 0 is the least significant (R22). -/
def intOf {w : Nat} (x : Lanes w) : BitVec (4 * w) :=
  BitVec.ofNat (4 * w)
    (x[0].toNat + x[1].toNat * 2 ^ w + x[2].toNat * 2 ^ (2 * w) + x[3].toNat * 2 ^ (3 * w))

/-- `LANES(x)`: lane `j` is bits `w*j+w-1 .. w*j` (R22). -/
def lanesOf {w : Nat} (x : BitVec (4 * w)) : Lanes w := Vector.ofFn fun j => x.extractLsb' (w * j.val) w

/-- `X xor Y`, lane by lane (R22). -/
def xorLanes {w : Nat} (x y : Lanes w) : Lanes w := Vector.ofFn fun j => x[j] ^^^ y[j]

/-- The low `w` bits of a physical register (R35). -/
def low {N : Nat} (w : Nat) (old : BitVec N) : BitVec w := old.setWidth w

/-- A physical register after a write at width `w`: the bits from `w` up are not written (R35; 93_implementation_defined.md U15;
log 8). -/
def putLow {N w : Nat} (old : BitVec N) (x : BitVec w) : BitVec N := ((old >>> w) <<< w) ||| x.setWidth N

/-- Four physical lanes read at the variant's lane width (R30 to R32, R35). -/
def lanesAt (v : Variant) (reg : Lanes 32) : Lanes v.lw := Vector.ofFn fun j => low v.lw reg[j]

/-- Four physical lanes after a write at the variant's lane width. -/
def putLanes (v : Variant) (reg : Lanes 32) (x : Lanes v.lw) : Lanes 32 := Vector.ofFn fun j => putLow reg[j] x[j]

/-- `KEY[0..KB-1]` (R33). -/
def keyAt (v : Variant) (reg : Vector Byte 32) : Vector Byte v.kb := Vector.ofFn fun i => byteAt reg i.val

/-- The key register after a write of `KEY[0..KB-1]`: bytes from `KB` up are not written (R33). -/
def putKey (v : Variant) (reg : Vector Byte 32) (k : Vector Byte v.kb) : Vector Byte 32 :=
  Vector.ofFn fun i => if i.val < v.kb then byteAt k i.val else reg[i]

/-- `RC` at the variant's width (R34, R35). -/
def rcAt (v : Variant) (reg : BitVec 128) : BitVec v.cw := low v.cw reg

/-- The accumulator register after a write at the variant's width. -/
def putRc (v : Variant) (reg : BitVec 128) (x : BitVec v.cw) : BitVec 128 := putLow reg x

/-- The left half of a block whose bytes are `f 0, f 1, …` (R63). -/
def leftHalf (v : Variant) (f : Nat → Byte) : Lanes v.lw := lanesFrom v.lb f

/-- The right half: the bytes from `HB` up (R63). -/
def rightHalf (v : Variant) (f : Nat → Byte) : Lanes v.lw := lanesFrom v.lb fun i => f (v.hb + i)

/-- Byte `i` of the block with the halves `l` and `r`: the first `HB` bytes from `l`, the next from `r` (R63). -/
def blockByte (v : Variant) (l r : Lanes v.lw) (i : Nat) : Byte :=
  if i < v.hb then laneByte v.lb l i else laneByte v.lb r (i - v.hb)

end Sys2Proof.Machine
end

