-- ==== Sys2Proof/Machine/Flags.lean ====
section
/-! DEFINITION. Carry and borrow. The hardware has no flags (10_state.md R41): the only carry and borrow are those between the two
64-bit limbs of the 128-bit adder, inside one micro-operation (40_round_constant.md R103). The micro-operations add at the full
width; `add128` and `sub128` are R103's way of building that adder. -/

namespace Sys2Proof.Machine

/-- The low limb, bits 63..0 (R34, R103). -/
def limbLo (x : BitVec 128) : BitVec 64 := x.extractLsb' 0 64

/-- The high limb, bits 127..64. -/
def limbHi (x : BitVec 128) : BitVec 64 := x.extractLsb' 64 64

/-- The carry out of the low limbs: 1 if their sum is at least 2^64 (R103). -/
def carryOut (x y : BitVec 64) : BitVec 64 := if 2 ^ 64 ≤ x.toNat + y.toNat then 1 else 0

/-- The borrow out of the low limbs: 1 if the first is below the second (R103). -/
def borrowOut (x y : BitVec 64) : BitVec 64 := if x.toNat < y.toNat then 1 else 0

/-- R103, `add128`: limb by limb with the carry; the carry out of the high limb is dropped. -/
def add128 (x y : BitVec 128) : BitVec 128 :=
  (limbHi x + limbHi y + carryOut (limbLo x) (limbLo y)) ++ (limbLo x + limbLo y)

/-- R103, `sub128`: limb by limb with the borrow; the borrow out of the high limb is dropped. -/
def sub128 (x y : BitVec 128) : BitVec 128 :=
  (limbHi x - limbHi y - borrowOut (limbLo x) (limbLo y)) ++ (limbLo x - limbLo y)

end Sys2Proof.Machine
end

