-- ==== Sys2Proof/Machine/Cipher.lean ====
section
/-! DEFINITION. The cipher as pure functions over a configuration and a variant: the components (40_round_constant.md to
44_datapath.md) and their composition (45_engine.md R220 to R229). The micro-operations apply the components to the registers. -/

namespace Sys2Proof.Machine

/-! ### Round-constant generator -/

/-- `Adv(x) = (x + DELTA) mod 2^CW` (R101). -/
def adv (c : Cfg) (v : Variant) (x : BitVec v.cw) : BitVec v.cw := x + c.delta v

/-- `Ret(x) = (x - DELTA) mod 2^CW` (R102). -/
def ret (c : Cfg) (v : Variant) (x : BitVec v.cw) : BitVec v.cw := x - c.delta v

/-- The accumulator added into the subkey: one addition across the four lanes (R106). -/
def addConstant {w : Nat} (s : Lanes w) (rc : BitVec (4 * w)) : Lanes w := lanesOf (intOf s + rc)

/-- The accumulator subtracted from the subkey: one subtraction across the four lanes (R107). -/
def subConstant {w : Nat} (s : Lanes w) (rc : BitVec (4 * w)) : Lanes w := lanesOf (intOf s - rc)

/-! ### Key-rotation register -/

/-- The byte array whose byte `i` is byte `(i + step) mod n` of the given one. -/
def rotateBytes {n : Nat} (step : Nat) (k : Vector Byte n) : Vector Byte n :=
  Vector.ofFn fun i => byteAt k ((i.val + step) % n)

/-- `RotF(K)`: `K'[i] = K[(i + s) mod KB]` (R120). -/
def rotF (c : Cfg) (v : Variant) (k : Vector Byte v.kb) : Vector Byte v.kb := rotateBytes (c.rotStep v).val k

/-- `RotB(K)`: `K'[i] = K[(i - s) mod KB]` (R121). -/
def rotB (c : Cfg) (v : Variant) (k : Vector Byte v.kb) : Vector Byte v.kb := rotateBytes (v.kb - (c.rotStep v).val) k

/-! ### Beta -/

/-- The S-box table (R140). -/
def sboxTable : Vector (BitVec 4) 16 := #v[1, 2, 12, 5, 7, 8, 10, 15, 4, 13, 11, 14, 9, 6, 0, 3]

/-- `S[x]` (R140). -/
def sbox (x : BitVec 4) : BitVec 4 := sboxTable[x.toNat]?.getD 0

/-- `S_inv` (R141), used by no micro-operation. -/
def sboxInvTable : Vector (BitVec 4) 16 := #v[14, 0, 1, 15, 8, 3, 13, 4, 5, 12, 6, 10, 2, 9, 11, 7]

/-- `S_inv[x]` (R141). -/
def sboxInv (x : BitVec 4) : BitVec 4 := sboxInvTable[x.toNat]?.getD 0

/-- Which lane carries bit `b` of a nibble, and equally which bit lane `b` carries: with `NIB_LSB_LANE0` lane 0 carries bit 0,
without it lane 0 carries bit 3 (R142). -/
def nibbleLane (lsbLane0 : Bool) (b : Fin 4) : Fin 4 := if lsbLane0 then b else Fin.rev b

/-- The nibble at bit position `p` of the four lanes (R142). -/
def nibbleAt {w : Nat} (lsbLane0 : Bool) (x : Lanes w) (p : Nat) : BitVec 4 :=
  BitVec.ofFnLE fun b => x[nibbleLane lsbLane0 b].getLsbD p

/-- The four-lane vector whose nibble at position `p` is `f` of the given vector's nibble there (R142). -/
def mapNibbles {w : Nat} (lsbLane0 : Bool) (f : BitVec 4 → BitVec 4) (x : Lanes w) : Lanes w :=
  Vector.ofFn fun j => BitVec.ofFnLE fun p => (f (nibbleAt lsbLane0 x p.val)).getLsbD (nibbleLane lsbLane0 j).val

/-- Beta: the S-box on the nibble of every bit position (R142; the table form, R147). -/
def beta {w : Nat} (lsbLane0 : Bool) (x : Lanes w) : Lanes w := mapNibbles lsbLane0 sbox x

/-- The Boolean equations for `NIB_LSB_LANE0 = true` (R143). -/
def betaEquationsLsb {w : Nat} (a : Lanes w) : Lanes w :=
  let a0 := a[0]
  let a1 := a[1]
  let a2 := a[2]
  let a3 := a[3]
  #v[~~~(a0 ^^^ a1 ^^^ a3 ^^^ (a2 &&& a3)),
    a0 ^^^ a2 ^^^ (a0 &&& a1) ^^^ (a0 &&& a3) ^^^ (a1 &&& a3) ^^^ (a2 &&& a3)
      ^^^ (a0 &&& a1 &&& a3) ^^^ (a0 &&& a2 &&& a3) ^^^ (a1 &&& a2 &&& a3),
    a1 ^^^ a2 ^^^ a3 ^^^ (a0 &&& a2) ^^^ (a0 &&& a1 &&& a3) ^^^ (a1 &&& a2 &&& a3),
    a1 ^^^ (a0 &&& a1) ^^^ (a0 &&& a2) ^^^ (a0 &&& a3) ^^^ (a2 &&& a3) ^^^ (a0 &&& a2 &&& a3)]

/-- The Boolean equations for `NIB_LSB_LANE0 = false` (R144). -/
def betaEquationsMsb {w : Nat} (a : Lanes w) : Lanes w :=
  let a0 := a[0]
  let a1 := a[1]
  let a2 := a[2]
  let a3 := a[3]
  #v[a2 ^^^ (a0 &&& a1) ^^^ (a0 &&& a3) ^^^ (a1 &&& a3) ^^^ (a2 &&& a3) ^^^ (a0 &&& a1 &&& a3),
    a0 ^^^ a1 ^^^ a2 ^^^ (a1 &&& a3) ^^^ (a0 &&& a1 &&& a2) ^^^ (a0 &&& a2 &&& a3),
    a1 ^^^ a3 ^^^ (a0 &&& a1) ^^^ (a0 &&& a2) ^^^ (a0 &&& a3) ^^^ (a2 &&& a3)
      ^^^ (a0 &&& a1 &&& a2) ^^^ (a0 &&& a1 &&& a3) ^^^ (a0 &&& a2 &&& a3),
    ~~~(a0 ^^^ a2 ^^^ a3 ^^^ (a0 &&& a1))]

/-! ### ShiftLanes and SwitchLanes -/

/-- `ROL_N(x, s)` for `s < N` (R18). -/
def rol {w : Nat} (x : BitVec w) (s : Nat) : BitVec w := (x <<< s) ||| (x >>> (w - s))

/-- `Shift(X)`: lane `j` rotated left by `SHIFT[bw][j]` (R160). -/
def shiftLanes (c : Cfg) (v : Variant) (x : Lanes v.lw) : Lanes v.lw := Vector.ofFn fun j => rol x[j] (c.shift v j).val

/-- The lane if the matrix bit is 1, else zero. -/
def pick {w : Nat} (bit : ZMod 2) (x : BitVec w) : BitVec w := if bit = 1 then x else 0

/-- The affine map over lanes with matrix `m` and constant `k`: `Y[j] = k[j] xor (xor of the X[i] with m[j][i] = 1)` (R163). -/
def mixLanes {w : Nat} (m : Matrix (Fin 4) (Fin 4) (ZMod 2)) (k x : Lanes w) : Lanes w :=
  Vector.ofFn fun j => k[j] ^^^ pick (m j 0) x[0] ^^^ pick (m j 1) x[1] ^^^ pick (m j 2) x[2] ^^^ pick (m j 3) x[3]

/-- `Switch(X)` (R163). -/
def switchLanes (c : Cfg) (v : Variant) (x : Lanes v.lw) : Lanes v.lw := mixLanes (c.switchM v).val (c.switchC v) x

/-! ### Subkey and key register -/

/-- `Take(K)`: the first `HB` bytes of the key as four lanes (R180). -/
def take (v : Variant) (k : Vector Byte v.kb) : Lanes v.lw := lanesFrom v.lb (byteAt k)

/-- `Fold(K, S)`: the bytes of `S` over the first `HB` bytes of the key (R181). -/
def fold (v : Variant) (k : Vector Byte v.kb) (s : Lanes v.lw) : Vector Byte v.kb :=
  Vector.ofFn fun i => if i.val < v.hb then laneByte v.lb s i.val else k[i]

/-! ### The round engine -/

/-- The working values of one command: the two halves, the key and the accumulator (R223). -/
structure Feistel (v : Variant) where
  /-- The left half. -/
  l : Lanes v.lw
  /-- The right half. -/
  r : Lanes v.lw
  /-- The key. -/
  key : Vector Byte v.kb
  /-- The accumulator. -/
  rc : BitVec v.cw
  deriving DecidableEq, Repr

/-- `KeyStep(K, rc) = (K', rc', S)` (R220). -/
def keyStep (c : Cfg) (v : Variant) (k : Vector Byte v.kb) (rc : BitVec v.cw) : Vector Byte v.kb × BitVec v.cw × Lanes v.lw :=
  let k1 := rotF c v k
  let s0 := take v k1
  let rc' := adv c v rc
  let s := addConstant s0 rc'
  (fold v k1 s, rc', s)

/-- `KeyUnstep(K', rc') = (K, rc, S)` (R221). -/
def keyUnstep (c : Cfg) (v : Variant) (k' : Vector Byte v.kb) (rc' : BitVec v.cw) :
    Vector Byte v.kb × BitVec v.cw × Lanes v.lw :=
  let s := take v k'
  let s0 := subConstant s rc'
  let k1 := fold v k' s0
  (rotB c v k1, ret c v rc', s)

/-- `F(X, S) = Switch(Beta(Shift(X) xor S))` (R222). -/
def roundFunction (c : Cfg) (v : Variant) (x s : Lanes v.lw) : Lanes v.lw :=
  switchLanes c v (beta c.nibLsbLane0 (xorLanes (shiftLanes c v x) s))

/-- `HalfL`, the left half-round: reads `L`, changes `R` (R223). -/
def halfL (c : Cfg) (v : Variant) (st : Feistel v) : Feistel v :=
  let (k', rc', s) := keyStep c v st.key st.rc
  { l := st.l, r := xorLanes st.r (roundFunction c v st.l s), key := k', rc := rc' }

/-- `HalfR`, the right half-round: reads `R`, changes `L` (R223). -/
def halfR (c : Cfg) (v : Variant) (st : Feistel v) : Feistel v :=
  let (k', rc', s) := keyStep c v st.key st.rc
  { l := xorLanes st.l (roundFunction c v st.r s), r := st.r, key := k', rc := rc' }

/-- `Round`: the left half-round, then the right (R224). -/
def fullRound (c : Cfg) (v : Variant) (st : Feistel v) : Feistel v := halfR c v (halfL c v st)

/-- `UnHalfR` (R227). -/
def unHalfR (c : Cfg) (v : Variant) (st : Feistel v) : Feistel v :=
  let (k, rc, s) := keyUnstep c v st.key st.rc
  { l := xorLanes st.l (roundFunction c v st.r s), r := st.r, key := k, rc := rc }

/-- `UnHalfL` (R227). -/
def unHalfL (c : Cfg) (v : Variant) (st : Feistel v) : Feistel v :=
  let (k, rc, s) := keyUnstep c v st.key st.rc
  { l := st.l, r := xorLanes st.r (roundFunction c v st.l s), key := k, rc := rc }

/-- One reverse round: the right half-round undone first, then the left (R229). -/
def unRound (c : Cfg) (v : Variant) (st : Feistel v) : Feistel v := unHalfL c v (unHalfR c v st)

/-- `f` applied `n` times. -/
def applyTimes {α : Type} (f : α → α) : Nat → α → α
  | 0, x => x
  | n + 1, x => applyTimes f n (f x)

/-- The key and accumulator part of `KeyStep`, the macro KFF (R220, R226). -/
def keyForward (c : Cfg) (v : Variant) (st : Feistel v) : Feistel v :=
  let (k', rc', _) := keyStep c v st.key st.rc
  { st with key := k', rc := rc' }

/-- The values a command starts with: the halves of the block, the key, the accumulator zero (R225, R100). -/
def loaded (v : Variant) (block : Vector Byte v.bb) (key : Vector Byte v.kb) : Feistel v where
  l := leftHalf v (byteAt block)
  r := rightHalf v (byteAt block)
  key := key
  rc := 0

/-- The block of the two halves (R225, R63). -/
def stored {v : Variant} (st : Feistel v) : Vector Byte v.bb := Vector.ofFn fun i => blockByte v st.l st.r i.val

/-- `Enc(v, P, Kin, n)` (R225). -/
def encryptBlock (c : Cfg) (v : Variant) (p : Vector Byte v.bb) (kin : Vector Byte v.kb) (n : Nat) : Vector Byte v.bb :=
  stored (applyTimes (fullRound c v) n (loaded v p kin))

/-- `FastForward(Kin, m)`: key and accumulator after `m` key steps from `(Kin, 0)` (R226), with the halves untouched. -/
def fastForward (c : Cfg) (v : Variant) (m : Nat) (st : Feistel v) : Feistel v := applyTimes (keyForward c v) m st

/-- `Dec(v, Cb, Kin, n)` (R229). -/
def decryptBlock (c : Cfg) (v : Variant) (cb : Vector Byte v.bb) (kin : Vector Byte v.kb) (n : Nat) : Vector Byte v.bb :=
  stored (applyTimes (unRound c v) n (fastForward c v (2 * n) (loaded v cb kin)))

/-! ### The table of round keys (R241), which this hardware does not hold -/

/-- The subkey of the key step with index `i` from `(Kin, 0)`: `S_(i+1)` of R241. -/
def roundKey (c : Cfg) (v : Variant) (kin : Vector Byte v.kb) (i : Nat) : Lanes v.lw :=
  let st := fastForward c v i { l := Vector.replicate 4 0, r := Vector.replicate 4 0, key := kin, rc := 0 }
  (keyStep c v st.key st.rc).2.2

/-- `n` rounds over a table of subkeys: `R = R xor F(L, S_(2r-1))`, `L = L xor F(R, S_(2r))` for `r = 1..n` (R241). -/
def tableRounds (c : Cfg) (v : Variant) (table : Nat → Lanes v.lw) : Nat → Lanes v.lw × Lanes v.lw → Lanes v.lw × Lanes v.lw
  | 0, x => x
  | n + 1, x =>
    let (l, r) := tableRounds c v table n x
    let r' := xorLanes r (roundFunction c v l (table (2 * n)))
    (xorLanes l (roundFunction c v r' (table (2 * n + 1))), r')

/-- The same backwards, from round `n` down to round 1 (R241). -/
def tableUnrounds (c : Cfg) (v : Variant) (table : Nat → Lanes v.lw) : Nat → Lanes v.lw × Lanes v.lw → Lanes v.lw × Lanes v.lw
  | 0, x => x
  | n + 1, (l, r) =>
    let l' := xorLanes l (roundFunction c v r (table (2 * n + 1)))
    tableUnrounds c v table n (l', xorLanes r (roundFunction c v l' (table (2 * n))))

end Sys2Proof.Machine
end

