-- ==== Sys2Proof/Machine/Memory.lean ====
section
/-! DEFINITION. Sparse storage in one canonical form, for the buffers and for the ROM (10_state.md R48, R49): a list of address
and unit pairs, addresses strictly rising, no unit equal to what an unlisted address reads as. -/

namespace Sys2Proof.Machine

/-- Read address `a`; `d` is what an unlisted address reads as. -/
def Memory.read {n : Nat} (d : Nat → BitVec n) : List (Nat × BitVec n) → Nat → BitVec n
  | [], a => d a
  | (k, b) :: m, a => if k = a then b else Memory.read d m a

/-- Remove address `a`, so that it reads as the default. -/
def Memory.erase {n : Nat} : List (Nat × BitVec n) → Nat → List (Nat × BitVec n)
  | [], _ => []
  | (k, b) :: m, a => if k = a then Memory.erase m a else (k, b) :: Memory.erase m a

/-- List `b` at address `a`, in its place. -/
def Memory.put {n : Nat} : List (Nat × BitVec n) → Nat → BitVec n → List (Nat × BitVec n)
  | [], a, b => [(a, b)]
  | (k, x) :: m, a, b =>
    if a < k then (a, b) :: (k, x) :: m
    else if a = k then (a, b) :: m
    else (k, x) :: Memory.put m a b

/-- Write `b` at address `a`: writing what an unlisted address reads as removes the entry. -/
def Memory.write {n : Nat} (d : Nat → BitVec n) (m : List (Nat × BitVec n)) (a : Nat) (b : BitVec n) : List (Nat × BitVec n) :=
  if b = d a then Memory.erase m a else Memory.put m a b

/-- Write `f 0, …, f (count - 1)` at `base`, `base + 1`, … -/
def Memory.writeRun {n : Nat} (d : Nat → BitVec n) (m : List (Nat × BitVec n)) (base : Nat) (f : Nat → BitVec n) :
    Nat → List (Nat × BitVec n)
  | 0 => m
  | count + 1 => Memory.write d (Memory.writeRun d m base f count) (base + count) (f count)

/-- Every listed address is above `a`. -/
def Memory.above {n : Nat} (a : Nat) : List (Nat × BitVec n) → Bool
  | [] => true
  | (k, _) :: _ => decide (a < k)

/-- The canonical form, and every listed address in `lo ≤ a < hi`. -/
def Memory.wf {n : Nat} (d : Nat → BitVec n) (lo hi : Nat) : List (Nat × BitVec n) → Bool
  | [] => true
  | (k, b) :: m => decide (lo ≤ k) && decide (k < hi) && decide (b ≠ d k) && Memory.above k m && Memory.wf d lo hi m

/-- What a buffer byte that nothing has written reads as: zero, the reset value R52 gives. -/
def bufferDefault : Nat → Byte := fun _ => 0

/-- Window offset of `DIN[0]` (20_memory.md R60). -/
abbrev dinBase : Nat := 0x20
/-- Window offset of `KIN[0]` (R60). -/
abbrev kinBase : Nat := 0x40
/-- Window offset of `DOUT[0]` (R60). -/
abbrev doutBase : Nat := 0x60
/-- The end of the window (R60). -/
abbrev windowEnd : Nat := 0x80

/-- The buffer byte at a window offset: `MemRead(B+i, 1)` of R20 with `B` one of the three bases. -/
def readBuffer (buf : List Host.Cell) (offset : Nat) : Byte := Memory.read bufferDefault buf offset

/-- `MemWrite(B+i, 1, b)` (R20). -/
def writeBuffer (buf : List Host.Cell) (offset : Nat) (b : Byte) : List Host.Cell := Memory.write bufferDefault buf offset b

/-- The bytes `f 0, …, f (count-1)` at `base` on, as one action (20_memory.md R68). -/
def writeBufferRun (buf : List Host.Cell) (base : Nat) (f : Nat → Byte) (count : Nat) : List Host.Cell :=
  Memory.writeRun bufferDefault buf base f count

/-- The buffers are in canonical form and inside the window's buffer range. -/
def bufferWf (buf : List Host.Cell) : Bool := Memory.wf bufferDefault dinBase windowEnd buf

end Sys2Proof.Machine
end

