-- ==== Sys2Proof/Machine/Microprogram.lean ====
section
/-! DEFINITION. The microprogram (45_engine.md R212) and the ROM that holds it (10_state.md R49, 20_memory.md R75). -/

namespace Sys2Proof.Machine

/-- R212, addresses 0x00 to 0x1F: the encryption program, and the zero word at 0x1F. -/
def encryptionProgram : List (BitVec 16) :=
  [0x0100, 0x0200, 0x0300, 0x0800, 0x0A1C] ++  -- 0x00 CHK LDKEY LDBLK SETC BRZ 0x1C
  [0x1800, 0x1A00, 0x1000, 0x1400, 0x1200, 0x1500, 0x1700, 0x1B00, 0x1C00, 0x1D00, 0x1E00] ++  -- 0x05 HRF.L
  [0x1900, 0x1A00, 0x1000, 0x1400, 0x1200, 0x1500, 0x1700, 0x1B00, 0x1C00, 0x1D00, 0x1F00] ++  -- 0x10 HRF.R
  [0x0B04, 0x0400, 0x0500, 0x0600, 0x0000]  -- 0x1B DECJ 0x04, STBLK, CLR, DONE, zero

/-- R212, addresses 0x20 to 0x46: the decryption program. -/
def decryptionProgram : List (BitVec 16) :=
  [0x0100, 0x0200, 0x0300, 0x0900, 0x0A2B] ++  -- 0x20 CHK LDKEY LDBLK SETC2 BRZ 0x2B
  [0x1000, 0x1400, 0x1200, 0x1500, 0x1700] ++  -- 0x25 KFF
  [0x0B24, 0x0800, 0x0A44] ++  -- 0x2A DECJ 0x24, SETC, BRZ 0x44
  [0x1400, 0x1900, 0x1A00, 0x1B00, 0x1C00, 0x1D00, 0x1F00, 0x1600, 0x1700, 0x1300, 0x1100] ++  -- 0x2D HRB.R
  [0x1400, 0x1800, 0x1A00, 0x1B00, 0x1C00, 0x1D00, 0x1E00, 0x1600, 0x1700, 0x1300, 0x1100] ++  -- 0x38 HRB.L
  [0x0B2C, 0x0400, 0x0500, 0x0600]  -- 0x43 DECJ 0x2C, STBLK, CLR, DONE

/-- The listing of R212: every address not listed there holds 0x0000. -/
def microprogram (address : Nat) : BitVec 16 := (encryptionProgram ++ decryptionProgram).getD address 0

/-- `ROM[address]`: the listing, but for the words a state lists as differing (log 3; nothing writes any, R75). -/
def readRom (rom : List (Nat × BitVec 16)) (address : BitVec 7) : BitVec 16 := Memory.read microprogram rom address.toNat

/-- Another word at one ROM address: used by no step, only to place a first instruction (log 3, log 4). -/
def placeRom (rom : List (Nat × BitVec 16)) (address : BitVec 7) (word : BitVec 16) : List (Nat × BitVec 16) :=
  Memory.write microprogram rom address.toNat word

end Sys2Proof.Machine
end

