-- ==== Sys2Proof/Machine/Ops.lean ====
section
/-! DEFINITION. The named operations over the state that the meanings share: register updates, the micro-program counter, taking
an error (60_exceptions.md R264), starting and refusing a command (30_encoding.md R84, R85), the fetch (45_engine.md R210), reset
(70_reset_and_hazards.md R290). There is no return from an error (60_exceptions.md R267): `startCommand` is what follows one. -/

namespace Sys2Proof.Machine

/-- What a step of the machine answers. -/
abbrev Result := Host.Outcome State Fault Refusal

/-! ### Register updates -/

/-- Write the left half. -/
def State.setL (s : State) (x : Lanes 32) : State := { s with l := x }
/-- Write the right half. -/
def State.setR (s : State) (x : Lanes 32) : State := { s with r := x }
/-- Write the work buffer. -/
def State.setW (s : State) (x : Lanes 32) : State := { s with w := x }
/-- Write the subkey. -/
def State.setSk (s : State) (x : Lanes 32) : State := { s with sk := x }
/-- Write the key register. -/
def State.setKey (s : State) (x : Vector Byte 32) : State := { s with key := x }
/-- Write the accumulator. -/
def State.setRc (s : State) (x : BitVec 128) : State := { s with rc := x }
/-- Write the loop counter. -/
def State.setC (s : State) (x : BitVec 9) : State := { s with c := x }
/-- Write the micro-program counter. -/
def State.setUpc (s : State) (x : BitVec 7) : State := { s with upc := x }
/-- Write `STATUS`. -/
def State.setStatus (s : State) (x : Status) : State := { s with status := x }
/-- Write the buffers. -/
def State.setBuf (s : State) (x : List Host.Cell) : State := { s with buf := x }
/-- The model's own: the value a host read returns. -/
def State.setAnswer (s : State) (x : BitVec 32) : State := { s with answer := x }
/-- The model's own: the host's coming actions. -/
def State.setPending (s : State) (x : List HostAction) : State := { s with pending := x }

/-- `UPC <- UPC + 1` (10_state.md R38). The counter has 7 bits; the microprogram never reaches 0x7F (log 13). -/
def State.advance (s : State) : State := s.setUpc (s.upc + 1)

/-! ### Variants -/

/-- The rule of a micro-operation that computes at the latched variant's widths, then `UPC <- UPC + 1`. `VARr = 3` selects no
variant, so no width (00_scope.md R9): a fault, which no run reaches (log 9). -/
def atVariant (s : State) (rule : Variant → State) : Result :=
  match Variant.ofSelector s.varr with
  | some v => .next (rule v).advance
  | none => .fault .noVariantSelected

/-! ### Errors -/

/-- `raise E()` (R264, 00_scope.md R21): the status and the error code, and nothing else. -/
def State.raiseError (s : State) (e : ErrorCode) : State := { s with status := .error, err := e }

/-! ### Commands -/

/-- `NR_STD[VAR]`, and 0 for `VAR = 3` (R84). -/
def standardRounds (c : Cfg) (var : BitVec 2) : BitVec 8 :=
  match Variant.ofSelector var with
  | some v => c.nrStd v
  | none => 0

/-- The first ROM address of the encryption program (R84, R213). -/
def encryptEntry : BitVec 7 := 0x00
/-- The first ROM address of the decryption program (R84, R213). -/
def decryptEntry : BitVec 7 := 0x20

/-- The host's write of an accepted command word to `CMD` (R84). While BUSY the write is ignored (20_memory.md R71). -/
def startCommand (s : State) (op : BitVec 5) (var : BitVec 2) (rounds dlen klen nr : BitVec 8) (entry : BitVec 7) : State :=
  if s.status = .busy then s
  else
    { s with
      cmd := commandWord op var rounds dlen klen
      opr := op
      varr := var
      nrr := nr
      dlenr := dlen
      klenr := klen
      err := .none
      status := .busy
      upc := entry }

/-- The host's write of a reserved word to `CMD` (R85): stored, and refused at once with UNSUPPORTED_VARIANT; no latch changes.
While BUSY the write is ignored (R71). -/
def refuseCommand (s : State) (word : BitVec 32) : State :=
  if s.status = .busy then s else State.raiseError { s with cmd := word } .unsupportedVariant

/-! ### Fetch and reset -/

/-- `ROM[UPC]` (45_engine.md R210). -/
def fetchWord (s : State) : BitVec 16 := readRom s.rom s.upc

/-- Reset (R290, R291): every piece of the block at its reset value. The ROM is not state of the block and is not affected, and
the host side, which is outside the block, keeps its coming actions and the value it last read (log 16). -/
def resetBlock (s : State) : State := { State.reset with rom := s.rom, pending := s.pending, answer := s.answer }

/-- A state whose very next step fetches the micro-instruction `word`: the engine running, the host silent, the word in the ROM
at `UPC` (log 4). -/
def placeMicro (s : State) (word : BitVec 16) : State :=
  { s with status := .busy, pending := [], rom := placeRom s.rom s.upc word }

/-- A state whose very next step is the host's write of `word` to `CMD`, and lands (log 4). -/
def placeCommand (s : State) (word : BitVec 32) : State :=
  { s with
    status := if s.status = .busy then .idle else s.status
    pending := [.writeWord 0x00 word] }

/-- A state whose very next step runs the instruction of the opcode table whose `nbits` bits are `w`. -/
def placeInstruction (s : State) (nbits w : Nat) : State :=
  if nbits ≤ 16 then placeMicro s (BitVec.ofNat 16 w) else placeCommand s (BitVec.ofNat 32 w)

end Sys2Proof.Machine
end

