-- ==== Sys2Proof/Machine/Buffers.lean ====
section
/-! DEFINITION. The loads, the store and the clearing of the data path (44_datapath.md R190 to R193). -/

namespace Sys2Proof.Machine

/-- `DIN` as bytes from its first (20_memory.md R60). -/
def dinByte (s : State) (i : Nat) : Byte := readBuffer s.buf (dinBase + i)

/-- `KIN` as bytes from its first. -/
def kinByte (s : State) (i : Nat) : Byte := readBuffer s.buf (kinBase + i)

/-- `DOUT` as bytes from its first. -/
def doutByte (s : State) (i : Nat) : Byte := readBuffer s.buf (doutBase + i)

/-- LDKEY (R190): the key from `KIN[0..KB-1]`, the accumulator zero. -/
def execLdkey (s : State) : Result :=
  atVariant s fun v => (s.setKey (putKey v s.key (Vector.ofFn fun i => kinByte s i.val))).setRc (putRc v s.rc 0)

/-- LDBLK (R191): the halves from `DIN[0..BB-1]`. -/
def execLdblk (s : State) : Result :=
  atVariant s fun v =>
    (s.setL (putLanes v s.l (leftHalf v (dinByte s)))).setR (putLanes v s.r (rightHalf v (dinByte s)))

/-- STBLK (R192): `DOUT[0..BB-1]` from the halves, in this one step; the other bytes of `DOUT` keep their values. -/
def execStblk (s : State) : Result :=
  atVariant s fun v =>
    s.setBuf (writeBufferRun s.buf doutBase (blockByte v (lanesAt v s.l) (lanesAt v s.r)) v.bb)

/-- Every register of the data path zero (R193). -/
def State.clearDataPath (s : State) : State :=
  { s with
    l := Vector.replicate 4 0
    r := Vector.replicate 4 0
    w := Vector.replicate 4 0
    sk := Vector.replicate 4 0
    key := Vector.replicate 32 0
    rc := 0
    c := 0 }

/-- CLR (R193): the whole data path, all 32 key bytes and the physical widths with it. -/
def execClr (s : State) : Result := .next s.clearDataPath.advance

end Sys2Proof.Machine
end

