-- ==== Sys2Proof/Machine/Commands.lean ====
section
/-! DEFINITION. The four host commands (45_engine.md R230 to R233). The instruction is the host's write of its word to `CMD`, so its
step is the acceptance of R84; the block, the result and the final status come from the microprogram that the acceptance starts
(R234, R235; log 15). Lengths and variant are checked by CHK, the program's first micro-operation (R86, R214). -/

namespace Sys2Proof.Machine

/-- ENC (R84, R230): `ROUNDS` is the round count; the encryption program starts. -/
def execEnc (var : BitVec 2) (rounds dlen klen : BitVec 8) (s : State) : Result :=
  .next (startCommand s 0x00 var rounds dlen klen rounds encryptEntry)

/-- DEC (R84, R231): `ROUNDS` is the round count; the decryption program starts. -/
def execDec (var : BitVec 2) (rounds dlen klen : BitVec 8) (s : State) : Result :=
  .next (startCommand s 0x01 var rounds dlen klen rounds decryptEntry)

/-- ENCS under a configuration. -/
def encsUnder (c : Cfg) (var : BitVec 2) (rounds dlen klen : BitVec 8) (s : State) : Result :=
  .next (startCommand s 0x02 var rounds dlen klen (standardRounds c var) encryptEntry)

/-- ENCS (R84, R232): the standard round count; `ROUNDS` is stored in `CMD` and otherwise ignored. -/
def execEncs (var : BitVec 2) (rounds dlen klen : BitVec 8) (s : State) : Result :=
  encsUnder Config.cfg var rounds dlen klen s

/-- DECS under a configuration. -/
def decsUnder (c : Cfg) (var : BitVec 2) (rounds dlen klen : BitVec 8) (s : State) : Result :=
  .next (startCommand s 0x03 var rounds dlen klen (standardRounds c var) decryptEntry)

/-- DECS (R84, R233): the standard round count; `ROUNDS` is stored in `CMD` and otherwise ignored. -/
def execDecs (var : BitVec 2) (rounds dlen klen : BitVec 8) (s : State) : Result :=
  decsUnder Config.cfg var rounds dlen klen s

end Sys2Proof.Machine
end

