-- ==== Sys2Proof/Machine/Control.lean ====
section
/-! DEFINITION. The control micro-operations (45_engine.md R214 to R219). -/

namespace Sys2Proof.Machine

/-- `BB[v]` and `KB[v]` as the 8-bit lengths CHK compares with (R214). -/
def lengthsMatch (v : Variant) (dlen klen : BitVec 8) : Bool :=
  dlen == BitVec.ofNat 8 v.bb && klen == BitVec.ofNat 8 v.kb

/-- CHK (R214): the variant first, then the lengths (60_exceptions.md R266). -/
def execChk (s : State) : Result :=
  match Variant.ofSelector s.varr with
  | none => .next (s.raiseError .unsupportedVariant)
  | some v => if lengthsMatch v s.dlenr s.klenr then .next s.advance else .next (s.raiseError .invalidLength)

/-- SETC (R215): `C <- zext_9(NRr)`. -/
def execSetc (s : State) : Result := .next (s.setC (s.nrr.setWidth 9)).advance

/-- SETC2 (R216): `C <- 2 * NRr`, at most 510. -/
def execSetc2 (s : State) : Result := .next (s.setC (2 * s.nrr.setWidth 9)).advance

/-- The rule of a micro-operation with target `target`, which R88 bounds by 0x7F; any other decodes as illegal (R87). -/
def atTarget (target : BitVec 8) (rule : BitVec 7 → State) : Result :=
  if target ≤ 0x7F#8 then .next (rule (target.setWidth 7)) else .refused .illegalMicroOperation

/-- BRZ (R217): to the target if `C = 0`, else on. -/
def execBrz (target : BitVec 8) (s : State) : Result :=
  atTarget target fun t => if s.c = 0 then s.setUpc t else s.advance

/-- DECJ (R218): `C <- (C - 1) mod 512` and to the target. -/
def execDecj (target : BitVec 8) (s : State) : Result :=
  atTarget target fun t => (s.setC (s.c - 1)).setUpc t

/-- DONE (R219): `STATUS <- DONE`; `UPC` keeps its value. -/
def execDone (s : State) : Result := .next (s.setStatus .done)

end Sys2Proof.Machine
end

