-- ==== Sys2Proof/Machine/KeySchedule.lean ====
section
/-! DEFINITION. The micro-operations of the key schedule: the key-rotation register (41_key_rotation.md), the round-constant
generator (40_round_constant.md), the subkey (44_datapath.md R182, R183). -/

namespace Sys2Proof.Machine

/-- ROTF under a configuration. -/
def rotfUnder (c : Cfg) (s : State) : Result :=
  atVariant s fun v => s.setKey (putKey v s.key (rotF c v (keyAt v s.key)))

/-- ROTF (R122): `KEY <- RotF(KEY)`. -/
def execRotf (s : State) : Result := rotfUnder Config.cfg s

/-- ROTB under a configuration. -/
def rotbUnder (c : Cfg) (s : State) : Result :=
  atVariant s fun v => s.setKey (putKey v s.key (rotB c v (keyAt v s.key)))

/-- ROTB (R123): `KEY <- RotB(KEY)`. -/
def execRotb (s : State) : Result := rotbUnder Config.cfg s

/-- RCADV under a configuration. -/
def rcadvUnder (c : Cfg) (s : State) : Result :=
  atVariant s fun v => s.setRc (putRc v s.rc (adv c v (rcAt v s.rc)))

/-- RCADV (R104): `RC <- Adv(RC)`. -/
def execRcadv (s : State) : Result := rcadvUnder Config.cfg s

/-- RCRET under a configuration. -/
def rcretUnder (c : Cfg) (s : State) : Result :=
  atVariant s fun v => s.setRc (putRc v s.rc (ret c v (rcAt v s.rc)))

/-- RCRET (R105): `RC <- Ret(RC)`. -/
def execRcret (s : State) : Result := rcretUnder Config.cfg s

/-- SKTAKE (R182): `SK <- Take(KEY)`. -/
def execSktake (s : State) : Result :=
  atVariant s fun v => s.setSk (putLanes v s.sk (take v (keyAt v s.key)))

/-- SKADD (R106): `SK <- LANES(INT(SK) + RC)`, one addition across the four lanes. -/
def execSkadd (s : State) : Result :=
  atVariant s fun v => s.setSk (putLanes v s.sk (addConstant (lanesAt v s.sk) (rcAt v s.rc)))

/-- SKSUB (R107): `SK <- LANES(INT(SK) - RC)`, one subtraction across the four lanes. -/
def execSksub (s : State) : Result :=
  atVariant s fun v => s.setSk (putLanes v s.sk (subConstant (lanesAt v s.sk) (rcAt v s.rc)))

/-- SKFOLD (R183): `KEY <- Fold(KEY, SK)`. -/
def execSkfold (s : State) : Result :=
  atVariant s fun v => s.setKey (putKey v s.key (fold v (keyAt v s.key) (lanesAt v s.sk)))

end Sys2Proof.Machine
end

