-- ==== Sys2Proof/Machine/RoundFunction.lean ====
section
/-! DEFINITION. The micro-operations on the work buffer and the halves: 44_datapath.md R184 to R188, 43_linear_layers.md R162 and
R166, 42_beta.md R145. -/

namespace Sys2Proof.Machine

/-- WLDL (R184): `W <- L`. -/
def execWldl (s : State) : Result := atVariant s fun v => s.setW (putLanes v s.w (lanesAt v s.l))

/-- WLDR (R185): `W <- R`. -/
def execWldr (s : State) : Result := atVariant s fun v => s.setW (putLanes v s.w (lanesAt v s.r))

/-- SHIFT under a configuration. -/
def shiftUnder (c : Cfg) (s : State) : Result :=
  atVariant s fun v => s.setW (putLanes v s.w (shiftLanes c v (lanesAt v s.w)))

/-- SHIFT (R162): `W <- Shift(W)`. -/
def execShift (s : State) : Result := shiftUnder Config.cfg s

/-- XORSK (R186): `W <- W xor SK`. -/
def execXorsk (s : State) : Result :=
  atVariant s fun v => s.setW (putLanes v s.w (xorLanes (lanesAt v s.w) (lanesAt v s.sk)))

/-- BETA under a configuration. -/
def betaUnder (c : Cfg) (s : State) : Result :=
  atVariant s fun v => s.setW (putLanes v s.w (beta c.nibLsbLane0 (lanesAt v s.w)))

/-- BETA (R145): `W <- Beta(W)`. -/
def execBeta (s : State) : Result := betaUnder Config.cfg s

/-- SWITCH under a configuration. -/
def switchUnder (c : Cfg) (s : State) : Result :=
  atVariant s fun v => s.setW (putLanes v s.w (switchLanes c v (lanesAt v s.w)))

/-- SWITCH (R166): `W <- Switch(W)`. -/
def execSwitch (s : State) : Result := switchUnder Config.cfg s

/-- XFR (R187): `R <- R xor W`. -/
def execXfr (s : State) : Result :=
  atVariant s fun v => s.setR (putLanes v s.r (xorLanes (lanesAt v s.r) (lanesAt v s.w)))

/-- XFL (R188): `L <- L xor W`. -/
def execXfl (s : State) : Result :=
  atVariant s fun v => s.setL (putLanes v s.l (xorLanes (lanesAt v s.l) (lanesAt v s.w)))

end Sys2Proof.Machine
end

