-- ==== Sys2Proof/Machine/Dispatch.lean ====
section
/-! DEFINITION. The meaning of each instruction, one arm each (30_encoding.md R81, R83). -/

namespace Sys2Proof.Machine

def exec (i : Instr) (s : State) : Host.Outcome State Fault Refusal :=
  match i with
  | .enc var rounds dlen klen => Sys2Proof.Machine.execEnc var rounds dlen klen s
  | .dec var rounds dlen klen => Sys2Proof.Machine.execDec var rounds dlen klen s
  | .encs var rounds dlen klen => Sys2Proof.Machine.execEncs var rounds dlen klen s
  | .decs var rounds dlen klen => Sys2Proof.Machine.execDecs var rounds dlen klen s
  | .chk => Sys2Proof.Machine.execChk s
  | .ldkey => Sys2Proof.Machine.execLdkey s
  | .ldblk => Sys2Proof.Machine.execLdblk s
  | .stblk => Sys2Proof.Machine.execStblk s
  | .clr => Sys2Proof.Machine.execClr s
  | .done => Sys2Proof.Machine.execDone s
  | .setc => Sys2Proof.Machine.execSetc s
  | .setc2 => Sys2Proof.Machine.execSetc2 s
  | .brz target => Sys2Proof.Machine.execBrz target s
  | .decj target => Sys2Proof.Machine.execDecj target s
  | .rotf => Sys2Proof.Machine.execRotf s
  | .rotb => Sys2Proof.Machine.execRotb s
  | .rcadv => Sys2Proof.Machine.execRcadv s
  | .rcret => Sys2Proof.Machine.execRcret s
  | .sktake => Sys2Proof.Machine.execSktake s
  | .skadd => Sys2Proof.Machine.execSkadd s
  | .sksub => Sys2Proof.Machine.execSksub s
  | .skfold => Sys2Proof.Machine.execSkfold s
  | .wldl => Sys2Proof.Machine.execWldl s
  | .wldr => Sys2Proof.Machine.execWldr s
  | .shift => Sys2Proof.Machine.execShift s
  | .xorsk => Sys2Proof.Machine.execXorsk s
  | .beta => Sys2Proof.Machine.execBeta s
  | .switch => Sys2Proof.Machine.execSwitch s
  | .xfr => Sys2Proof.Machine.execXfr s
  | .xfl => Sys2Proof.Machine.execXfl s

end Sys2Proof.Machine
end

