-- ==== Sys2Proof/Machine/HostPort.lean ====
section
/-! DEFINITION. The two agents' steps: the engine's (45_engine.md R210) and the host's accesses to the window (20_memory.md R60 to
R73). `ex` is the meaning of an instruction. -/

namespace Sys2Proof.Machine

/-- The engine's step: exactly while BUSY, fetch, decode, apply the rule (R210). With any other status it has none and nothing
changes (log 6). An illegal word is refused (30_encoding.md R87). -/
def engineStep (ex : Instr → State → Result) (s : State) : Result :=
  if s.status = .busy then
    match decodeMicro (fetchWord s) with
    | .ok i => ex i s
    | .error _ => .refused .illegalMicroOperation
  else .next s

/-- The status word: `STATUS` in bits 1..0, `ERR` in bits 9..8, zero elsewhere (10_state.md R43 to R45). -/
def statusCode : Status → BitVec 2
  | .idle => 0
  | .busy => 1
  | .done => 2
  | .error => 3

/-- The code of `ERR` (R44, 60_exceptions.md R260). -/
def errorCode : ErrorCode → BitVec 2
  | .none => 0
  | .invalidLength => 1
  | .unsupportedVariant => 2

/-- What a 32-bit read of offset 0x04 returns: `zext_32` of `ERR`, six zero bits, `STATUS` (R45). -/
def statusWord (s : State) : BitVec 32 := (errorCode s.err ++ 0#6 ++ statusCode s.status).setWidth 32

/-- A 32-bit read: `CMD` or the status word (R60, R65); nothing else (R66). -/
def hostReadWord (offset : Nat) (s : State) : Result :=
  if offset = 0x00 then .next (s.setAnswer s.cmd)
  else if offset = 0x04 then .next (s.setAnswer (statusWord s))
  else .refused .unsupportedHostAccess

/-- A byte read: 0 in the reserved range, else the buffer's byte (R60); no other offset (R66). -/
def hostReadByte (offset : Nat) (s : State) : Result :=
  if 0x08 ≤ offset ∧ offset < dinBase then .next (s.setAnswer 0)
  else if dinBase ≤ offset ∧ offset < windowEnd then .next (s.setAnswer ((readBuffer s.buf offset).setWidth 32))
  else .refused .unsupportedHostAccess

/-- A host write of `width` bytes at `offset` with the rule `rule`. While BUSY every host write in the window is ignored, whatever
its width and offset (R71, 70_reset_and_hazards.md R297; log 10). -/
def hostWrite (offset width : Nat) (s : State) (rule : Result) : Result :=
  if s.status = .busy ∧ offset + width ≤ windowEnd then .next s else rule

/-- A write to `CMD`: the command starts (30_encoding.md R84) or is refused at once (R85). -/
def hostWriteCmd (ex : Instr → State → Result) (word : BitVec 32) (s : State) : Result :=
  match decodeCommand word with
  | .ok i => ex i s
  | .error _ => .next (refuseCommand s word)

/-- A 32-bit write: `CMD`, or the status word, where it is ignored (R60); nothing else (R66). -/
def hostWriteWord (ex : Instr → State → Result) (offset : Nat) (value : BitVec 32) (s : State) : Result :=
  hostWrite offset 4 s
    (if offset = 0x00 then hostWriteCmd ex value s
      else if offset = 0x04 then .next s
      else .refused .unsupportedHostAccess)

/-- A half-word write: no rule covers it (R66), but while BUSY it is ignored like any write (R71). -/
def hostWriteHalf (offset : Nat) (s : State) : Result := hostWrite offset 2 s (.refused .unsupportedHostAccess)

/-- A byte write: lands in `DIN` and `KIN`; ignored in the reserved range and in `DOUT` (R60); no other offset (R66). -/
def hostWriteByte (offset : Nat) (value : BitVec 8) (s : State) : Result :=
  hostWrite offset 1 s
    (if dinBase ≤ offset ∧ offset < doutBase then .next (s.setBuf (writeBuffer s.buf offset value))
      else if 0x08 ≤ offset ∧ offset < windowEnd then .next s
      else .refused .unsupportedHostAccess)

/-- One action of the host side (R65, R66, R70); `engineTurn` leaves the step to the engine. -/
def hostStep (ex : Instr → State → Result) (action : HostAction) (s : State) : Result :=
  match action with
  | .engineTurn => engineStep ex s
  | .readByte offset => hostReadByte offset s
  | .readHalf _ => .refused .unsupportedHostAccess
  | .readWord offset => hostReadWord offset s
  | .writeByte offset value => hostWriteByte offset value s
  | .writeHalf offset _ => hostWriteHalf offset s
  | .writeWord offset value => hostWriteWord ex offset value s
  | .reset => .next (resetBlock s)

/-- One step of the machine: the host side's next action, or the engine's step when nothing is pending (log 5). -/
def stepBy (ex : Instr → State → Result) (s : State) : Result :=
  match s.pending with
  | [] => engineStep ex s
  | action :: rest => hostStep ex action (s.setPending rest)

end Sys2Proof.Machine
end

