-- ==== Sys2Proof/Machine/Step.lean ====
section
/-! DEFINITION. One step of the machine (00_scope.md R15, 45_engine.md R210), and the placing of a first instruction. -/

namespace Sys2Proof.Machine

/-- One step: one action of one of the two agents. -/
def step (s : State) : Host.Outcome State Fault Refusal := stepBy exec s

/-- `s` with the instruction whose `nbits` bits are `w` placed so that the very next step runs it: a micro-instruction in the ROM
at `UPC` with the engine running, a host command as the host's next access (log 4). -/
def State.withFetchWord (s : State) (nbits w : Nat) : State := placeInstruction s nbits w

end Sys2Proof.Machine
end

