-- ==== Sys2Proof/Machine/Reference.lean ====
section
/-! DEFINITION. The same machine under a named configuration. `exec` and `step` use `Config.cfg`, of which nothing is known; the nine
instructions that read the configuration have it as an argument here, so that the machine can be run under `Cfg.ref`
(00_scope.md R13) against the vectors of 95_test_vectors.md. Laws/Config.lean proves that under `Config.cfg` this IS the machine. -/

namespace Sys2Proof.Machine

/-- `exec` under the configuration `c`. -/
def execUnder (c : Cfg) (i : Instr) (s : State) : Result :=
  match i with
  | .enc var rounds dlen klen => execEnc var rounds dlen klen s
  | .dec var rounds dlen klen => execDec var rounds dlen klen s
  | .encs var rounds dlen klen => encsUnder c var rounds dlen klen s
  | .decs var rounds dlen klen => decsUnder c var rounds dlen klen s
  | .chk => execChk s
  | .ldkey => execLdkey s
  | .ldblk => execLdblk s
  | .stblk => execStblk s
  | .clr => execClr s
  | .done => execDone s
  | .setc => execSetc s
  | .setc2 => execSetc2 s
  | .brz target => execBrz target s
  | .decj target => execDecj target s
  | .rotf => rotfUnder c s
  | .rotb => rotbUnder c s
  | .rcadv => rcadvUnder c s
  | .rcret => rcretUnder c s
  | .sktake => execSktake s
  | .skadd => execSkadd s
  | .sksub => execSksub s
  | .skfold => execSkfold s
  | .wldl => execWldl s
  | .wldr => execWldr s
  | .shift => shiftUnder c s
  | .xorsk => execXorsk s
  | .beta => betaUnder c s
  | .switch => switchUnder c s
  | .xfr => execXfr s
  | .xfl => execXfl s

/-- `step` under the configuration `c`. -/
def stepUnder (c : Cfg) (s : State) : Result := stepBy (execUnder c) s

/-- `k` steps under the configuration `c`, stopping at the first fault or refusal. -/
def runUnder (c : Cfg) : Nat → State → Result
  | 0, s => .next s
  | k + 1, s =>
    match stepUnder c s with
    | .next s' => runUnder c k s'
    | .fault r => .fault r
    | .refused r => .refused r

end Sys2Proof.Machine
end

