-- ==== Sys2Proof/Machine/WholeCommand.lean ====
section
/-! DEFINITION. A whole command as one function of the state in which the host's write to `CMD` leaves the block (20_memory.md R77;
45_engine.md R234, R235), and the number of engine steps it takes (R240). The machine does not use it: `step` runs the microprogram
of R212, one micro-operation a step, and the statements on whole commands say that the runs come out so. -/

namespace Sys2Proof.Machine

/-- The block of bytes in `DIN` under the variant (20_memory.md R60, R67). -/
def dinBlock (v : Variant) (s : State) : Vector Byte v.bb := Vector.ofFn fun i => readBuffer s.buf (dinBase + i.val)

/-- The key bytes in `KIN` under the variant. -/
def kinKey (v : Variant) (s : State) : Vector Byte v.kb := Vector.ofFn fun i => readBuffer s.buf (kinBase + i.val)

/-- The block of bytes in `DOUT` under the variant. -/
def doutBlock (v : Variant) (s : State) : Vector Byte v.bb := Vector.ofFn fun i => readBuffer s.buf (doutBase + i.val)

/-- The latched operation is ENC or ENCS. -/
def encrypting (s : State) : Bool := decide (s.opr = 0) || decide (s.opr = 2)

/-- What a command that passes CHK leaves in `DOUT[0..BB-1]`: `Enc` for ENC and ENCS (R234), `Dec` for DEC and DECS (R235), of
`DIN`, `KIN` and the latched round count. -/
def commandBlock (c : Cfg) (v : Variant) (s : State) : Vector Byte v.bb :=
  if encrypting s then encryptBlock c v (dinBlock v s) (kinKey v s) s.nrr.toNat
  else decryptBlock c v (dinBlock v s) (kinKey v s) s.nrr.toNat

/-- The address of the program's DONE, where a command that passes CHK ends (R212, R219). -/
def doneAddress (s : State) : BitVec 7 := if encrypting s then 0x1E else 0x46

/-- The state at DONE: the block stored, the data path cleared, `STATUS` DONE (R234, R235, R192, R193, R219). -/
def finishedCommand (c : Cfg) (v : Variant) (s : State) : State :=
  { s.clearDataPath with
    buf := writeBufferRun s.buf doutBase (byteAt (commandBlock c v s)) v.bb
    upc := doneAddress s
    status := .done }

/-- Where a command ends (R77): at DONE (R234, R235), or at the error CHK raises (R214). A word refused at once (30_encoding.md
R85) has left the status other than BUSY, and nothing more happens. -/
def wholeCommand (c : Cfg) (s : State) : State :=
  if s.status = .busy then
    match Variant.ofSelector s.varr with
    | none => s.raiseError .unsupportedVariant
    | some v => if lengthsMatch v s.dlenr s.klenr then finishedCommand c v s else s.raiseError .invalidLength
  else s

/-- Engine steps of a successful ENC or ENCS with `n` rounds (R240): 4 of prologue; per round BRZ, two half-rounds of 11 and DECJ;
the closing BRZ; 3 of epilogue. -/
def encryptionSteps (n : Nat) : Nat := 4 + (1 + 2 * 11 + 1) * n + 1 + 3

/-- Engine steps of a successful DEC or DECS with `n` rounds (R240): 4 of prologue; per fast-forward step BRZ, 5 and DECJ, `2n`
times; the closing BRZ; SETC; the round loop as in encryption, with its closing BRZ; 3 of epilogue. -/
def decryptionSteps (n : Nat) : Nat := 4 + (1 + 5 + 1) * (2 * n) + 1 + 1 + (1 + 2 * 11 + 1) * n + 1 + 3

/-- Engine steps from the host's write to `CMD` to the end of the command (R240): 1 if CHK refuses it, none if it was refused at
once. Nothing but the latched fields decides it. -/
def commandSteps (s : State) : Nat :=
  if s.status = .busy then
    match Variant.ofSelector s.varr with
    | none => 1
    | some v =>
      if lengthsMatch v s.dlenr s.klenr then
        if encrypting s then encryptionSteps s.nrr.toNat else decryptionSteps s.nrr.toNat
      else 1
  else 0

end Sys2Proof.Machine
end

