-- ==== Sys2Proof/Safety.lean ====
section
/-! DEFINITION. The terms the claims use: the data path cleared (10_state.md R51), the ROM as R212 lists it, the engine inside its
program (45_engine.md R213), the invariant of the machine, and what an observer of time sees (70_reset_and_hazards.md R306). -/

namespace Sys2Proof.Machine

/-- `L`, `R`, `W`, `SK`, `KEY`, `RC` and `C` are all zero (R51), at their physical widths. -/
def dataPathZero (s : State) : Bool :=
  decide (s.l = Vector.replicate 4 0) && decide (s.r = Vector.replicate 4 0) && decide (s.w = Vector.replicate 4 0)
    && decide (s.sk = Vector.replicate 4 0) && decide (s.key = Vector.replicate 32 0) && decide (s.rc = 0) && decide (s.c = 0)

/-- No bit of the four lanes from `w` up is set. -/
def lanesBelow (w : Nat) (x : Lanes 32) : Bool :=
  decide (x[0].toNat < 2 ^ w) && decide (x[1].toNat < 2 ^ w) && decide (x[2].toNat < 2 ^ w) && decide (x[3].toNat < 2 ^ w)

/-- Under the latched variant the bits above `LW` and `CW` and the key bytes from `KB` up are zero (R33, R35;
93_implementation_defined.md U15). -/
def unusedBitsZero (s : State) : Bool :=
  match Variant.ofSelector s.varr with
  | none => true
  | some v =>
    lanesBelow v.lw s.l && lanesBelow v.lw s.r && lanesBelow v.lw s.w && lanesBelow v.lw s.sk
      && decide (s.rc.toNat < 2 ^ v.cw) && (List.range 32).all fun i => decide (i < v.kb) || decide (byteAt s.key i = 0)

/-- The latched operation is DEC or DECS. -/
def decrypting (s : State) : Bool := decide (s.opr = 1) || decide (s.opr = 3)

/-- The micro-program counter stands in the program of the latched operation (R213). -/
def insideProgram (s : State) : Bool :=
  (encrypting s && decide (s.upc ≤ 0x1E#7)) || (decrypting s && decide (0x20#7 ≤ s.upc) && decide (s.upc ≤ 0x46#7))

/-- The engine stands at CHK, the first micro-operation of a program. -/
def atCheck (s : State) : Bool := decide (s.upc = 0x00) || decide (s.upc = 0x20)

/-- The engine stands at DONE, the last micro-operation of a program. -/
def atDone (s : State) : Bool := decide (s.upc = 0x1E) || decide (s.upc = 0x46)

/-- The engine stands inside a loop, after a BRZ that was not taken and up to the loop's DECJ (R212). -/
def insideLoop (s : State) : Bool :=
  (decide (0x05#7 ≤ s.upc) && decide (s.upc ≤ 0x1B#7)) || (decide (0x25#7 ≤ s.upc) && decide (s.upc ≤ 0x2A#7))
    || (decide (0x2D#7 ≤ s.upc) && decide (s.upc ≤ 0x43#7))

/-- The latched fields pass CHK (R214). -/
def argumentsPass (s : State) : Bool :=
  match Variant.ofSelector s.varr with
  | none => false
  | some v => decide (s.dlenr.toNat = v.bb) && decide (s.klenr.toNat = v.kb)

/-- What holds of the block while a command runs (R51, R109, R213, R214). -/
def runningWell (s : State) : Bool :=
  insideProgram s && (!(atCheck s || atDone s) || dataPathZero s) && (atCheck s || argumentsPass s)
    && (!insideLoop s || decide (s.c ≠ 0)) && decide (s.c.toNat ≤ 2 * s.nrr.toNat)

/-- The invariant of the machine: the buffers are canonical and in range; the ROM holds R212's listing (R75); the data path is
zero whenever the status is not BUSY (R51); `ERR` is an error exactly when the status is ERROR (R44); the unused bits are zero
(U15); and a running command stands inside its program, with checked arguments from CHK on, with `C` not zero inside a loop, and
with a cleared data path at CHK and at DONE (R213, R214, R218). -/
def Inv (s : State) : Bool :=
  bufferWf s.buf && decide (s.rom = []) && (decide (s.status = .busy) || dataPathZero s)
    && (decide (s.status = .error) == decide (s.err ≠ .none)) && unusedBitsZero s
    && (!decide (s.status = .busy) || runningWell s)

/-- Everything that decides which micro-operation runs next and when a command ends: the sequencer, the latches, the command and
status registers, the ROM and the host's coming actions; no key, no data, no buffer (R306). -/
def controlState (s : State) :
    BitVec 9 × BitVec 7 × BitVec 5 × BitVec 2 × BitVec 8 × BitVec 8 × BitVec 8 × BitVec 32 × Status × ErrorCode ×
      List (Nat × BitVec 16) × List HostAction :=
  (s.c, s.upc, s.opr, s.varr, s.nrr, s.dlenr, s.klenr, s.cmd, s.status, s.err, s.rom, s.pending)

/-- Two results of a step that an observer of control alone cannot tell apart. -/
def sameControl : Result → Result → Prop
  | .next a, .next b => controlState a = controlState b
  | .fault a, .fault b => a = b
  | .refused a, .refused b => a = b
  | _, _ => False

/-- Every buffer byte of `t` outside `lo ≤ offset < hi` reads as in `s`. -/
def buffersAgreeOutside (lo hi : Nat) (s t : State) : Prop :=
  ∀ offset : Nat, ¬(lo ≤ offset ∧ offset < hi) → readBuffer t.buf offset = readBuffer s.buf offset

/-- Every buffer byte of `t` reads as in `s`. -/
def buffersAgree (s t : State) : Prop := ∀ offset : Nat, readBuffer t.buf offset = readBuffer s.buf offset

/-- The bits of a physical lane register above the lane width are as before (10_state.md R35, log 8). -/
def highBitsKept (w : Nat) (before after : Lanes 32) : Prop := ∀ j : Fin 4, after[j] >>> w = before[j] >>> w

/-- The sum of `x[j] * 2^(w*j)` over the low `w` bits of four physical lanes, as a number (00_scope.md R22). -/
def laneSum (w : Nat) (x : Lanes 32) : Nat :=
  (low w x[0]).toNat + (low w x[1]).toNat * 2 ^ w + (low w x[2]).toNat * 2 ^ (2 * w) + (low w x[3]).toNat * 2 ^ (3 * w)

/-- A nibble as a number, its least significant bit first (42_beta.md R142). -/
def nibbleValue (b0 b1 b2 b3 : Bool) : Nat := b0.toNat + 2 * b1.toNat + 4 * b2.toNat + 8 * b3.toNat

/-- The S-box as a list of numbers, as 42_beta.md R140 prints it. -/
def printedSbox : List Nat := [1, 2, 12, 5, 7, 8, 10, 15, 4, 13, 11, 14, 9, 6, 0, 3]

/-- A host write, of any width, all of whose bytes lie in the window (20_memory.md R60, R71). -/
def writeInWindow : HostAction → Bool
  | .writeByte offset _ => decide (offset + 1 ≤ 0x80)
  | .writeHalf offset _ => decide (offset + 2 ≤ 0x80)
  | .writeWord offset _ => decide (offset + 4 ≤ 0x80)
  | .engineTurn | .readByte _ | .readHalf _ | .readWord _ | .reset => false

/-- A host access of a width or at an offset that 20_memory.md R65 does not list (R66). -/
def unsupportedAccess : HostAction → Bool
  | .readByte offset => decide (offset < 0x08) || decide (0x80 ≤ offset)
  | .writeByte offset _ => decide (offset < 0x08) || decide (0x80 ≤ offset)
  | .readWord offset => decide (offset ≠ 0x00) && decide (offset ≠ 0x04)
  | .writeWord offset _ => decide (offset ≠ 0x00) && decide (offset ≠ 0x04)
  | .readHalf _ | .writeHalf _ _ => true
  | .engineTurn | .reset => false

end Sys2Proof.Machine
end

