-- ==== Sys2Proof/Certificates/Slice0/Obligations.lean ====
section
/-! DEFINITION. The statements for the provers. Each docstring names the rules it formalises. A clause that says what the model's
own fields `pending` and `answer` do is the model's choice (log 5, log 7); so is the step that changes nothing when neither agent
has one (log 6). -/

open Sys2Proof Sys2Proof.Machine

/-! ### Encoding -/

/-- Words written out from the encoding tables decode to their instructions (30_encoding.md R80 to R83, R93, R94; 45_engine.md
R212). -/
def Obligations.WrittenOutWordsDecode : Prop :=
  decode (.command 0x10080200) = .ok (.enc 0 2 8 16) ∧ decode (.command 0x20200241) = .ok (.dec 2 2 32 32) ∧
  decode (.command 0x20080022) = .ok (.encs 1 0 8 32) ∧ decode (.command 0x10080003) = .ok (.decs 0 0 8 16) ∧
  decode (.command 0x10080180) = .error .reservedBit ∧ decode (.command 0x10080104) = .error .reservedOperation ∧
  decode (.micro 0x0A1C) = .ok (.brz 0x1C) ∧ decode (.micro 0x0B24) = .ok (.decj 0x24) ∧
  decode (.micro 0x1C00) = .ok .beta ∧ decode (.micro 0x1700) = .ok .skfold ∧ decode (.micro 0x0400) = .ok .stblk ∧
  decode (.micro 0x0000) = .error .undefinedMicroOperation ∧ decode (.micro 0x1C01) = .error .nonzeroArgument ∧
  decode (.micro 0x0A80) = .error .targetOutOfRange

/-- Decoding the word, and equally the bytes, of a well-formed instruction gives it back, with every operand at every value the
encoding admits (30_encoding.md R80 to R88). That the bytes of a format-U word lie least significant first is the model's choice: the
ROM has no byte order (log 21). -/
def Obligations.DecodeOfEncodeIsIdentity : Prop :=
  ∀ i : Instr, i.wellFormed = true → decode (encode i) = .ok i ∧ decodeBytes (codeBytes (encode i)) = .ok i

/-- Every word that decodes is the encoding of what it decodes to, and that instruction is well-formed (30_encoding.md R89: no
encoding executes as another instruction; R88). -/
def Obligations.EncodeOfDecodeIsIdentity : Prop :=
  ∀ (word : Code) (i : Instr), decode word = .ok i → encode i = word ∧ i.wellFormed = true

/-- A word decodes to an instruction of a row exactly when `word and mask = match` of that row, no two rows of one format match
the same word, and a word that matches no row is rejected (30_encoding.md R92). -/
def Obligations.RowsMatchByMask : Prop :=
  (∀ (word : Code) (i : Instr), word.fitsRow i = true ↔
    ∃ j, decode word = .ok j ∧ word.fitsRow j = true ∧ rowMatch j = rowMatch i ∧ rowMask j = rowMask i) ∧
  (∀ (word : Code) (i j : Instr), word.fitsRow i = true → word.fitsRow j = true → rowMatch i = rowMatch j) ∧
  (∀ word : Code, (∀ i : Instr, word.fitsRow i = false) → ∃ e, decode word = .error e)

/-! ### Reset -/

/-- After reset every piece of state is zero: data path, sequencer, latches, `CMD`, `STATUS` IDLE, `ERR` NONE and every buffer
byte; the ROM, which is not state of the block, holds the listing of R212 (10_state.md R52). -/
def Obligations.ResetStateIsZero : Prop :=
  State.reset.l = Vector.replicate 4 0 ∧ State.reset.r = Vector.replicate 4 0 ∧ State.reset.w = Vector.replicate 4 0 ∧
  State.reset.sk = Vector.replicate 4 0 ∧ State.reset.key = Vector.replicate 32 0 ∧ State.reset.rc = 0 ∧ State.reset.c = 0 ∧
  State.reset.upc = 0 ∧ State.reset.opr = 0 ∧ State.reset.varr = 0 ∧ State.reset.nrr = 0 ∧ State.reset.dlenr = 0 ∧
  State.reset.klenr = 0 ∧ State.reset.cmd = 0 ∧ State.reset.status = .idle ∧ State.reset.status ≠ .busy ∧ State.reset.err = .none ∧
  (∀ offset, readBuffer State.reset.buf offset = 0) ∧
  (∀ address : BitVec 7, readRom State.reset.rom address = microprogram address.toNat)

/-- Reset, which may come at any time, also while BUSY, puts every piece of the block at its reset value and leaves the ROM
(70_reset_and_hazards.md R290, R291). That the host side keeps its coming actions and its last answer is the model's (log 16). -/
def Obligations.ResetEventClearsTheBlock : Prop :=
  ∀ (s : State) (rest : List HostAction), s.pending = .reset :: rest →
    step s = .next { State.reset with rom := s.rom, pending := rest, answer := s.answer }

/-! ### A step of the machine -/

/-- Without BUSY the engine has no step: with no host access nothing changes (45_engine.md R210; that the machine then answers
the same state is the model's, log 6). -/
def Obligations.EngineWithoutBusyHasNoStep : Prop :=
  ∀ s : State, s.status ≠ .busy →
    (s.pending = [] → step s = .next s) ∧
    (∀ rest, s.pending = .engineTurn :: rest → step s = .next { s with pending := rest })

/-- While BUSY the engine's step is the meaning of the instruction that the ROM word at `UPC` decodes to, whether the host side
has nothing pending or leaves the step to the engine (45_engine.md R210). -/
def Obligations.StepRunsTheFetchedMicroOperation : Prop :=
  ∀ (s : State) (i : Instr), s.status = .busy → decodeMicro (readRom s.rom s.upc) = .ok i →
    (s.pending = [] → step s = exec i s) ∧
    (∀ rest, s.pending = .engineTurn :: rest → step s = exec i { s with pending := rest })

/-- A host write of a word to `CMD` runs the command the word decodes to (30_encoding.md R84). -/
def Obligations.StepRunsTheHostCommand : Prop :=
  ∀ (s : State) (word : BitVec 32) (rest : List HostAction) (i : Instr), s.pending = .writeWord 0x00 word :: rest →
    decodeCommand word = .ok i → step s = exec i { s with pending := rest }

/-- A fetched word that decodes as illegal is refused, whether the host side has nothing pending or leaves the step to the engine,
and so is a branch whose target lies above the ROM (30_encoding.md R87, R88; log 11). -/
def Obligations.IllegalMicroInstructionsRefused : Prop :=
  (∀ (s : State) (e : DecodeError), s.status = .busy → (s.pending = [] ∨ ∃ rest, s.pending = .engineTurn :: rest) →
    decodeMicro (readRom s.rom s.upc) = .error e → step s = .refused .illegalMicroOperation) ∧
  (∀ (s : State) (target : BitVec 8), 0x80 ≤ target.toNat →
    exec (.brz target) s = .refused .illegalMicroOperation ∧ exec (.decj target) s = .refused .illegalMicroOperation)

/-- Every host access that no rule covers is refused: half-words anywhere, bytes of `CMD`, of the status word or beyond the
window, words at any other offset (20_memory.md R66). A write in the window while BUSY is not among them: R71 covers it (log 10). -/
def Obligations.UnsupportedAccessRefused : Prop :=
  ∀ (s : State) (action : HostAction) (rest : List HostAction), s.pending = action :: rest → unsupportedAccess action = true →
    (s.status = .busy → writeInWindow action = false) → step s = .refused .unsupportedHostAccess

/-! ### The host's window -/

/-- What a host read returns, and that it changes nothing else: `CMD`; the status word with `STATUS` in bits 1..0 and `ERR` in
bits 9..8; 0 in the reserved range; a buffer byte (20_memory.md R60, R69, R72; 10_state.md R45). -/
def Obligations.HostReadsAnswerTheWindow : Prop :=
  ∀ (s : State) (rest : List HostAction),
    (s.pending = .readWord 0x00 :: rest → step s = .next { s with pending := rest, answer := s.cmd }) ∧
    (s.pending = .readWord 0x04 :: rest → ∃ x : BitVec 32, step s = .next { s with pending := rest, answer := x } ∧
      x.toNat = (match s.status with | .idle => 0 | .busy => 1 | .done => 2 | .error => 3) +
        256 * (match s.err with | .none => 0 | .invalidLength => 1 | .unsupportedVariant => 2)) ∧
    (∀ offset, 0x08 ≤ offset → offset < 0x20 → s.pending = .readByte offset :: rest →
      step s = .next { s with pending := rest, answer := 0 }) ∧
    (∀ offset, 0x20 ≤ offset → offset < 0x80 → s.pending = .readByte offset :: rest →
      step s = .next { s with pending := rest, answer := (readBuffer s.buf offset).setWidth 32 })

/-- A byte the host writes into `DIN` or `KIN` while not BUSY lands there and nowhere else; a write to the reserved range, to
`DOUT` or to the status word is ignored (20_memory.md R60). -/
def Obligations.HostWritesLandInTheInputBuffers : Prop :=
  ∀ (s : State) (rest : List HostAction), s.status ≠ .busy →
    (∀ offset value, 0x20 ≤ offset → offset < 0x60 → s.pending = .writeByte offset value :: rest →
      ∃ t, step s = .next t ∧ t = { s with pending := rest, buf := t.buf } ∧ readBuffer t.buf offset = value ∧
        ∀ a, a ≠ offset → readBuffer t.buf a = readBuffer s.buf a) ∧
    (∀ offset value, 0x08 ≤ offset → offset < 0x20 → s.pending = .writeByte offset value :: rest →
      step s = .next { s with pending := rest }) ∧
    (∀ offset value, 0x60 ≤ offset → offset < 0x80 → s.pending = .writeByte offset value :: rest →
      step s = .next { s with pending := rest }) ∧
    (∀ value, s.pending = .writeWord 0x04 value :: rest → step s = .next { s with pending := rest })

/-- While BUSY every host write anywhere in the window is ignored, whatever its width: it changes nothing and raises nothing; so
does each of the four host commands (20_memory.md R71; 70_reset_and_hazards.md R297). That a write of a width or at an offset R65
does not list is ignored then, and not refused as R66 says of an access with no rule, is the model's reading (log 10). -/
def Obligations.WritesWhileBusyIgnored : Prop :=
  ∀ s : State, s.status = .busy →
    (∀ (action : HostAction) (rest : List HostAction), s.pending = action :: rest → writeInWindow action = true →
      step s = .next { s with pending := rest }) ∧
    (∀ (var : BitVec 2) (rounds dlen klen : BitVec 8),
      exec (.enc var rounds dlen klen) s = .next s ∧ exec (.dec var rounds dlen klen) s = .next s ∧
      exec (.encs var rounds dlen klen) s = .next s ∧ exec (.decs var rounds dlen klen) s = .next s)

/-- No host access changes a data-path register, the loop counter, a byte of `DOUT` or the ROM (10_state.md R37, R48;
20_memory.md R60, R75). -/
def Obligations.HostCannotReachTheDataPath : Prop :=
  ∀ (s t : State) (action : HostAction) (rest : List HostAction), s.pending = action :: rest → action ≠ .engineTurn →
    action ≠ .reset → step s = .next t →
      t.l = s.l ∧ t.r = s.r ∧ t.w = s.w ∧ t.sk = s.sk ∧ t.key = s.key ∧ t.rc = s.rc ∧ t.c = s.c ∧ t.rom = s.rom ∧
      ∀ offset, 0x60 ≤ offset → readBuffer t.buf offset = readBuffer s.buf offset

/-! ### Host commands -/

/-- Acceptance of a command (30_encoding.md R84): a host write to `CMD` of a word with `OP` 0 to 3 and bit 7 zero, while not
BUSY, makes exactly R84's writes. -/
def Obligations.CommandWordAccepted : Prop :=
  ∀ (s : State) (word : BitVec 32) (rest : List HostAction), s.status ≠ .busy → s.pending = .writeWord 0x00 word :: rest →
    word.extractLsb' 0 5 ≤ 3#5 → word.getLsbD 7 = false →
      step s = .next
        { s with
          pending := rest
          cmd := word
          opr := word.extractLsb' 0 5
          varr := word.extractLsb' 5 2
          nrr :=
            if word.extractLsb' 0 5 ≤ 1#5 then word.extractLsb' 8 8
            else
              match Variant.ofSelector (word.extractLsb' 5 2) with
              | some v => Config.cfg.nrStd v
              | none => 0
          dlenr := word.extractLsb' 16 8
          klenr := word.extractLsb' 24 8
          err := .none
          status := .busy
          upc := if word.extractLsb' 0 1 = 0#1 then 0x00 else 0x20 }

/-- Each of the four command instructions, while not BUSY, is accepted: the latches, `CMD`, `ERR`, `STATUS` and `UPC` are
written and nothing else (30_encoding.md R84; 10_state.md R40). -/
def Obligations.CommandInstructionsAccepted : Prop :=
  ∀ (s : State) (var : BitVec 2) (rounds dlen klen : BitVec 8) (std : BitVec 8), s.status ≠ .busy →
    (∀ v, Variant.ofSelector var = some v → std = Config.cfg.nrStd v) → (var = 3 → std = 0) →
      (∀ word, encode (.enc var rounds dlen klen) = .command word →
        exec (.enc var rounds dlen klen) s =
          .next { s with cmd := word, opr := 0, varr := var, nrr := rounds, dlenr := dlen, klenr := klen, err := .none,
                         status := .busy, upc := 0x00 }) ∧
      (∀ word, encode (.dec var rounds dlen klen) = .command word →
        exec (.dec var rounds dlen klen) s =
          .next { s with cmd := word, opr := 1, varr := var, nrr := rounds, dlenr := dlen, klenr := klen, err := .none,
                         status := .busy, upc := 0x20 }) ∧
      (∀ word, encode (.encs var rounds dlen klen) = .command word →
        exec (.encs var rounds dlen klen) s =
          .next { s with cmd := word, opr := 2, varr := var, nrr := std, dlenr := dlen, klenr := klen, err := .none,
                         status := .busy, upc := 0x00 }) ∧
      (∀ word, encode (.decs var rounds dlen klen) = .command word →
        exec (.decs var rounds dlen klen) s =
          .next { s with cmd := word, opr := 3, varr := var, nrr := std, dlenr := dlen, klenr := klen, err := .none,
                         status := .busy, upc := 0x20 })

/-- Refusal at once (30_encoding.md R85): a host write to `CMD` of a word with a reserved `OP` or with bit 7 set, while not
BUSY, stores the word and raises UNSUPPORTED_VARIANT; nothing else changes. -/
def Obligations.ReservedCommandRefusedAtOnce : Prop :=
  ∀ (s : State) (word : BitVec 32) (rest : List HostAction), s.status ≠ .busy → s.pending = .writeWord 0x00 word :: rest →
    (4#5 ≤ word.extractLsb' 0 5 ∨ word.getLsbD 7 = true) →
      step s = .next { s with pending := rest, cmd := word, status := .error, err := .unsupportedVariant }

/-! ### Control micro-operations -/

/-- CHK (45_engine.md R214): `VARr = 3` raises UnsupportedVariant, whatever the lengths; else a length that is not the
variant's raises InvalidLength; else the engine goes on. Nothing else changes in any case. -/
def Obligations.ChkPassesOrRaises : Prop :=
  decode (.micro 0x0100) = .ok .chk ∧
  (∀ s : State,
    (s.varr = 3 → exec .chk s = .next { s with status := .error, err := .unsupportedVariant }) ∧
    (∀ bb kb : Nat, (s.varr = 0 ∧ bb = 8 ∧ kb = 16) ∨ (s.varr = 1 ∧ bb = 8 ∧ kb = 32) ∨ (s.varr = 2 ∧ bb = 32 ∧ kb = 32) →
      ((s.dlenr.toNat ≠ bb ∨ s.klenr.toNat ≠ kb) → exec .chk s = .next { s with status := .error, err := .invalidLength }) ∧
      (s.dlenr.toNat = bb ∧ s.klenr.toNat = kb → exec .chk s = .next { s with upc := s.upc + 1 })))

/-- SETC loads `C` with the round count, SETC2 with twice the round count, which fits (45_engine.md R215, R216). -/
def Obligations.SetcAndSetc2LoadTheCounter : Prop :=
  decode (.micro 0x0800) = .ok .setc ∧ decode (.micro 0x0900) = .ok .setc2 ∧
  (∀ s : State,
    (∃ t, exec .setc s = .next t ∧ t = { s with c := t.c, upc := s.upc + 1 } ∧ t.c.toNat = s.nrr.toNat ∧ buffersAgree s t) ∧
    (∃ t, exec .setc2 s = .next t ∧ t = { s with c := t.c, upc := s.upc + 1 } ∧ t.c.toNat = 2 * s.nrr.toNat ∧
      buffersAgree s t))

/-- BRZ goes to its target if `C = 0` and on otherwise; DECJ decrements `C` modulo 512 and goes to its target; for every target
of the ROM (45_engine.md R217, R218). -/
def Obligations.BrzAndDecjSetTheCounterAndTheProgram : Prop :=
  ∀ (s : State) (target : BitVec 8), target.toNat ≤ 0x7F →
    decode (.micro (0x0A#8 ++ target)) = .ok (.brz target) ∧ decode (.micro (0x0B#8 ++ target)) = .ok (.decj target) ∧
    (∃ t, exec (.brz target) s = .next t ∧ t = { s with upc := t.upc } ∧ buffersAgree s t ∧
      (s.c = 0 → t.upc.toNat = target.toNat) ∧ (s.c ≠ 0 → t.upc = s.upc + 1)) ∧
    (∃ t, exec (.decj target) s = .next t ∧ t = { s with c := t.c, upc := t.upc } ∧ buffersAgree s t ∧
      t.upc.toNat = target.toNat ∧ t.c.toNat = (s.c.toNat + 511) % 512)

/-- DONE sets `STATUS` to DONE and keeps everything else, `UPC` with it; then the engine has no further step (45_engine.md
R219). -/
def Obligations.DoneEndsTheCommand : Prop :=
  decode (.micro 0x0600) = .ok .done ∧
  (∀ s : State, exec .done s = .next { s with status := .done } ∧
    ∀ t, exec .done s = .next t → t.pending = [] → step t = .next t)

/-! ### Buffer micro-operations -/

/-- LDKEY copies `KIN[0..KB-1]` into `KEY[0..KB-1]` and zeroes the accumulator; key bytes and accumulator bits beyond the
variant's size are not written (44_datapath.md R190). -/
def Obligations.LdkeyLoadsTheKey : Prop :=
  decode (.micro 0x0200) = .ok .ldkey ∧
  (∀ (s : State) (v : Variant), Variant.ofSelector s.varr = some v →
    ∃ t, exec .ldkey s = .next t ∧ t = { s with key := t.key, rc := t.rc, upc := s.upc + 1 } ∧
      (∀ i, i < v.kb → byteAt t.key i = readBuffer s.buf (0x40 + i)) ∧
      (∀ i, v.kb ≤ i → byteAt t.key i = byteAt s.key i) ∧
      low v.cw t.rc = 0 ∧ t.rc >>> v.cw = s.rc >>> v.cw ∧ buffersAgree s t)

/-- LDBLK fills the halves from `DIN[0..BB-1]`: byte `k` of lane `j` of `L` is `DIN[j*LB+k]`, of `R` is `DIN[HB+j*LB+k]`
(44_datapath.md R191; 20_memory.md R63). -/
def Obligations.LdblkLoadsTheBlock : Prop :=
  decode (.micro 0x0300) = .ok .ldblk ∧
  (∀ (s : State) (v : Variant), Variant.ofSelector s.varr = some v →
    ∃ t, exec .ldblk s = .next t ∧ t = { s with l := t.l, r := t.r, upc := s.upc + 1 } ∧
      (∀ (j : Fin 4) (k : Nat), k < v.lb →
        byteOf t.l[j] k = readBuffer s.buf (0x20 + j.val * v.lb + k) ∧
        byteOf t.r[j] k = readBuffer s.buf (0x20 + v.hb + j.val * v.lb + k)) ∧
      highBitsKept v.lw s.l t.l ∧ highBitsKept v.lw s.r t.r ∧ buffersAgree s t)

/-- STBLK stores the halves to `DOUT[0..BB-1]` in one step; every byte outside `DOUT[0..BB-1]` keeps its value (44_datapath.md
R192; 20_memory.md R67). -/
def Obligations.StblkStoresTheBlock : Prop :=
  decode (.micro 0x0400) = .ok .stblk ∧
  (∀ (s : State) (v : Variant), Variant.ofSelector s.varr = some v →
    ∃ t, exec .stblk s = .next t ∧ t = { s with buf := t.buf, upc := s.upc + 1 } ∧
      (∀ (j : Fin 4) (k : Nat), k < v.lb →
        readBuffer t.buf (doutBase + j.val * v.lb + k) = byteOf s.l[j] k ∧
        readBuffer t.buf (doutBase + v.hb + j.val * v.lb + k) = byteOf s.r[j] k) ∧
      buffersAgreeOutside doutBase (doutBase + v.bb) s t)

/-- CLR zeroes the whole data path, from any state and under any variant; buffers, `CMD`, latches, `STATUS` and `ERR` are not
touched (44_datapath.md R193). -/
def Obligations.ClrClearsTheDataPath : Prop :=
  decode (.micro 0x0500) = .ok .clr ∧
  (∀ s : State, ∃ t, exec .clr s = .next t ∧ dataPathZero t = true ∧ buffersAgree s t ∧
    t = { s with l := t.l, r := t.r, w := t.w, sk := t.sk, key := t.key, rc := t.rc, c := t.c, upc := s.upc + 1 })

/-! ### Key-schedule micro-operations -/

/-- ROTF moves key byte `(i + s) mod KB` to `i`, ROTB moves key byte `i` to `(i + s) mod KB`, with `s` the variant's step; the
bytes from `KB` up take no part (41_key_rotation.md R120 to R123). -/
def Obligations.RotfAndRotbMoveTheKeyBytes : Prop :=
  decode (.micro 0x1000) = .ok .rotf ∧ decode (.micro 0x1100) = .ok .rotb ∧
  (∀ (s : State) (v : Variant), Variant.ofSelector s.varr = some v →
    (∃ t, exec .rotf s = .next t ∧ t = { s with key := t.key, upc := s.upc + 1 } ∧
      (∀ i, i < v.kb → byteAt t.key i = byteAt s.key ((i + (Config.cfg.rotStep v).val) % v.kb)) ∧
      (∀ i, v.kb ≤ i → byteAt t.key i = byteAt s.key i) ∧ buffersAgree s t) ∧
    (∃ t, exec .rotb s = .next t ∧ t = { s with key := t.key, upc := s.upc + 1 } ∧
      (∀ i, i < v.kb → byteAt t.key ((i + (Config.cfg.rotStep v).val) % v.kb) = byteAt s.key i) ∧
      (∀ i, v.kb ≤ i → byteAt t.key i = byteAt s.key i) ∧ buffersAgree s t))

/-- RCADV adds the delta to the accumulator and RCRET subtracts it, modulo `2^CW` (40_round_constant.md R104, R105). -/
def Obligations.RcadvAndRcretMoveTheAccumulator : Prop :=
  decode (.micro 0x1200) = .ok .rcadv ∧ decode (.micro 0x1300) = .ok .rcret ∧
  (∀ (s : State) (v : Variant), Variant.ofSelector s.varr = some v →
    (∃ t, exec .rcadv s = .next t ∧ t = { s with rc := t.rc, upc := s.upc + 1 } ∧
      (low v.cw t.rc).toNat = ((low v.cw s.rc).toNat + (Config.cfg.delta v).toNat) % 2 ^ v.cw ∧
      t.rc >>> v.cw = s.rc >>> v.cw ∧ buffersAgree s t) ∧
    (∃ t, exec .rcret s = .next t ∧ t = { s with rc := t.rc, upc := s.upc + 1 } ∧
      (low v.cw t.rc).toNat = ((low v.cw s.rc).toNat + (2 ^ v.cw - (Config.cfg.delta v).toNat)) % 2 ^ v.cw ∧
      t.rc >>> v.cw = s.rc >>> v.cw ∧ buffersAgree s t))

/-- SKADD adds the accumulator to the subkey as ONE integer of `CW` bits, lane 0 least significant, and SKSUB subtracts it,
modulo `2^CW` (40_round_constant.md R106, R107). -/
def Obligations.SkaddAndSksubAreOneWideAddition : Prop :=
  decode (.micro 0x1500) = .ok .skadd ∧ decode (.micro 0x1600) = .ok .sksub ∧
  (∀ (s : State) (v : Variant), Variant.ofSelector s.varr = some v →
    (∃ t, exec .skadd s = .next t ∧ t = { s with sk := t.sk, upc := s.upc + 1 } ∧
      laneSum v.lw t.sk = (laneSum v.lw s.sk + (low v.cw s.rc).toNat) % 2 ^ v.cw ∧
      highBitsKept v.lw s.sk t.sk ∧ buffersAgree s t) ∧
    (∃ t, exec .sksub s = .next t ∧ t = { s with sk := t.sk, upc := s.upc + 1 } ∧
      laneSum v.lw t.sk = (laneSum v.lw s.sk + (2 ^ v.cw - (low v.cw s.rc).toNat)) % 2 ^ v.cw ∧
      highBitsKept v.lw s.sk t.sk ∧ buffersAgree s t))

/-- SKTAKE takes the first `HB` key bytes as the four subkey lanes, and SKFOLD writes the lanes back over the same bytes and no
other (44_datapath.md R182, R183). -/
def Obligations.SktakeAndSkfoldCopyTheFirstKeyBytes : Prop :=
  decode (.micro 0x1400) = .ok .sktake ∧ decode (.micro 0x1700) = .ok .skfold ∧
  (∀ (s : State) (v : Variant), Variant.ofSelector s.varr = some v →
    (∃ t, exec .sktake s = .next t ∧ t = { s with sk := t.sk, upc := s.upc + 1 } ∧
      (∀ (j : Fin 4) (k : Nat), k < v.lb → byteOf t.sk[j] k = byteAt s.key (j.val * v.lb + k)) ∧
      highBitsKept v.lw s.sk t.sk ∧ buffersAgree s t) ∧
    (∃ t, exec .skfold s = .next t ∧ t = { s with key := t.key, upc := s.upc + 1 } ∧
      (∀ (j : Fin 4) (k : Nat), k < v.lb → byteAt t.key (j.val * v.lb + k) = byteOf s.sk[j] k) ∧
      (∀ i, v.hb ≤ i → byteAt t.key i = byteAt s.key i) ∧ buffersAgree s t))

/-! ### Round-function micro-operations -/

/-- WLDL copies the left half into the work buffer, WLDR the right half (44_datapath.md R184, R185). -/
def Obligations.WldlAndWldrCopyAHalf : Prop :=
  decode (.micro 0x1800) = .ok .wldl ∧ decode (.micro 0x1900) = .ok .wldr ∧
  (∀ (s : State) (v : Variant), Variant.ofSelector s.varr = some v →
    (∃ t, exec .wldl s = .next t ∧ t = { s with w := t.w, upc := s.upc + 1 } ∧
      (∀ j : Fin 4, low v.lw t.w[j] = low v.lw s.l[j]) ∧ highBitsKept v.lw s.w t.w ∧ buffersAgree s t) ∧
    (∃ t, exec .wldr s = .next t ∧ t = { s with w := t.w, upc := s.upc + 1 } ∧
      (∀ j : Fin 4, low v.lw t.w[j] = low v.lw s.r[j]) ∧ highBitsKept v.lw s.w t.w ∧ buffersAgree s t))

/-- XORSK xors the subkey into the work buffer, XFR and XFL the work buffer into the right and the left half, bit by bit
(44_datapath.md R186 to R188). -/
def Obligations.XorskXfrXflXorLaneByLane : Prop :=
  decode (.micro 0x1B00) = .ok .xorsk ∧ decode (.micro 0x1E00) = .ok .xfr ∧ decode (.micro 0x1F00) = .ok .xfl ∧
  (∀ (s : State) (v : Variant), Variant.ofSelector s.varr = some v →
    (∃ t, exec .xorsk s = .next t ∧ t = { s with w := t.w, upc := s.upc + 1 } ∧
      (∀ (j : Fin 4) (p : Nat), p < v.lw → t.w[j].getLsbD p = (s.w[j].getLsbD p ^^ s.sk[j].getLsbD p)) ∧
      highBitsKept v.lw s.w t.w ∧ buffersAgree s t) ∧
    (∃ t, exec .xfr s = .next t ∧ t = { s with r := t.r, upc := s.upc + 1 } ∧
      (∀ (j : Fin 4) (p : Nat), p < v.lw → t.r[j].getLsbD p = (s.r[j].getLsbD p ^^ s.w[j].getLsbD p)) ∧
      highBitsKept v.lw s.r t.r ∧ buffersAgree s t) ∧
    (∃ t, exec .xfl s = .next t ∧ t = { s with l := t.l, upc := s.upc + 1 } ∧
      (∀ (j : Fin 4) (p : Nat), p < v.lw → t.l[j].getLsbD p = (s.l[j].getLsbD p ^^ s.w[j].getLsbD p)) ∧
      highBitsKept v.lw s.l t.l ∧ buffersAgree s t))

/-- SHIFT rotates each lane of the work buffer left by its own amount: bit `p` of lane `j` goes to bit `(p + s_j) mod LW`
(43_linear_layers.md R160, R162). -/
def Obligations.ShiftRotatesEachLane : Prop :=
  decode (.micro 0x1A00) = .ok .shift ∧
  (∀ (s : State) (v : Variant), Variant.ofSelector s.varr = some v →
    ∃ t, exec .shift s = .next t ∧ t = { s with w := t.w, upc := s.upc + 1 } ∧
      (∀ (j : Fin 4) (p : Nat), p < v.lw →
        t.w[j].getLsbD ((p + (Config.cfg.shift v j).val) % v.lw) = s.w[j].getLsbD p) ∧
      highBitsKept v.lw s.w t.w ∧ buffersAgree s t)

/-- BETA maps the nibble at every bit position of the four lanes through the printed S-box, lane 0 carrying the low bit of the
nibble when `NIB_LSB_LANE0` and the high bit when not (42_beta.md R140, R142, R145). -/
def Obligations.BetaSubstitutesEveryNibble : Prop :=
  decode (.micro 0x1C00) = .ok .beta ∧
  (∀ (s : State) (v : Variant), Variant.ofSelector s.varr = some v →
    ∃ t, exec .beta s = .next t ∧ t = { s with w := t.w, upc := s.upc + 1 } ∧
      (∀ p, p < v.lw →
        if Config.cfg.nibLsbLane0 then
          nibbleValue (t.w[0].getLsbD p) (t.w[1].getLsbD p) (t.w[2].getLsbD p) (t.w[3].getLsbD p) =
            printedSbox.getD
              (nibbleValue (s.w[0].getLsbD p) (s.w[1].getLsbD p) (s.w[2].getLsbD p) (s.w[3].getLsbD p)) 0
        else
          nibbleValue (t.w[3].getLsbD p) (t.w[2].getLsbD p) (t.w[1].getLsbD p) (t.w[0].getLsbD p) =
            printedSbox.getD
              (nibbleValue (s.w[3].getLsbD p) (s.w[2].getLsbD p) (s.w[1].getLsbD p) (s.w[0].getLsbD p)) 0) ∧
      highBitsKept v.lw s.w t.w ∧ buffersAgree s t)

/-- SWITCH makes each lane of the work buffer the xor of a constant lane and of the lanes its matrix row selects
(43_linear_layers.md R163, R166). -/
def Obligations.SwitchMixesTheLanes : Prop :=
  decode (.micro 0x1D00) = .ok .switch ∧
  (∀ (s : State) (v : Variant), Variant.ofSelector s.varr = some v →
    ∃ t, exec .switch s = .next t ∧ t = { s with w := t.w, upc := s.upc + 1 } ∧
      (∀ (j : Fin 4) (p : Nat), p < v.lw →
        t.w[j].getLsbD p =
          (((((Config.cfg.switchC v)[j].getLsbD p ^^
            (decide ((Config.cfg.switchM v).val j 0 = 1) && s.w[0].getLsbD p)) ^^
            (decide ((Config.cfg.switchM v).val j 1 = 1) && s.w[1].getLsbD p)) ^^
            (decide ((Config.cfg.switchM v).val j 2 = 1) && s.w[2].getLsbD p)) ^^
            (decide ((Config.cfg.switchM v).val j 3 = 1) && s.w[3].getLsbD p))) ∧
      highBitsKept v.lw s.w t.w ∧ buffersAgree s t)

/-- With `VARr = 3` no variant is selected and no lane, key or accumulator width exists (00_scope.md R9): each micro-operation that
computes at such a width stops with the fault of that name. That it stops is the model's choice (log 9); CHK refuses the command
before any of them (45_engine.md R214). -/
def Obligations.WidthDependentMicroOperationsNeedAVariant : Prop :=
  ∀ s : State, s.varr = 3 →
    ∀ i ∈ [Instr.ldkey, .ldblk, .stblk, .rotf, .rotb, .rcadv, .rcret, .sktake, .skadd, .sksub, .skfold, .wldl, .wldr, .shift,
      .xorsk, .beta, .switch, .xfr, .xfl], exec i s = .fault .noVariantSelected

/-! ### Laws of the components, for every configuration -/

/-- Each rotation undoes the other, `n` forward rotations are one rotation by `n * s` modulo `KB`, which moves bytes and changes
none, and `KB / gcd(s, KB)` forward rotations are the identity (41_key_rotation.md R124). -/
def Obligations.RotationsUndoEachOther : Prop :=
  ∀ (c : Cfg) (v : Variant) (k : Vector Byte v.kb),
    rotB c v (rotF c v k) = k ∧ rotF c v (rotB c v k) = k ∧
    (∀ n i, i < v.kb → byteAt (applyTimes (rotF c v) n k) i = byteAt k ((i + n * (c.rotStep v).val) % v.kb)) ∧
    applyTimes (rotF c v) (v.kb / Nat.gcd (c.rotStep v).val v.kb) k = k

/-- Advance and retreat undo each other; `i` advances from 0 give `(i * DELTA) mod 2^CW`, and `i` retreats lead back to 0;
subtracting the accumulator from the subkey undoes adding it; and after `i` key steps from the load the accumulator is
`(i * DELTA) mod 2^CW` in encryption, in the fast-forward and on the way back (40_round_constant.md R108). -/
def Obligations.AccumulatorHasItsClosedForm : Prop :=
  ∀ (c : Cfg) (v : Variant),
    (∀ x, ret c v (adv c v x) = x ∧ adv c v (ret c v x) = x) ∧
    (∀ i, (applyTimes (adv c v) i 0).toNat = (i * (c.delta v).toNat) % 2 ^ v.cw) ∧
    (∀ i, applyTimes (ret c v) i (applyTimes (adv c v) i 0) = 0) ∧
    (∀ (s : Lanes v.lw) (rc : BitVec v.cw), subConstant (addConstant s rc) rc = s) ∧
    ∀ (p : Vector Byte v.bb) (kin : Vector Byte v.kb) (n j : Nat),
      (fastForward c v n (loaded v p kin)).rc.toNat = (n * (c.delta v).toNat) % 2 ^ v.cw ∧
      (applyTimes (fullRound c v) n (loaded v p kin)).rc.toNat = (2 * n * (c.delta v).toNat) % 2 ^ v.cw ∧
      (halfL c v (applyTimes (fullRound c v) n (loaded v p kin))).rc.toNat = ((2 * n + 1) * (c.delta v).toNat) % 2 ^ v.cw ∧
      (applyTimes (unRound c v) j (fastForward c v (2 * (n + j)) (loaded v p kin))).rc.toNat =
        (2 * n * (c.delta v).toNat) % 2 ^ v.cw ∧
      (unHalfR c v (applyTimes (unRound c v) j (fastForward c v (2 * (n + 1 + j)) (loaded v p kin)))).rc.toNat =
        ((2 * n + 1) * (c.delta v).toNat) % 2 ^ v.cw

/-- The two-limb adder with its carry and the two-limb subtracter with its borrow are the 128-bit sum and difference
(40_round_constant.md R103). -/
def Obligations.LimbAdderIsTheWideAdder : Prop :=
  ∀ x y : BitVec 128, (add128 x y).toNat = (x.toNat + y.toNat) % 2 ^ 128 ∧
    (sub128 x y).toNat = (x.toNat + (2 ^ 128 - y.toNat)) % 2 ^ 128

/-- The Boolean equations are the table, for both nibble orders and at every lane width (42_beta.md R143, R144, R147). -/
def Obligations.BetaEquationsAreTheTable : Prop :=
  ∀ (w : Nat) (x : Lanes w), betaEquationsLsb x = beta true x ∧ betaEquationsMsb x = beta false x

/-- The S-box is a permutation of 0..15 with the printed inverse and no fixed point, and Beta is a bijection on lane vectors
(42_beta.md R141, R146). -/
def Obligations.BetaIsABijection : Prop :=
  (∀ x : BitVec 4, sboxInv (sbox x) = x ∧ sbox (sboxInv x) = x ∧ sbox x ≠ x) ∧
  (∀ (w : Nat) (lsbLane0 : Bool), Function.Bijective (beta lsbLane0 : Lanes w → Lanes w))

/-- ShiftLanes is linear over xor and a bijection; SwitchLanes is affine over xor and a bijection (43_linear_layers.md R161,
R165). -/
def Obligations.LinearLayersAreBijections : Prop :=
  ∀ (c : Cfg) (v : Variant),
    (∀ x y, shiftLanes c v (xorLanes x y) = xorLanes (shiftLanes c v x) (shiftLanes c v y)) ∧
    Function.Bijective (shiftLanes c v) ∧
    (∀ x y, switchLanes c v (xorLanes x y) =
      xorLanes (xorLanes (switchLanes c v x) (switchLanes c v y)) (c.switchC v)) ∧
    Function.Bijective (switchLanes c v)

/-- The laws of Take and Fold, of `INT` and of xor (44_datapath.md R189). -/
def Obligations.TakeAndFoldLaws : Prop :=
  ∀ (v : Variant) (k : Vector Byte v.kb) (s t : Lanes v.lw),
    take v (fold v k s) = s ∧ fold v k (take v k) = k ∧ fold v (fold v k s) t = fold v k t ∧
    (intOf (take v k)).toNat = leNat (byteAt k) v.hb ∧ xorLanes (xorLanes s t) t = s

/-- LDBLK and later STBLK, with nothing between that writes `L`, `R` or the latched variant, copy `DIN[0..BB-1]` to
`DOUT[0..BB-1]` byte for byte (44_datapath.md R194). -/
def Obligations.LoadThenStoreCopiesTheBlock : Prop :=
  ∀ (s : State) (v : Variant), Variant.ofSelector s.varr = some v →
    ∃ t, exec .ldblk s = .next t ∧
      ∀ t' : State, t'.l = t.l → t'.r = t.r → t'.varr = t.varr →
        ∃ u, exec .stblk t' = .next u ∧ ∀ i, i < v.bb → readBuffer u.buf (0x60 + i) = readBuffer s.buf (0x20 + i)

/-- `KeyUnstep` undoes `KeyStep` and returns the same subkey (45_engine.md R236). -/
def Obligations.KeyUnstepUndoesKeyStep : Prop :=
  ∀ (c : Cfg) (v : Variant) (k k' : Vector Byte v.kb) (rc rc' : BitVec v.cw) (s : Lanes v.lw),
    keyStep c v k rc = (k', rc', s) → keyUnstep c v k' rc' = (k, rc, s)

/-- Each reverse half-round undoes its half-round, for every state (45_engine.md R237). -/
def Obligations.ReverseHalfRoundsUndoHalfRounds : Prop :=
  ∀ (c : Cfg) (v : Variant) (st : Feistel v), unHalfL c v (halfL c v st) = st ∧ unHalfR c v (halfR c v st) = st

/-- The round trip, the primary correctness invariant: for every configuration, variant, block, key and round count, `Dec` after
`Enc` and `Enc` after `Dec` give the block back (45_engine.md R238). -/
def Obligations.DecryptionAndEncryptionUndoEachOther : Prop :=
  ∀ (c : Cfg) (v : Variant) (p : Vector Byte v.bb) (kin : Vector Byte v.kb) (n : Nat),
    decryptBlock c v (encryptBlock c v p kin n) kin n = p ∧ encryptBlock c v (decryptBlock c v p kin n) kin n = p

/-- At the end of `Dec` the key is the initial key and the accumulator is 0; and the fast-forward of decryption reaches the key
and accumulator that encryption ends on (45_engine.md R226, R239). -/
def Obligations.KeyAndAccumulatorComeHome : Prop :=
  ∀ (c : Cfg) (v : Variant) (p q : Vector Byte v.bb) (kin : Vector Byte v.kb) (n : Nat),
    (applyTimes (unRound c v) n (fastForward c v (2 * n) (loaded v p kin))).key = kin ∧
    (applyTimes (unRound c v) n (fastForward c v (2 * n) (loaded v p kin))).rc = 0 ∧
    (fastForward c v (2 * n) (loaded v q kin)).key = (applyTimes (fullRound c v) n (loaded v p kin)).key ∧
    (fastForward c v (2 * n) (loaded v q kin)).rc = (applyTimes (fullRound c v) n (loaded v p kin)).rc

/-- The cipher over a table of the `2n` subkeys is the cipher with the on-the-fly schedule (45_engine.md R241). -/
def Obligations.RoundKeyTableGivesTheSameCipher : Prop :=
  ∀ (c : Cfg) (v : Variant) (b : Vector Byte v.bb) (kin : Vector Byte v.kb) (n i : Nat), i < v.bb →
    (∀ l r, tableRounds c v (roundKey c v kin) n (leftHalf v (byteAt b), rightHalf v (byteAt b)) = (l, r) →
      byteAt (encryptBlock c v b kin n) i = blockByte v l r i) ∧
    (∀ l r, tableUnrounds c v (roundKey c v kin) n (leftHalf v (byteAt b), rightHalf v (byteAt b)) = (l, r) →
      byteAt (decryptBlock c v b kin n) i = blockByte v l r i)

/-! ### Whole commands -/

/-- From acceptance of ENC or ENCS with arguments that pass CHK, the engine is BUSY for `8 + 24 n` steps and then DONE, with
`Enc` of the input buffers in `DOUT[0..BB-1]`, every other buffer byte as before, no error and a cleared data path
(45_engine.md R230, R232, R234, R240). -/
def Obligations.EncryptionCommandComputesEnc : Prop :=
  ∀ (s : State) (v : Variant) (var : BitVec 2) (rounds dlen klen : BitVec 8) (i : Instr) (n : Nat),
    s.status ≠ .busy → s.rom = [] → s.pending = [] → Variant.ofSelector var = some v → dlen.toNat = v.bb → klen.toNat = v.kb →
    (i = .enc var rounds dlen klen ∧ n = rounds.toNat) ∨ (i = .encs var rounds dlen klen ∧ n = (Config.cfg.nrStd v).toNat) →
      ∃ t u : State, exec i s = .next t ∧ Host.Core.run Sys2Proof.core (8 + 24 * n) t = .next u ∧
        u.status = .done ∧ u.err = .none ∧ dataPathZero u = true ∧
        doutBlock v u = encryptBlock Config.cfg v (dinBlock v s) (kinKey v s) n ∧
        buffersAgreeOutside doutBase (doutBase + v.bb) s u ∧
        ∀ k, k < 8 + 24 * n → ∃ m : State, Host.Core.run Sys2Proof.core k t = .next m ∧ m.status = .busy

/-- From acceptance of DEC or DECS with arguments that pass CHK, the engine is BUSY for `10 + 38 n` steps and then DONE, with
`Dec` of the input buffers in `DOUT[0..BB-1]`, every other buffer byte as before, no error and a cleared data path
(45_engine.md R231, R233, R235, R240). -/
def Obligations.DecryptionCommandComputesDec : Prop :=
  ∀ (s : State) (v : Variant) (var : BitVec 2) (rounds dlen klen : BitVec 8) (i : Instr) (n : Nat),
    s.status ≠ .busy → s.rom = [] → s.pending = [] → Variant.ofSelector var = some v → dlen.toNat = v.bb → klen.toNat = v.kb →
    (i = .dec var rounds dlen klen ∧ n = rounds.toNat) ∨ (i = .decs var rounds dlen klen ∧ n = (Config.cfg.nrStd v).toNat) →
      ∃ t u : State, exec i s = .next t ∧ Host.Core.run Sys2Proof.core (10 + 38 * n) t = .next u ∧
        u.status = .done ∧ u.err = .none ∧ dataPathZero u = true ∧
        doutBlock v u = decryptBlock Config.cfg v (dinBlock v s) (kinKey v s) n ∧
        buffersAgreeOutside doutBase (doutBase + v.bb) s u ∧
        ∀ k, k < 10 + 38 * n → ∃ m : State, Host.Core.run Sys2Proof.core k t = .next m ∧ m.status = .busy

/-- A command with a bad variant or a bad length is refused by its first engine step, the variant judged before the lengths; that step
writes `STATUS` and `ERR` and nothing else, and acceptance before it wrote no data-path register and no buffer (60_exceptions.md
R263, R264, R266; 45_engine.md R214). It is the one step that such a command takes, and the end of the whole command (R240;
20_memory.md R77). -/
def Obligations.BadArgumentsRefusedByTheFirstStep : Prop :=
  ∀ (s t : State) (var : BitVec 2) (rounds dlen klen : BitVec 8) (i : Instr),
    s.status ≠ .busy → s.rom = [] → s.pending = [] →
    i ∈ [Instr.enc var rounds dlen klen, .dec var rounds dlen klen, .encs var rounds dlen klen, .decs var rounds dlen klen] →
    exec i s = .next t →
      (var = 3 → step t = .next { t with status := .error, err := .unsupportedVariant } ∧
        step t = .next (wholeCommand Config.cfg t) ∧ commandSteps t = 1) ∧
      (∀ v, Variant.ofSelector var = some v → dlen.toNat ≠ v.bb ∨ klen.toNat ≠ v.kb →
        step t = .next { t with status := .error, err := .invalidLength } ∧
          step t = .next (wholeCommand Config.cfg t) ∧ commandSteps t = 1) ∧
      t.l = s.l ∧ t.r = s.r ∧ t.w = s.w ∧ t.sk = s.sk ∧ t.key = s.key ∧ t.rc = s.rc ∧ t.c = s.c ∧ buffersAgree s t

/-- With zero rounds both directions are the identity on the block (45_engine.md R244). -/
def Obligations.ZeroRoundsCopyTheBlock : Prop :=
  ∀ (c : Cfg) (v : Variant) (p : Vector Byte v.bb) (kin : Vector Byte v.kb),
    encryptBlock c v p kin 0 = p ∧ decryptBlock c v p kin 0 = p

/-! ### Whole-machine rules -/

/-- Every step of every kind keeps the invariant of the machine: canonical buffers, the ROM of R212, a cleared data path whenever
the status is not BUSY, `ERR` exactly with ERROR, unused bits zero, and a running command inside its program with checked
arguments and, inside a loop, `C` not zero (10_state.md R44, R51; 20_memory.md R75; 45_engine.md R213, R218). -/
def Obligations.EveryStepKeepsTheInvariant : Prop :=
  ∀ s t : State, Inv s = true → step s = .next t → Inv t = true

/-- The invariant holds at reset (10_state.md R51, R52). -/
def Obligations.InvariantHoldsAtReset : Prop := Inv State.reset = true

/-- Where the invariant holds no step faults, and the only refusal is that of a host access no rule covers: no zero word and no
undefined code is ever fetched (45_engine.md R213; 60_exceptions.md R262). -/
def Obligations.InvariantStatesNeverFault : Prop :=
  ∀ s : State, Inv s = true →
    (∀ f, step s ≠ .fault f) ∧
    (∀ r, step s = .refused r → r = .unsupportedHostAccess ∧ ∃ action rest, s.pending = action :: rest ∧
      unsupportedAccess action = true)

/-- Time does not depend on secrets: two states that differ only in key, data, work registers, buffers and host answers step to
states that differ only in these, so what runs next and when a command ends is the same (70_reset_and_hazards.md R306). -/
def Obligations.TimeDoesNotDependOnSecrets : Prop :=
  ∀ s t : State, controlState s = controlState t → sameControl (step s) (step t)

/-- Every command ends: from the write of any word to `CMD` while not BUSY, within 9700 engine steps the status is DONE or ERROR
(70_reset_and_hazards.md R305). -/
def Obligations.EveryCommandEnds : Prop :=
  ∀ (s : State) (word : BitVec 32), s.status ≠ .busy → s.rom = [] → s.pending = [.writeWord 0x00 word] →
    ∃ (k : Nat) (u : State), k ≤ 9700 ∧ Host.Core.run Sys2Proof.core (1 + k) s = .next u ∧ (u.status = .done ∨ u.status = .error)

/-- The engine, whether the host side has nothing pending or leaves it the step, never writes `DIN`, `KIN`, `CMD` or a latch, and a
byte of `DOUT` changes only by STBLK; no step of either agent writes the ROM (10_state.md R40, R48; 20_memory.md R75). -/
def Obligations.EngineWritesOnlyDout : Prop :=
  (∀ s t : State, (s.pending = [] ∨ ∃ rest, s.pending = .engineTurn :: rest) → step s = .next t →
    t.cmd = s.cmd ∧ t.opr = s.opr ∧ t.varr = s.varr ∧ t.nrr = s.nrr ∧ t.dlenr = s.dlenr ∧ t.klenr = s.klenr ∧
    (∀ offset, offset < 0x60 → readBuffer t.buf offset = readBuffer s.buf offset) ∧
    (fetchWord s ≠ 0x0400 → buffersAgree s t)) ∧
  (∀ s t : State, step s = .next t → t.rom = s.rom)

/-- The transitions of `STATUS` (10_state.md R43): without a reset, BUSY goes to DONE only by DONE and to ERROR only by CHK, and
any other status changes only by a word written to `CMD`, to BUSY or to ERROR. -/
def Obligations.StatusChangesOnlyAsListed : Prop :=
  ∀ s t : State, step s = .next t → (∀ rest, s.pending ≠ .reset :: rest) →
    (s.status = .busy → t.status = .busy ∨ (t.status = .done ∧ fetchWord s = 0x0600) ∨
      (t.status = .error ∧ fetchWord s = 0x0100)) ∧
    (s.status ≠ .busy → t.status = s.status ∨
      ∃ word rest, s.pending = .writeWord 0x00 word :: rest ∧ (t.status = .busy ∨ t.status = .error))
end

