-- ==== Sys2Proof/Laws/Operands.lean ====
section
/-! SUPPORT. The laws of the operand forms: bytes and integers, lanes and bytes, lanes and one integer, and the physical registers
read and written at a variant's width. -/

namespace Sys2Proof.Machine

/-! ### Little-endian integers and lanes (00_scope.md R20, 20_memory.md R63) -/

/-- A lane in range. -/
theorem lane_getD {w : Nat} (x : Lanes w) {j : Nat} (hj : j < 4) : x[j]?.getD 0 = x[j] := by simp [hj]

/-- `LE_n` fits `8n` bits. -/
theorem leNat_lt (f : Nat → Byte) : ∀ n, leNat f n < 2 ^ (8 * n)
  | 0 => by simp [leNat]
  | n + 1 => by
    have h1 := leNat_lt f n
    have h2 : (f n).toNat + 1 ≤ 2 ^ 8 := (f n).isLt
    calc leNat f n + (f n).toNat * 2 ^ (8 * n) < 2 ^ (8 * n) + (f n).toNat * 2 ^ (8 * n) := by omega
      _ = ((f n).toNat + 1) * 2 ^ (8 * n) := by ring
      _ ≤ 2 ^ 8 * 2 ^ (8 * n) := Nat.mul_le_mul_right _ h2
      _ = 2 ^ (8 * (n + 1)) := by rw [← pow_add]; congr 1; ring

/-- Bit `i` of `LE_n` is bit `i mod 8` of byte `i / 8` (00_scope.md R20). -/
theorem leNat_testBit (f : Nat → Byte) : ∀ n i, (leNat f n).testBit i = (decide (i < 8 * n) && (f (i / 8)).getLsbD (i % 8))
  | 0, i => by simp [leNat]
  | n + 1, i => by
    rw [leNat, Nat.add_comm, Nat.mul_comm, Nat.testBit_two_pow_mul_add _ (leNat_lt f n), leNat_testBit f n i]
    by_cases h : i < 8 * n
    · simp [h, show i < 8 * (n+1) by omega]
    · rw [if_neg h]
      by_cases h2 : i < 8 * (n+1)
      · have : i / 8 = n := by omega
        have h3: i % 8 = i - 8 * n := by omega
        simp [h2, this, h3, BitVec.getLsbD]
      · simp only [h2, decide_false, Bool.false_and]
        exact BitVec.getLsbD_of_ge (f n) _ (by omega)

/-- Bit `i` of `LE_n` as a word. -/
theorem getLsbD_leWord (n : Nat) (f : Nat → Byte) (i : Nat) :
    (leWord n f).getLsbD i = (decide (i < 8 * n) && (f (i / 8)).getLsbD (i % 8)) := by
  simp [leWord, BitVec.getLsbD_ofNat, leNat_testBit]

/-- `BYTES_n` after `LE_n` (R20: inverse). -/
theorem byteOf_leWord {n k : Nat} (hk : k < n) (f : Nat → Byte) : byteOf (leWord n f) k = f k := by
  refine BitVec.eq_of_getLsbD_eq fun b hb => ?_
  rw [byteOf, BitVec.getLsbD_extractLsb', getLsbD_leWord]
  have h1 : 8 * k + b < 8 * n := by omega
  have h2 : (8 * k + b) / 8 = k := by omega
  have h3 : (8 * k + b) % 8 = b := by omega
  simp [h1, h2, h3, hb]

/-- `LE_n` after `BYTES_n` (R20: inverse). -/
theorem leWord_byteOf {n : Nat} (x : BitVec (8 * n)) : leWord n (byteOf x) = x := by
  refine BitVec.eq_of_getLsbD_eq fun b hb => ?_
  rw [getLsbD_leWord, byteOf, BitVec.getLsbD_extractLsb']
  have : 8 * (b / 8) + b % 8 = b := by omega
  simp [hb, this, Nat.mod_lt]

/-- `LE_n` reads only its `n` bytes. -/
theorem leWord_congr {n : Nat} {f g : Nat → Byte} (h : ∀ k, k < n → f k = g k) : leWord n f = leWord n g := by
  refine BitVec.eq_of_getLsbD_eq fun b hb => ?_
  rw [getLsbD_leWord, getLsbD_leWord, h _ (by omega)]

/-- Lane `j` is `LE` of its own bytes (20_memory.md R63). -/
theorem getElem_lanesFrom {lb : Nat} (f : Nat → Byte) {j : Nat} (hj : j < 4) :
    (lanesFrom lb f)[j] = leWord lb fun k => f (j * lb + k) := by simp [lanesFrom]

/-- The bytes of the lanes taken from bytes are those bytes (R63). -/
theorem laneByte_lanesFrom {lb i : Nat} (hi : i < 4 * lb) (f : Nat → Byte) : laneByte lb (lanesFrom lb f) i = f i := by
  have hlb : 0 < lb := by omega
  have hj : i / lb < 4 := Nat.div_lt_of_lt_mul (by rwa [Nat.mul_comm])
  rw [laneByte, lane_getD _ hj, getElem_lanesFrom, byteOf_leWord (Nat.mod_lt _ hlb), Nat.div_add_mod']

/-- The lanes taken from the bytes of lanes are those lanes (R63). -/
theorem lanesFrom_laneByte {lb : Nat} (x : Lanes (8 * lb)) : lanesFrom lb (laneByte lb x) = x := by
  refine Vector.ext fun j hj => ?_
  rw [getElem_lanesFrom]
  conv_rhs => rw [← leWord_byteOf x[j]]
  refine leWord_congr fun k hk => ?_
  have h1 : (j * lb + k) / lb = j := by
    rw [Nat.mul_comm, Nat.mul_add_div (by omega), Nat.div_eq_of_lt hk, Nat.add_zero]
  have h2 : (j * lb + k) % lb = k := by rw [Nat.mul_comm, Nat.mul_add_mod, Nat.mod_eq_of_lt hk]
  rw [laneByte, h1, h2, lane_getD _ hj]

/-- Lanes are taken from `4*lb` bytes and no other. -/
theorem lanesFrom_congr {lb : Nat} {f g : Nat → Byte} (h : ∀ i, i < 4 * lb → f i = g i) : lanesFrom lb f = lanesFrom lb g := by
  refine Vector.ext fun j hj => ?_
  rw [getElem_lanesFrom, getElem_lanesFrom]
  refine leWord_congr fun k hk => h _ ?_
  calc j * lb + k < j * lb + lb := by omega
    _ = (j + 1) * lb := by ring
    _ ≤ 4 * lb := Nat.mul_le_mul_right _ (by omega)

/-- A byte in range. -/
theorem byteAt_of_lt {n : Nat} (k : Vector Byte n) {i : Nat} (hi : i < n) : byteAt k i = k[i] := by
  simp [byteAt, getElem?_pos, hi]

/-- A byte of an array given byte by byte. -/
theorem byteAt_ofFn {n : Nat} (f : Fin n → Byte) {i : Nat} (hi : i < n) : byteAt (Vector.ofFn f) i = f ⟨i, hi⟩ := by
  simp [byteAt_of_lt _ hi]

/-! ### A lane vector as one integer (00_scope.md R22) -/

/-- `INT(X)` as a number: the sum fits its width. -/
theorem intOf_toNat {w : Nat} (x : Lanes w) :
    (intOf x).toNat = x[0].toNat + x[1].toNat * 2 ^ w + x[2].toNat * 2 ^ (2 * w) + x[3].toNat * 2 ^ (3 * w) := by
  rw [intOf, BitVec.toNat_ofNat]
  refine Nat.mod_eq_of_lt ?_
  have h0 := x[0].isLt; have h1 := x[1].isLt; have h2 := x[2].isLt; have h3 := x[3].isLt
  have e2 : (2:Nat) ^ (2 * w) = 2 ^ w * 2 ^ w := by rw [← pow_add]; congr 1; ring
  have e3 : (2:Nat) ^ (3 * w) = 2 ^ w * (2 ^ w * 2 ^ w) := by rw [← pow_add, ← pow_add]; congr 1; ring
  have e4 : (2:Nat) ^ (4 * w) = 2 ^ w * (2 ^ w * (2 ^ w * 2 ^ w)) := by rw [← pow_add, ← pow_add, ← pow_add]; congr 1; ring
  rw [e2, e3, e4]
  generalize (2:Nat) ^ w = B at *
  nlinarith [Nat.mul_le_mul_right B h1, Nat.mul_le_mul_right (B * B) h2, Nat.mul_le_mul_right (B * (B * B)) h3]

/-- `LANES(INT(X)) = X` (R22). -/
theorem lanesOf_intOf {w : Nat} (x : Lanes w) : lanesOf (intOf x) = x := by
  refine Vector.ext fun j hj => BitVec.eq_of_toNat_eq ?_
  have h0 := x[0].isLt; have h1 := x[1].isLt; have h2 := x[2].isLt; have h3 := x[3].isLt
  have e2 : (2:Nat) ^ (2 * w) = 2 ^ w * 2 ^ w := by rw [← pow_add]; congr 1; ring
  have e3 : (2:Nat) ^ (3 * w) = 2 ^ w * (2 ^ w * 2 ^ w) := by rw [← pow_add, ← pow_add]; congr 1; ring
  simp only [lanesOf, Vector.getElem_ofFn, BitVec.extractLsb'_toNat, intOf_toNat, Nat.shiftRight_eq_div_pow]
  rw [e2, e3]
  have key : ∀ a b c d B : Nat, a + b * B + c * (B * B) + d * (B * (B * B)) = a + B * (b + B * (c + B * d)) := by
    intros; ring
  have d1 : ∀ a q B : Nat, a < B → (a + B * q) / B = q := fun a q B h => by
    rw [Nat.add_mul_div_left _ _ (by omega), Nat.div_eq_of_lt h, Nat.zero_add]
  have m1 : ∀ a q B : Nat, a < B → (a + B * q) % B = a := fun a q B h => by
    rw [Nat.add_mul_mod_self_left, Nat.mod_eq_of_lt h]
  rw [key]
  match j, hj with
  | 0, _ => simp [m1 _ _ _ h0]
  | 1, _ => simp [d1 _ _ _ h0, m1 _ _ _ h1]
  | 2, _ =>
    rw [show w * 2 = w + w by ring, pow_add, ← Nat.div_div_eq_div_mul]
    simp [d1 _ _ _ h0, d1 _ _ _ h1, m1 _ _ _ h2]
  | 3, _ =>
    rw [show w * 3 = w + w + w by ring, pow_add, pow_add, ← Nat.div_div_eq_div_mul, ← Nat.div_div_eq_div_mul]
    simp [d1 _ _ _ h0, d1 _ _ _ h1, d1 _ _ _ h2, Nat.mod_eq_of_lt h3]

/-- Bit `i` of `INT(X)` is bit `i mod w` of lane `i / w`. -/
theorem getLsbD_intOf {w : Nat} (x : Lanes w) (hw : 0 < w) (i : Nat) : (intOf x).getLsbD i = (x[i / w]?.getD 0).getLsbD (i % w) := by
  by_cases hi : i < 4 * w
  · have hj : i / w < 4 := Nat.div_lt_of_lt_mul (by rwa [Nat.mul_comm])
    have e : (lanesOf (intOf x))[i / w] = x[i / w] := by rw [lanesOf_intOf]
    rw [lane_getD _ hj, ← e]
    simp only [lanesOf, Vector.getElem_ofFn, BitVec.getLsbD_extractLsb', Nat.mod_lt _ hw, decide_true, Bool.true_and,
      Nat.div_add_mod]
  · have : ¬ i / w < 4 := by rw [Nat.div_lt_iff_lt_mul hw]; exact hi
    rw [BitVec.getLsbD_of_ge _ _ (by omega)]
    simp [this]

/-- `INT(LANES(x)) = x` (R22). -/
theorem intOf_lanesOf {w : Nat} (x : BitVec (4 * w)) : intOf (lanesOf x) = x := by
  rcases Nat.eq_zero_or_pos w with rfl | hw
  · exact BitVec.eq_of_getLsbD_eq fun i hi => by omega
  refine BitVec.eq_of_getLsbD_eq fun i hi => ?_
  have hj : i / w < 4 := Nat.div_lt_of_lt_mul (by rwa [Nat.mul_comm])
  rw [getLsbD_intOf _ hw, lane_getD _ hj]
  simp only [lanesOf, Vector.getElem_ofFn, BitVec.getLsbD_extractLsb', Nat.mod_lt _ hw, decide_true, Bool.true_and,
      Nat.div_add_mod]
/-! ### Physical registers at a variant's width (10_state.md R35) -/

/-- The bits of a register after a write at width `w`. -/
theorem getLsbD_putLow {N w : Nat} (old : BitVec N) (x : BitVec w) (i : Nat) (hw : w ≤ N):
    (putLow old x).getLsbD i = if i < w then x.getLsbD i else old.getLsbD i := by
  unfold putLow
  simp only [BitVec.getLsbD_or, BitVec.getLsbD_shiftLeft, BitVec.getLsbD_ushiftRight, BitVec.getLsbD_setWidth]
  by_cases h : i < w
  · simp [h]; intro; omega
  · have : w + (i - w) = i := by omega
    by_cases h2 : i < N
    · simp [h, this, h2, BitVec.getLsbD_of_ge x i (by omega)]
    · simp [h, h2, BitVec.getLsbD_of_ge old i (by omega)]

/-- What a write at a width wrote is what a read at that width gives. -/
theorem low_putLow {N w : Nat} (hw : w ≤ N) (old : BitVec N) (x : BitVec w) : low w (putLow old x) = x := by
  refine BitVec.eq_of_getLsbD_eq fun i hi => ?_
  rw [low, BitVec.getLsbD_setWidth, getLsbD_putLow _ _ _ hw]; simp [hi]

/-- A write at width `w` keeps the bits from `w` up. -/
theorem putLow_ushiftRight {N w : Nat} (hw : w ≤ N) (old : BitVec N) (x : BitVec w) : putLow old x >>> w = old >>> w := by
  refine BitVec.eq_of_getLsbD_eq fun i hi => ?_
  simp [BitVec.getLsbD_ushiftRight, getLsbD_putLow _ _ _ hw]

/-- Writing back what was read changes nothing. -/
theorem putLow_low {N w : Nat} (hw : w ≤ N) (old : BitVec N) : putLow old (low w old) = old := by
  refine BitVec.eq_of_getLsbD_eq fun i hi => ?_
  rw [getLsbD_putLow _ _ _ hw, low, BitVec.getLsbD_setWidth]; by_cases h : i < w <;> simp [h]

/-- The later of two writes at one width stands. -/
theorem putLow_putLow {N w : Nat} (hw : w ≤ N) (old : BitVec N) (x y : BitVec w) : putLow (putLow old x) y = putLow old y := by
  refine BitVec.eq_of_getLsbD_eq fun i hi => ?_
  simp only [getLsbD_putLow _ _ _ hw]; by_cases h : i < w <;> simp [h]

/-- A register whose high bits are zero keeps them zero. -/
theorem putLow_toNat_lt {N w : Nat} (hw : w ≤ N) (old : BitVec N) (x : BitVec w) (h : old.toNat < 2 ^ w) :
    (putLow old x).toNat < 2 ^ w := by
  refine Nat.lt_pow_two_of_testBit _ fun i hi => ?_
  have := getLsbD_putLow old x i hw
  rw [if_neg (by omega)] at this
  rw [BitVec.testBit_toNat, this, ← BitVec.testBit_toNat]
  exact Nat.testBit_lt_two_pow (lt_of_lt_of_le h (Nat.pow_le_pow_right (by omega) hi))

/-- Reading the lanes after a write of the lanes. -/
@[simp] theorem lanesAt_putLanes (v : Variant) (reg : Lanes 32) (x : Lanes v.lw) : lanesAt v (putLanes v reg x) = x := by
  refine Vector.ext fun j hj => ?_
  simp only [lanesAt, putLanes, Vector.getElem_ofFn, Fin.getElem_fin]
  exact low_putLow (by cases v <;> decide) _ _

/-- A write of the lanes keeps the bits above the lane width. -/
theorem putLanes_ushiftRight (v : Variant) (reg : Lanes 32) (x : Lanes v.lw) (j : Fin 4) :
    (putLanes v reg x)[j] >>> v.lw = reg[j] >>> v.lw := by
  simp only [putLanes, Fin.getElem_fin, Vector.getElem_ofFn]
  exact putLow_ushiftRight (by cases v <;> decide) _ _

/-- Writing back the lanes that were read changes nothing. -/
@[simp] theorem putLanes_lanesAt (v : Variant) (reg : Lanes 32) : putLanes v reg (lanesAt v reg) = reg := by
  refine Vector.ext fun j hj => ?_
  simp only [lanesAt, putLanes, Vector.getElem_ofFn, Fin.getElem_fin]
  exact putLow_low (by cases v <;> decide) _

/-- The later of two writes of the lanes stands. -/
@[simp] theorem putLanes_putLanes (v : Variant) (reg : Lanes 32) (x y : Lanes v.lw) :
    putLanes v (putLanes v reg x) y = putLanes v reg y := by
  refine Vector.ext fun j hj => ?_
  simp only [putLanes, Vector.getElem_ofFn, Fin.getElem_fin]
  exact putLow_putLow (by cases v <;> decide) _ _ _

/-- Lane `j` read at the variant's width. -/
theorem getElem_lanesAt (v : Variant) (reg : Lanes 32) {j : Nat} (hj : j < 4) : (lanesAt v reg)[j] = low v.lw reg[j] := by
  simp [lanesAt]

/-- Lane `j` after a write of the lanes. -/
theorem getElem_putLanes (v : Variant) (reg : Lanes 32) (x : Lanes v.lw) {j : Nat} (hj : j < 4) :
    (putLanes v reg x)[j] = putLow reg[j] x[j] := by simp [putLanes]

/-- Reading the key after a write of the key. -/
@[simp] theorem keyAt_putKey (v : Variant) (reg : Vector Byte 32) (k : Vector Byte v.kb) : keyAt v (putKey v reg k) = k := by
  refine Vector.ext fun i hi => ?_
  have h32 : i < 32 := lt_of_lt_of_le hi (by cases v <;> decide)
  simp [keyAt, putKey, byteAt_of_lt _ h32, byteAt_of_lt _ hi, hi]

/-- Byte `i` of the key read at the variant's width. -/
theorem getElem_keyAt (v : Variant) (reg : Vector Byte 32) {i : Nat} (hi : i < v.kb) : (keyAt v reg)[i] = byteAt reg i := by
  simp [keyAt]

/-- Byte `i` of the key register after a write of the key: bytes from `KB` up are kept (10_state.md R33). -/
theorem byteAt_putKey (v : Variant) (reg : Vector Byte 32) (k : Vector Byte v.kb) {i : Nat} (hi : i < 32) :
    byteAt (putKey v reg k) i = if i < v.kb then byteAt k i else byteAt reg i := by
  simp [putKey, byteAt_of_lt _ hi]

/-- Writing back the key that was read changes nothing. -/
@[simp] theorem putKey_keyAt (v : Variant) (reg : Vector Byte 32) : putKey v reg (keyAt v reg) = reg := by
  refine Vector.ext fun i hi => ?_
  rw [← byteAt_of_lt _ hi, byteAt_putKey v reg _ hi, ← byteAt_of_lt reg hi]
  split
  · next h => rw [byteAt_of_lt _ h, getElem_keyAt v reg h]
  · rfl

/-- The later of two writes of the key stands. -/
@[simp] theorem putKey_putKey (v : Variant) (reg : Vector Byte 32) (k k' : Vector Byte v.kb) :
    putKey v (putKey v reg k) k' = putKey v reg k' := by
  refine Vector.ext fun i hi => ?_
  rw [← byteAt_of_lt _ hi, ← byteAt_of_lt _ hi, byteAt_putKey v _ _ hi, byteAt_putKey v _ _ hi, byteAt_putKey v _ _ hi]
  split <;> rfl

/-- Reading the accumulator after a write of it. -/
@[simp] theorem rcAt_putRc (v : Variant) (reg : BitVec 128) (x : BitVec v.cw) : rcAt v (putRc v reg x) = x :=
  low_putLow (by cases v <;> decide) _ _

/-- A write of the accumulator keeps the bits above its width. -/
theorem putRc_ushiftRight (v : Variant) (reg : BitVec 128) (x : BitVec v.cw) : putRc v reg x >>> v.cw = reg >>> v.cw :=
  putLow_ushiftRight (by cases v <;> decide) _ _

/-- Writing back the accumulator that was read changes nothing. -/
@[simp] theorem putRc_rcAt (v : Variant) (reg : BitVec 128) : putRc v reg (rcAt v reg) = reg :=
  putLow_low (by cases v <;> decide) _

/-- The later of two writes of the accumulator stands. -/
@[simp] theorem putRc_putRc (v : Variant) (reg : BitVec 128) (x y : BitVec v.cw) : putRc v (putRc v reg x) y = putRc v reg y :=
  putLow_putLow (by cases v <;> decide) _ _ _

/-- The bytes of a block read back as its halves: the left one (20_memory.md R63). -/
theorem leftHalf_blockByte (v : Variant) (l r : Lanes v.lw) : leftHalf v (blockByte v l r) = l := by
  refine (lanesFrom_congr fun i hi => ?_).trans (lanesFrom_laneByte l)
  exact if_pos hi

/-- The right one (R63). -/
theorem rightHalf_blockByte (v : Variant) (l r : Lanes v.lw) : rightHalf v (blockByte v l r) = r := by
  refine (lanesFrom_congr fun i _ => ?_).trans (lanesFrom_laneByte r)
  have h : ¬ v.hb + i < v.hb := by omega
  simp only [blockByte, if_neg h, Nat.add_sub_cancel_left]

/-- The halves of a block give its bytes back (R63). -/
theorem blockByte_halves (v : Variant) (f : Nat → Byte) {i : Nat} (hi : i < v.bb) :
    blockByte v (leftHalf v f) (rightHalf v f) i = f i := by
  unfold blockByte leftHalf rightHalf
  split
  · next h => exact laneByte_lanesFrom h f
  · next h =>
    have e : v.hb = 4 * v.lb := rfl
    have e2 : v.bb = 2 * v.hb := rfl
    have h2 : i - v.hb < 4 * v.lb := by omega
    rw [laneByte_lanesFrom h2, Nat.add_sub_cancel' (by omega)]

/-! ### Byte by byte and bit by bit -/

/-- Two arrays whose bytes are equal are equal. -/
theorem bytes_ext {n : Nat} {a b : Vector Byte n} (h : ∀ i, i < n → byteAt a i = byteAt b i) : a = b :=
  Vector.ext fun i hi => by rw [← byteAt_of_lt a hi, ← byteAt_of_lt b hi, h i hi]

/-- Two lane vectors whose bits are equal are equal. -/
theorem lanes_ext {w : Nat} {a b : Lanes w} (h : ∀ (j : Fin 4) (p : Nat), p < w → a[j].getLsbD p = b[j].getLsbD p) : a = b :=
  Vector.ext fun j hj => BitVec.eq_of_getLsbD_eq fun p hp => h ⟨j, hj⟩ p hp

/-- Byte `i` of the key read at the variant's width. -/
theorem byteAt_keyAt (v : Variant) (reg : Vector Byte 32) {i : Nat} (hi : i < v.kb) : byteAt (keyAt v reg) i = byteAt reg i := by
  rw [byteAt_of_lt _ hi, getElem_keyAt _ _ hi]

/-- Every variant's key fits the register. -/
theorem kb_le (v : Variant) : v.kb ≤ 32 := by cases v <;> decide

/-- A half is no longer than the key. -/
theorem hb_le_kb (v : Variant) : v.hb ≤ v.kb := by cases v <;> decide

/-- Key bytes from `KB` up are kept by a write of the key, at any index (10_state.md R33). -/
theorem byteAt_putKey_of_ge (v : Variant) (reg : Vector Byte 32) (k : Vector Byte v.kb) {i : Nat} (hi : v.kb ≤ i) :
    byteAt (putKey v reg k) i = byteAt reg i := by
  by_cases h : i < 32
  · rw [byteAt_putKey v reg k h, if_neg (Nat.not_lt.2 hi)]
  · simp [byteAt, h]

/-- Byte `k` of lane `j` lies inside the half. -/
theorem lane_index_lt (v : Variant) (j : Fin 4) {k : Nat} (hk : k < v.lb) : j.val * v.lb + k < v.hb := by
  have hj := j.isLt
  calc j.val * v.lb + k < j.val * v.lb + v.lb := by omega
    _ = (j.val + 1) * v.lb := by ring
    _ ≤ 4 * v.lb := Nat.mul_le_mul_right _ (by omega)

/-- The byte of the lanes at the index of byte `k` of lane `j` (20_memory.md R63). -/
theorem laneByte_index {lb : Nat} (x : Lanes (8 * lb)) (j : Fin 4) {k : Nat} (hk : k < lb) :
    laneByte lb x (j.val * lb + k) = byteOf x[j] k := by
  have h1 : (j.val * lb + k) / lb = j := by
    rw [Nat.mul_comm, Nat.mul_add_div (by omega), Nat.div_eq_of_lt hk, Nat.add_zero]
  have h2 : (j.val * lb + k) % lb = k := by rw [Nat.mul_comm, Nat.mul_add_mod, Nat.mod_eq_of_lt hk]
  rw [laneByte, h1, h2, lane_getD _ j.isLt, Fin.getElem_fin]

/-- A byte below the lane width, read through the narrowed register. -/
theorem byteOf_low (v : Variant) (x : BitVec 32) {k : Nat} (hk : k < v.lb) : byteOf (low v.lw x) k = byteOf x k := by
  refine BitVec.eq_of_getLsbD_eq fun b hb => ?_
  have h : 8 * k + b < 8 * v.lb := by omega
  simp [byteOf, low, h]

/-- Bit `p` of a lane read at the variant's width. -/
theorem getLsbD_lanesAt (v : Variant) (reg : Lanes 32) (j : Fin 4) {p : Nat} (hp : p < v.lw) :
    (lanesAt v reg)[j].getLsbD p = reg[j].getLsbD p := by
  simp only [Fin.getElem_fin, getElem_lanesAt, low, BitVec.getLsbD_setWidth, hp, decide_true, Bool.true_and]

/-- Bit `p` of a physical lane after a write of the lanes. -/
theorem getLsbD_putLanes (v : Variant) (reg : Lanes 32) (x : Lanes v.lw) (j : Fin 4) {p : Nat} (hp : p < v.lw) :
    (putLanes v reg x)[j].getLsbD p = x[j].getLsbD p := by
  simp only [Fin.getElem_fin, getElem_putLanes]
  rw [getLsbD_putLow _ _ _ (by cases v <;> decide), if_pos hp]

/-- A physical lane after a write of the lanes, narrowed again. -/
theorem low_putLanes (v : Variant) (reg : Lanes 32) (x : Lanes v.lw) (j : Fin 4) : low v.lw (putLanes v reg x)[j] = x[j] := by
  simp only [Fin.getElem_fin, getElem_putLanes]
  exact low_putLow (by cases v <;> decide) _ _

/-- A byte of a physical lane after a write of the lanes. -/
theorem byteOf_putLanes (v : Variant) (reg : Lanes 32) (x : Lanes v.lw) (j : Fin 4) {k : Nat} (hk : k < v.lb) :
    byteOf (putLanes v reg x)[j] k = byteOf x[j] k := by
  rw [← byteOf_low v _ hk, low_putLanes]

end Sys2Proof.Machine
end

