-- ==== Sys2Proof/Laws/Cipher.lean ====
section
/-! SUPPORT. The laws of the cipher's components, each said of one byte or one bit of the result. -/

namespace Sys2Proof.Machine

/-- Byte `i` of a rotated key (41_key_rotation.md R120, R121). -/
theorem byteAt_rotateBytes {n : Nat} (step : Nat) (k : Vector Byte n) {i : Nat} (hi : i < n) :
    byteAt (rotateBytes step k) i = byteAt k ((i + step) % n) := by simp [rotateBytes, byteAt_ofFn _ hi]

/-- Byte `i` of a folded key (44_datapath.md R181). -/
theorem byteAt_fold (v : Variant) (k : Vector Byte v.kb) (s : Lanes v.lw) {i : Nat} (hi : i < v.kb) :
    byteAt (fold v k s) i = if i < v.hb then laneByte v.lb s i else byteAt k i := by
  rw [fold, byteAt_ofFn _ hi]
  split
  · rfl
  · exact (byteAt_of_lt k hi).symm

/-- Lane `j` of an xor (00_scope.md R22). -/
theorem getElem_xorLanes {w : Nat} (x y : Lanes w) {j : Nat} (hj : j < 4) : (xorLanes x y)[j] = x[j] ^^^ y[j] := by simp [xorLanes]

/-- Bit `p` of a rotated lane comes from bit `p - s` modulo the width (00_scope.md R18). -/
theorem getLsbD_rol {w : Nat} (x : BitVec w) {s p : Nat} (hs : s < w) (hp : p < w) :
    (rol x s).getLsbD p = x.getLsbD ((p + (w - s)) % w) := by
  simp only [rol, BitVec.getLsbD_or, BitVec.getLsbD_shiftLeft, BitVec.getLsbD_ushiftRight]
  by_cases h : p < s
  · rw [Nat.mod_eq_of_lt (by omega)]
    simp [h, Nat.add_comm]
  · have e : (p + (w - s)) % w = p - s := by
      rw [Nat.mod_eq_sub_mod (by omega), Nat.mod_eq_of_lt (by omega)]; omega
    rw [e, BitVec.getLsbD_of_ge x (w - s + p) (by omega)]
    simp [h, hp]

/-- Bit `p` of lane `j` after Beta is bit `j` of the S-box of the nibble at `p` (42_beta.md R142). -/
theorem getLsbD_mapNibbles {w : Nat} (o : Bool) (f : BitVec 4 → BitVec 4) (x : Lanes w) (j : Fin 4) {p : Nat} (hp : p < w) :
    (mapNibbles o f x)[j].getLsbD p = (f (nibbleAt o x p)).getLsbD (nibbleLane o j).val := by
  simp [mapNibbles, BitVec.getLsbD_eq_getElem, hp]

/-- Bit `p` of a lane that the matrix picks or not (43_linear_layers.md R163). -/
theorem getLsbD_pick {w : Nat} (b : ZMod 2) (x : BitVec w) (p : Nat) : (pick b x).getLsbD p = (decide (b = 1) && x.getLsbD p) := by
  unfold pick
  split <;> simp_all

/-- One more application, on the outside. -/
theorem applyTimes_succ {α : Type} (f : α → α) : ∀ (n : Nat) (x : α), applyTimes f (n + 1) x = f (applyTimes f n x)
  | 0, _ => rfl
  | n + 1, x => by rw [applyTimes, applyTimes_succ f n, applyTimes]

end Sys2Proof.Machine
end

