-- ==== Sys2Proof/Laws/Config.lean ====
section
/-! SUPPORT. Under `Config.cfg` the configurable machine of Machine/Reference.lean is the machine. -/

namespace Sys2Proof.Machine

/-- `execUnder Config.cfg` is `exec`. -/
theorem execUnder_cfg (i : Instr) (s : State) : execUnder Config.cfg i s = exec i s := by cases i <;> rfl

/-- `stepUnder Config.cfg` is `step`. -/
theorem stepUnder_cfg (s : State) : stepUnder Config.cfg s = step s := by
  rw [stepUnder, step, show execUnder Config.cfg = exec from funext fun i => funext fun s => execUnder_cfg i s]

end Sys2Proof.Machine
end

