-- ==== Sys2Proof/Laws/State.lean ====
section
/-! SUPPORT. One lemma per field per update of the state, each true by rfl, so that no proof unfolds a record update. -/

namespace Sys2Proof.Machine

variable (s : State)

/-! ### `State.setL` -/

@[simp] theorem State.setL_l (x : Lanes 32) : (s.setL x).l = x := rfl
@[simp] theorem State.setL_r (x : Lanes 32) : (s.setL x).r = s.r := rfl
@[simp] theorem State.setL_w (x : Lanes 32) : (s.setL x).w = s.w := rfl
@[simp] theorem State.setL_sk (x : Lanes 32) : (s.setL x).sk = s.sk := rfl
@[simp] theorem State.setL_key (x : Lanes 32) : (s.setL x).key = s.key := rfl
@[simp] theorem State.setL_rc (x : Lanes 32) : (s.setL x).rc = s.rc := rfl
@[simp] theorem State.setL_c (x : Lanes 32) : (s.setL x).c = s.c := rfl
@[simp] theorem State.setL_upc (x : Lanes 32) : (s.setL x).upc = s.upc := rfl
@[simp] theorem State.setL_opr (x : Lanes 32) : (s.setL x).opr = s.opr := rfl
@[simp] theorem State.setL_varr (x : Lanes 32) : (s.setL x).varr = s.varr := rfl
@[simp] theorem State.setL_nrr (x : Lanes 32) : (s.setL x).nrr = s.nrr := rfl
@[simp] theorem State.setL_dlenr (x : Lanes 32) : (s.setL x).dlenr = s.dlenr := rfl
@[simp] theorem State.setL_klenr (x : Lanes 32) : (s.setL x).klenr = s.klenr := rfl
@[simp] theorem State.setL_cmd (x : Lanes 32) : (s.setL x).cmd = s.cmd := rfl
@[simp] theorem State.setL_status (x : Lanes 32) : (s.setL x).status = s.status := rfl
@[simp] theorem State.setL_err (x : Lanes 32) : (s.setL x).err = s.err := rfl
@[simp] theorem State.setL_buf (x : Lanes 32) : (s.setL x).buf = s.buf := rfl
@[simp] theorem State.setL_rom (x : Lanes 32) : (s.setL x).rom = s.rom := rfl
@[simp] theorem State.setL_pending (x : Lanes 32) : (s.setL x).pending = s.pending := rfl
@[simp] theorem State.setL_answer (x : Lanes 32) : (s.setL x).answer = s.answer := rfl

/-! ### `State.setR` -/

@[simp] theorem State.setR_l (x : Lanes 32) : (s.setR x).l = s.l := rfl
@[simp] theorem State.setR_r (x : Lanes 32) : (s.setR x).r = x := rfl
@[simp] theorem State.setR_w (x : Lanes 32) : (s.setR x).w = s.w := rfl
@[simp] theorem State.setR_sk (x : Lanes 32) : (s.setR x).sk = s.sk := rfl
@[simp] theorem State.setR_key (x : Lanes 32) : (s.setR x).key = s.key := rfl
@[simp] theorem State.setR_rc (x : Lanes 32) : (s.setR x).rc = s.rc := rfl
@[simp] theorem State.setR_c (x : Lanes 32) : (s.setR x).c = s.c := rfl
@[simp] theorem State.setR_upc (x : Lanes 32) : (s.setR x).upc = s.upc := rfl
@[simp] theorem State.setR_opr (x : Lanes 32) : (s.setR x).opr = s.opr := rfl
@[simp] theorem State.setR_varr (x : Lanes 32) : (s.setR x).varr = s.varr := rfl
@[simp] theorem State.setR_nrr (x : Lanes 32) : (s.setR x).nrr = s.nrr := rfl
@[simp] theorem State.setR_dlenr (x : Lanes 32) : (s.setR x).dlenr = s.dlenr := rfl
@[simp] theorem State.setR_klenr (x : Lanes 32) : (s.setR x).klenr = s.klenr := rfl
@[simp] theorem State.setR_cmd (x : Lanes 32) : (s.setR x).cmd = s.cmd := rfl
@[simp] theorem State.setR_status (x : Lanes 32) : (s.setR x).status = s.status := rfl
@[simp] theorem State.setR_err (x : Lanes 32) : (s.setR x).err = s.err := rfl
@[simp] theorem State.setR_buf (x : Lanes 32) : (s.setR x).buf = s.buf := rfl
@[simp] theorem State.setR_rom (x : Lanes 32) : (s.setR x).rom = s.rom := rfl
@[simp] theorem State.setR_pending (x : Lanes 32) : (s.setR x).pending = s.pending := rfl
@[simp] theorem State.setR_answer (x : Lanes 32) : (s.setR x).answer = s.answer := rfl

/-! ### `State.setW` -/

@[simp] theorem State.setW_l (x : Lanes 32) : (s.setW x).l = s.l := rfl
@[simp] theorem State.setW_r (x : Lanes 32) : (s.setW x).r = s.r := rfl
@[simp] theorem State.setW_w (x : Lanes 32) : (s.setW x).w = x := rfl
@[simp] theorem State.setW_sk (x : Lanes 32) : (s.setW x).sk = s.sk := rfl
@[simp] theorem State.setW_key (x : Lanes 32) : (s.setW x).key = s.key := rfl
@[simp] theorem State.setW_rc (x : Lanes 32) : (s.setW x).rc = s.rc := rfl
@[simp] theorem State.setW_c (x : Lanes 32) : (s.setW x).c = s.c := rfl
@[simp] theorem State.setW_upc (x : Lanes 32) : (s.setW x).upc = s.upc := rfl
@[simp] theorem State.setW_opr (x : Lanes 32) : (s.setW x).opr = s.opr := rfl
@[simp] theorem State.setW_varr (x : Lanes 32) : (s.setW x).varr = s.varr := rfl
@[simp] theorem State.setW_nrr (x : Lanes 32) : (s.setW x).nrr = s.nrr := rfl
@[simp] theorem State.setW_dlenr (x : Lanes 32) : (s.setW x).dlenr = s.dlenr := rfl
@[simp] theorem State.setW_klenr (x : Lanes 32) : (s.setW x).klenr = s.klenr := rfl
@[simp] theorem State.setW_cmd (x : Lanes 32) : (s.setW x).cmd = s.cmd := rfl
@[simp] theorem State.setW_status (x : Lanes 32) : (s.setW x).status = s.status := rfl
@[simp] theorem State.setW_err (x : Lanes 32) : (s.setW x).err = s.err := rfl
@[simp] theorem State.setW_buf (x : Lanes 32) : (s.setW x).buf = s.buf := rfl
@[simp] theorem State.setW_rom (x : Lanes 32) : (s.setW x).rom = s.rom := rfl
@[simp] theorem State.setW_pending (x : Lanes 32) : (s.setW x).pending = s.pending := rfl
@[simp] theorem State.setW_answer (x : Lanes 32) : (s.setW x).answer = s.answer := rfl

/-! ### `State.setSk` -/

@[simp] theorem State.setSk_l (x : Lanes 32) : (s.setSk x).l = s.l := rfl
@[simp] theorem State.setSk_r (x : Lanes 32) : (s.setSk x).r = s.r := rfl
@[simp] theorem State.setSk_w (x : Lanes 32) : (s.setSk x).w = s.w := rfl
@[simp] theorem State.setSk_sk (x : Lanes 32) : (s.setSk x).sk = x := rfl
@[simp] theorem State.setSk_key (x : Lanes 32) : (s.setSk x).key = s.key := rfl
@[simp] theorem State.setSk_rc (x : Lanes 32) : (s.setSk x).rc = s.rc := rfl
@[simp] theorem State.setSk_c (x : Lanes 32) : (s.setSk x).c = s.c := rfl
@[simp] theorem State.setSk_upc (x : Lanes 32) : (s.setSk x).upc = s.upc := rfl
@[simp] theorem State.setSk_opr (x : Lanes 32) : (s.setSk x).opr = s.opr := rfl
@[simp] theorem State.setSk_varr (x : Lanes 32) : (s.setSk x).varr = s.varr := rfl
@[simp] theorem State.setSk_nrr (x : Lanes 32) : (s.setSk x).nrr = s.nrr := rfl
@[simp] theorem State.setSk_dlenr (x : Lanes 32) : (s.setSk x).dlenr = s.dlenr := rfl
@[simp] theorem State.setSk_klenr (x : Lanes 32) : (s.setSk x).klenr = s.klenr := rfl
@[simp] theorem State.setSk_cmd (x : Lanes 32) : (s.setSk x).cmd = s.cmd := rfl
@[simp] theorem State.setSk_status (x : Lanes 32) : (s.setSk x).status = s.status := rfl
@[simp] theorem State.setSk_err (x : Lanes 32) : (s.setSk x).err = s.err := rfl
@[simp] theorem State.setSk_buf (x : Lanes 32) : (s.setSk x).buf = s.buf := rfl
@[simp] theorem State.setSk_rom (x : Lanes 32) : (s.setSk x).rom = s.rom := rfl
@[simp] theorem State.setSk_pending (x : Lanes 32) : (s.setSk x).pending = s.pending := rfl
@[simp] theorem State.setSk_answer (x : Lanes 32) : (s.setSk x).answer = s.answer := rfl

/-! ### `State.setKey` -/

@[simp] theorem State.setKey_l (x : Vector Byte 32) : (s.setKey x).l = s.l := rfl
@[simp] theorem State.setKey_r (x : Vector Byte 32) : (s.setKey x).r = s.r := rfl
@[simp] theorem State.setKey_w (x : Vector Byte 32) : (s.setKey x).w = s.w := rfl
@[simp] theorem State.setKey_sk (x : Vector Byte 32) : (s.setKey x).sk = s.sk := rfl
@[simp] theorem State.setKey_key (x : Vector Byte 32) : (s.setKey x).key = x := rfl
@[simp] theorem State.setKey_rc (x : Vector Byte 32) : (s.setKey x).rc = s.rc := rfl
@[simp] theorem State.setKey_c (x : Vector Byte 32) : (s.setKey x).c = s.c := rfl
@[simp] theorem State.setKey_upc (x : Vector Byte 32) : (s.setKey x).upc = s.upc := rfl
@[simp] theorem State.setKey_opr (x : Vector Byte 32) : (s.setKey x).opr = s.opr := rfl
@[simp] theorem State.setKey_varr (x : Vector Byte 32) : (s.setKey x).varr = s.varr := rfl
@[simp] theorem State.setKey_nrr (x : Vector Byte 32) : (s.setKey x).nrr = s.nrr := rfl
@[simp] theorem State.setKey_dlenr (x : Vector Byte 32) : (s.setKey x).dlenr = s.dlenr := rfl
@[simp] theorem State.setKey_klenr (x : Vector Byte 32) : (s.setKey x).klenr = s.klenr := rfl
@[simp] theorem State.setKey_cmd (x : Vector Byte 32) : (s.setKey x).cmd = s.cmd := rfl
@[simp] theorem State.setKey_status (x : Vector Byte 32) : (s.setKey x).status = s.status := rfl
@[simp] theorem State.setKey_err (x : Vector Byte 32) : (s.setKey x).err = s.err := rfl
@[simp] theorem State.setKey_buf (x : Vector Byte 32) : (s.setKey x).buf = s.buf := rfl
@[simp] theorem State.setKey_rom (x : Vector Byte 32) : (s.setKey x).rom = s.rom := rfl
@[simp] theorem State.setKey_pending (x : Vector Byte 32) : (s.setKey x).pending = s.pending := rfl
@[simp] theorem State.setKey_answer (x : Vector Byte 32) : (s.setKey x).answer = s.answer := rfl

/-! ### `State.setRc` -/

@[simp] theorem State.setRc_l (x : BitVec 128) : (s.setRc x).l = s.l := rfl
@[simp] theorem State.setRc_r (x : BitVec 128) : (s.setRc x).r = s.r := rfl
@[simp] theorem State.setRc_w (x : BitVec 128) : (s.setRc x).w = s.w := rfl
@[simp] theorem State.setRc_sk (x : BitVec 128) : (s.setRc x).sk = s.sk := rfl
@[simp] theorem State.setRc_key (x : BitVec 128) : (s.setRc x).key = s.key := rfl
@[simp] theorem State.setRc_rc (x : BitVec 128) : (s.setRc x).rc = x := rfl
@[simp] theorem State.setRc_c (x : BitVec 128) : (s.setRc x).c = s.c := rfl
@[simp] theorem State.setRc_upc (x : BitVec 128) : (s.setRc x).upc = s.upc := rfl
@[simp] theorem State.setRc_opr (x : BitVec 128) : (s.setRc x).opr = s.opr := rfl
@[simp] theorem State.setRc_varr (x : BitVec 128) : (s.setRc x).varr = s.varr := rfl
@[simp] theorem State.setRc_nrr (x : BitVec 128) : (s.setRc x).nrr = s.nrr := rfl
@[simp] theorem State.setRc_dlenr (x : BitVec 128) : (s.setRc x).dlenr = s.dlenr := rfl
@[simp] theorem State.setRc_klenr (x : BitVec 128) : (s.setRc x).klenr = s.klenr := rfl
@[simp] theorem State.setRc_cmd (x : BitVec 128) : (s.setRc x).cmd = s.cmd := rfl
@[simp] theorem State.setRc_status (x : BitVec 128) : (s.setRc x).status = s.status := rfl
@[simp] theorem State.setRc_err (x : BitVec 128) : (s.setRc x).err = s.err := rfl
@[simp] theorem State.setRc_buf (x : BitVec 128) : (s.setRc x).buf = s.buf := rfl
@[simp] theorem State.setRc_rom (x : BitVec 128) : (s.setRc x).rom = s.rom := rfl
@[simp] theorem State.setRc_pending (x : BitVec 128) : (s.setRc x).pending = s.pending := rfl
@[simp] theorem State.setRc_answer (x : BitVec 128) : (s.setRc x).answer = s.answer := rfl

/-! ### `State.setC` -/

@[simp] theorem State.setC_l (x : BitVec 9) : (s.setC x).l = s.l := rfl
@[simp] theorem State.setC_r (x : BitVec 9) : (s.setC x).r = s.r := rfl
@[simp] theorem State.setC_w (x : BitVec 9) : (s.setC x).w = s.w := rfl
@[simp] theorem State.setC_sk (x : BitVec 9) : (s.setC x).sk = s.sk := rfl
@[simp] theorem State.setC_key (x : BitVec 9) : (s.setC x).key = s.key := rfl
@[simp] theorem State.setC_rc (x : BitVec 9) : (s.setC x).rc = s.rc := rfl
@[simp] theorem State.setC_c (x : BitVec 9) : (s.setC x).c = x := rfl
@[simp] theorem State.setC_upc (x : BitVec 9) : (s.setC x).upc = s.upc := rfl
@[simp] theorem State.setC_opr (x : BitVec 9) : (s.setC x).opr = s.opr := rfl
@[simp] theorem State.setC_varr (x : BitVec 9) : (s.setC x).varr = s.varr := rfl
@[simp] theorem State.setC_nrr (x : BitVec 9) : (s.setC x).nrr = s.nrr := rfl
@[simp] theorem State.setC_dlenr (x : BitVec 9) : (s.setC x).dlenr = s.dlenr := rfl
@[simp] theorem State.setC_klenr (x : BitVec 9) : (s.setC x).klenr = s.klenr := rfl
@[simp] theorem State.setC_cmd (x : BitVec 9) : (s.setC x).cmd = s.cmd := rfl
@[simp] theorem State.setC_status (x : BitVec 9) : (s.setC x).status = s.status := rfl
@[simp] theorem State.setC_err (x : BitVec 9) : (s.setC x).err = s.err := rfl
@[simp] theorem State.setC_buf (x : BitVec 9) : (s.setC x).buf = s.buf := rfl
@[simp] theorem State.setC_rom (x : BitVec 9) : (s.setC x).rom = s.rom := rfl
@[simp] theorem State.setC_pending (x : BitVec 9) : (s.setC x).pending = s.pending := rfl
@[simp] theorem State.setC_answer (x : BitVec 9) : (s.setC x).answer = s.answer := rfl

/-! ### `State.setUpc` -/

@[simp] theorem State.setUpc_l (x : BitVec 7) : (s.setUpc x).l = s.l := rfl
@[simp] theorem State.setUpc_r (x : BitVec 7) : (s.setUpc x).r = s.r := rfl
@[simp] theorem State.setUpc_w (x : BitVec 7) : (s.setUpc x).w = s.w := rfl
@[simp] theorem State.setUpc_sk (x : BitVec 7) : (s.setUpc x).sk = s.sk := rfl
@[simp] theorem State.setUpc_key (x : BitVec 7) : (s.setUpc x).key = s.key := rfl
@[simp] theorem State.setUpc_rc (x : BitVec 7) : (s.setUpc x).rc = s.rc := rfl
@[simp] theorem State.setUpc_c (x : BitVec 7) : (s.setUpc x).c = s.c := rfl
@[simp] theorem State.setUpc_upc (x : BitVec 7) : (s.setUpc x).upc = x := rfl
@[simp] theorem State.setUpc_opr (x : BitVec 7) : (s.setUpc x).opr = s.opr := rfl
@[simp] theorem State.setUpc_varr (x : BitVec 7) : (s.setUpc x).varr = s.varr := rfl
@[simp] theorem State.setUpc_nrr (x : BitVec 7) : (s.setUpc x).nrr = s.nrr := rfl
@[simp] theorem State.setUpc_dlenr (x : BitVec 7) : (s.setUpc x).dlenr = s.dlenr := rfl
@[simp] theorem State.setUpc_klenr (x : BitVec 7) : (s.setUpc x).klenr = s.klenr := rfl
@[simp] theorem State.setUpc_cmd (x : BitVec 7) : (s.setUpc x).cmd = s.cmd := rfl
@[simp] theorem State.setUpc_status (x : BitVec 7) : (s.setUpc x).status = s.status := rfl
@[simp] theorem State.setUpc_err (x : BitVec 7) : (s.setUpc x).err = s.err := rfl
@[simp] theorem State.setUpc_buf (x : BitVec 7) : (s.setUpc x).buf = s.buf := rfl
@[simp] theorem State.setUpc_rom (x : BitVec 7) : (s.setUpc x).rom = s.rom := rfl
@[simp] theorem State.setUpc_pending (x : BitVec 7) : (s.setUpc x).pending = s.pending := rfl
@[simp] theorem State.setUpc_answer (x : BitVec 7) : (s.setUpc x).answer = s.answer := rfl

/-! ### `State.setStatus` -/

@[simp] theorem State.setStatus_l (x : Status) : (s.setStatus x).l = s.l := rfl
@[simp] theorem State.setStatus_r (x : Status) : (s.setStatus x).r = s.r := rfl
@[simp] theorem State.setStatus_w (x : Status) : (s.setStatus x).w = s.w := rfl
@[simp] theorem State.setStatus_sk (x : Status) : (s.setStatus x).sk = s.sk := rfl
@[simp] theorem State.setStatus_key (x : Status) : (s.setStatus x).key = s.key := rfl
@[simp] theorem State.setStatus_rc (x : Status) : (s.setStatus x).rc = s.rc := rfl
@[simp] theorem State.setStatus_c (x : Status) : (s.setStatus x).c = s.c := rfl
@[simp] theorem State.setStatus_upc (x : Status) : (s.setStatus x).upc = s.upc := rfl
@[simp] theorem State.setStatus_opr (x : Status) : (s.setStatus x).opr = s.opr := rfl
@[simp] theorem State.setStatus_varr (x : Status) : (s.setStatus x).varr = s.varr := rfl
@[simp] theorem State.setStatus_nrr (x : Status) : (s.setStatus x).nrr = s.nrr := rfl
@[simp] theorem State.setStatus_dlenr (x : Status) : (s.setStatus x).dlenr = s.dlenr := rfl
@[simp] theorem State.setStatus_klenr (x : Status) : (s.setStatus x).klenr = s.klenr := rfl
@[simp] theorem State.setStatus_cmd (x : Status) : (s.setStatus x).cmd = s.cmd := rfl
@[simp] theorem State.setStatus_status (x : Status) : (s.setStatus x).status = x := rfl
@[simp] theorem State.setStatus_err (x : Status) : (s.setStatus x).err = s.err := rfl
@[simp] theorem State.setStatus_buf (x : Status) : (s.setStatus x).buf = s.buf := rfl
@[simp] theorem State.setStatus_rom (x : Status) : (s.setStatus x).rom = s.rom := rfl
@[simp] theorem State.setStatus_pending (x : Status) : (s.setStatus x).pending = s.pending := rfl
@[simp] theorem State.setStatus_answer (x : Status) : (s.setStatus x).answer = s.answer := rfl

/-! ### `State.setBuf` -/

@[simp] theorem State.setBuf_l (x : List Host.Cell) : (s.setBuf x).l = s.l := rfl
@[simp] theorem State.setBuf_r (x : List Host.Cell) : (s.setBuf x).r = s.r := rfl
@[simp] theorem State.setBuf_w (x : List Host.Cell) : (s.setBuf x).w = s.w := rfl
@[simp] theorem State.setBuf_sk (x : List Host.Cell) : (s.setBuf x).sk = s.sk := rfl
@[simp] theorem State.setBuf_key (x : List Host.Cell) : (s.setBuf x).key = s.key := rfl
@[simp] theorem State.setBuf_rc (x : List Host.Cell) : (s.setBuf x).rc = s.rc := rfl
@[simp] theorem State.setBuf_c (x : List Host.Cell) : (s.setBuf x).c = s.c := rfl
@[simp] theorem State.setBuf_upc (x : List Host.Cell) : (s.setBuf x).upc = s.upc := rfl
@[simp] theorem State.setBuf_opr (x : List Host.Cell) : (s.setBuf x).opr = s.opr := rfl
@[simp] theorem State.setBuf_varr (x : List Host.Cell) : (s.setBuf x).varr = s.varr := rfl
@[simp] theorem State.setBuf_nrr (x : List Host.Cell) : (s.setBuf x).nrr = s.nrr := rfl
@[simp] theorem State.setBuf_dlenr (x : List Host.Cell) : (s.setBuf x).dlenr = s.dlenr := rfl
@[simp] theorem State.setBuf_klenr (x : List Host.Cell) : (s.setBuf x).klenr = s.klenr := rfl
@[simp] theorem State.setBuf_cmd (x : List Host.Cell) : (s.setBuf x).cmd = s.cmd := rfl
@[simp] theorem State.setBuf_status (x : List Host.Cell) : (s.setBuf x).status = s.status := rfl
@[simp] theorem State.setBuf_err (x : List Host.Cell) : (s.setBuf x).err = s.err := rfl
@[simp] theorem State.setBuf_buf (x : List Host.Cell) : (s.setBuf x).buf = x := rfl
@[simp] theorem State.setBuf_rom (x : List Host.Cell) : (s.setBuf x).rom = s.rom := rfl
@[simp] theorem State.setBuf_pending (x : List Host.Cell) : (s.setBuf x).pending = s.pending := rfl
@[simp] theorem State.setBuf_answer (x : List Host.Cell) : (s.setBuf x).answer = s.answer := rfl

/-! ### `State.setAnswer` -/

@[simp] theorem State.setAnswer_l (x : BitVec 32) : (s.setAnswer x).l = s.l := rfl
@[simp] theorem State.setAnswer_r (x : BitVec 32) : (s.setAnswer x).r = s.r := rfl
@[simp] theorem State.setAnswer_w (x : BitVec 32) : (s.setAnswer x).w = s.w := rfl
@[simp] theorem State.setAnswer_sk (x : BitVec 32) : (s.setAnswer x).sk = s.sk := rfl
@[simp] theorem State.setAnswer_key (x : BitVec 32) : (s.setAnswer x).key = s.key := rfl
@[simp] theorem State.setAnswer_rc (x : BitVec 32) : (s.setAnswer x).rc = s.rc := rfl
@[simp] theorem State.setAnswer_c (x : BitVec 32) : (s.setAnswer x).c = s.c := rfl
@[simp] theorem State.setAnswer_upc (x : BitVec 32) : (s.setAnswer x).upc = s.upc := rfl
@[simp] theorem State.setAnswer_opr (x : BitVec 32) : (s.setAnswer x).opr = s.opr := rfl
@[simp] theorem State.setAnswer_varr (x : BitVec 32) : (s.setAnswer x).varr = s.varr := rfl
@[simp] theorem State.setAnswer_nrr (x : BitVec 32) : (s.setAnswer x).nrr = s.nrr := rfl
@[simp] theorem State.setAnswer_dlenr (x : BitVec 32) : (s.setAnswer x).dlenr = s.dlenr := rfl
@[simp] theorem State.setAnswer_klenr (x : BitVec 32) : (s.setAnswer x).klenr = s.klenr := rfl
@[simp] theorem State.setAnswer_cmd (x : BitVec 32) : (s.setAnswer x).cmd = s.cmd := rfl
@[simp] theorem State.setAnswer_status (x : BitVec 32) : (s.setAnswer x).status = s.status := rfl
@[simp] theorem State.setAnswer_err (x : BitVec 32) : (s.setAnswer x).err = s.err := rfl
@[simp] theorem State.setAnswer_buf (x : BitVec 32) : (s.setAnswer x).buf = s.buf := rfl
@[simp] theorem State.setAnswer_rom (x : BitVec 32) : (s.setAnswer x).rom = s.rom := rfl
@[simp] theorem State.setAnswer_pending (x : BitVec 32) : (s.setAnswer x).pending = s.pending := rfl
@[simp] theorem State.setAnswer_answer (x : BitVec 32) : (s.setAnswer x).answer = x := rfl

/-! ### `State.setPending` -/

@[simp] theorem State.setPending_l (x : List HostAction) : (s.setPending x).l = s.l := rfl
@[simp] theorem State.setPending_r (x : List HostAction) : (s.setPending x).r = s.r := rfl
@[simp] theorem State.setPending_w (x : List HostAction) : (s.setPending x).w = s.w := rfl
@[simp] theorem State.setPending_sk (x : List HostAction) : (s.setPending x).sk = s.sk := rfl
@[simp] theorem State.setPending_key (x : List HostAction) : (s.setPending x).key = s.key := rfl
@[simp] theorem State.setPending_rc (x : List HostAction) : (s.setPending x).rc = s.rc := rfl
@[simp] theorem State.setPending_c (x : List HostAction) : (s.setPending x).c = s.c := rfl
@[simp] theorem State.setPending_upc (x : List HostAction) : (s.setPending x).upc = s.upc := rfl
@[simp] theorem State.setPending_opr (x : List HostAction) : (s.setPending x).opr = s.opr := rfl
@[simp] theorem State.setPending_varr (x : List HostAction) : (s.setPending x).varr = s.varr := rfl
@[simp] theorem State.setPending_nrr (x : List HostAction) : (s.setPending x).nrr = s.nrr := rfl
@[simp] theorem State.setPending_dlenr (x : List HostAction) : (s.setPending x).dlenr = s.dlenr := rfl
@[simp] theorem State.setPending_klenr (x : List HostAction) : (s.setPending x).klenr = s.klenr := rfl
@[simp] theorem State.setPending_cmd (x : List HostAction) : (s.setPending x).cmd = s.cmd := rfl
@[simp] theorem State.setPending_status (x : List HostAction) : (s.setPending x).status = s.status := rfl
@[simp] theorem State.setPending_err (x : List HostAction) : (s.setPending x).err = s.err := rfl
@[simp] theorem State.setPending_buf (x : List HostAction) : (s.setPending x).buf = s.buf := rfl
@[simp] theorem State.setPending_rom (x : List HostAction) : (s.setPending x).rom = s.rom := rfl
@[simp] theorem State.setPending_pending (x : List HostAction) : (s.setPending x).pending = x := rfl
@[simp] theorem State.setPending_answer (x : List HostAction) : (s.setPending x).answer = s.answer := rfl

/-! ### `State.advance` -/

@[simp] theorem State.advance_l : s.advance.l = s.l := rfl
@[simp] theorem State.advance_r : s.advance.r = s.r := rfl
@[simp] theorem State.advance_w : s.advance.w = s.w := rfl
@[simp] theorem State.advance_sk : s.advance.sk = s.sk := rfl
@[simp] theorem State.advance_key : s.advance.key = s.key := rfl
@[simp] theorem State.advance_rc : s.advance.rc = s.rc := rfl
@[simp] theorem State.advance_c : s.advance.c = s.c := rfl
@[simp] theorem State.advance_upc : s.advance.upc = s.upc + 1 := rfl
@[simp] theorem State.advance_opr : s.advance.opr = s.opr := rfl
@[simp] theorem State.advance_varr : s.advance.varr = s.varr := rfl
@[simp] theorem State.advance_nrr : s.advance.nrr = s.nrr := rfl
@[simp] theorem State.advance_dlenr : s.advance.dlenr = s.dlenr := rfl
@[simp] theorem State.advance_klenr : s.advance.klenr = s.klenr := rfl
@[simp] theorem State.advance_cmd : s.advance.cmd = s.cmd := rfl
@[simp] theorem State.advance_status : s.advance.status = s.status := rfl
@[simp] theorem State.advance_err : s.advance.err = s.err := rfl
@[simp] theorem State.advance_buf : s.advance.buf = s.buf := rfl
@[simp] theorem State.advance_rom : s.advance.rom = s.rom := rfl
@[simp] theorem State.advance_pending : s.advance.pending = s.pending := rfl
@[simp] theorem State.advance_answer : s.advance.answer = s.answer := rfl

/-! ### `State.raiseError` -/

@[simp] theorem State.raiseError_l (e : ErrorCode) : (s.raiseError e).l = s.l := rfl
@[simp] theorem State.raiseError_r (e : ErrorCode) : (s.raiseError e).r = s.r := rfl
@[simp] theorem State.raiseError_w (e : ErrorCode) : (s.raiseError e).w = s.w := rfl
@[simp] theorem State.raiseError_sk (e : ErrorCode) : (s.raiseError e).sk = s.sk := rfl
@[simp] theorem State.raiseError_key (e : ErrorCode) : (s.raiseError e).key = s.key := rfl
@[simp] theorem State.raiseError_rc (e : ErrorCode) : (s.raiseError e).rc = s.rc := rfl
@[simp] theorem State.raiseError_c (e : ErrorCode) : (s.raiseError e).c = s.c := rfl
@[simp] theorem State.raiseError_upc (e : ErrorCode) : (s.raiseError e).upc = s.upc := rfl
@[simp] theorem State.raiseError_opr (e : ErrorCode) : (s.raiseError e).opr = s.opr := rfl
@[simp] theorem State.raiseError_varr (e : ErrorCode) : (s.raiseError e).varr = s.varr := rfl
@[simp] theorem State.raiseError_nrr (e : ErrorCode) : (s.raiseError e).nrr = s.nrr := rfl
@[simp] theorem State.raiseError_dlenr (e : ErrorCode) : (s.raiseError e).dlenr = s.dlenr := rfl
@[simp] theorem State.raiseError_klenr (e : ErrorCode) : (s.raiseError e).klenr = s.klenr := rfl
@[simp] theorem State.raiseError_cmd (e : ErrorCode) : (s.raiseError e).cmd = s.cmd := rfl
@[simp] theorem State.raiseError_status (e : ErrorCode) : (s.raiseError e).status = .error := rfl
@[simp] theorem State.raiseError_err (e : ErrorCode) : (s.raiseError e).err = e := rfl
@[simp] theorem State.raiseError_buf (e : ErrorCode) : (s.raiseError e).buf = s.buf := rfl
@[simp] theorem State.raiseError_rom (e : ErrorCode) : (s.raiseError e).rom = s.rom := rfl
@[simp] theorem State.raiseError_pending (e : ErrorCode) : (s.raiseError e).pending = s.pending := rfl
@[simp] theorem State.raiseError_answer (e : ErrorCode) : (s.raiseError e).answer = s.answer := rfl

/-! ### `State.clearDataPath` -/

@[simp] theorem State.clearDataPath_l : s.clearDataPath.l = Vector.replicate 4 0 := rfl
@[simp] theorem State.clearDataPath_r : s.clearDataPath.r = Vector.replicate 4 0 := rfl
@[simp] theorem State.clearDataPath_w : s.clearDataPath.w = Vector.replicate 4 0 := rfl
@[simp] theorem State.clearDataPath_sk : s.clearDataPath.sk = Vector.replicate 4 0 := rfl
@[simp] theorem State.clearDataPath_key : s.clearDataPath.key = Vector.replicate 32 0 := rfl
@[simp] theorem State.clearDataPath_rc : s.clearDataPath.rc = 0 := rfl
@[simp] theorem State.clearDataPath_c : s.clearDataPath.c = 0 := rfl
@[simp] theorem State.clearDataPath_upc : s.clearDataPath.upc = s.upc := rfl
@[simp] theorem State.clearDataPath_opr : s.clearDataPath.opr = s.opr := rfl
@[simp] theorem State.clearDataPath_varr : s.clearDataPath.varr = s.varr := rfl
@[simp] theorem State.clearDataPath_nrr : s.clearDataPath.nrr = s.nrr := rfl
@[simp] theorem State.clearDataPath_dlenr : s.clearDataPath.dlenr = s.dlenr := rfl
@[simp] theorem State.clearDataPath_klenr : s.clearDataPath.klenr = s.klenr := rfl
@[simp] theorem State.clearDataPath_cmd : s.clearDataPath.cmd = s.cmd := rfl
@[simp] theorem State.clearDataPath_status : s.clearDataPath.status = s.status := rfl
@[simp] theorem State.clearDataPath_err : s.clearDataPath.err = s.err := rfl
@[simp] theorem State.clearDataPath_buf : s.clearDataPath.buf = s.buf := rfl
@[simp] theorem State.clearDataPath_rom : s.clearDataPath.rom = s.rom := rfl
@[simp] theorem State.clearDataPath_pending : s.clearDataPath.pending = s.pending := rfl
@[simp] theorem State.clearDataPath_answer : s.clearDataPath.answer = s.answer := rfl

/-! ### `resetBlock` -/

@[simp] theorem resetBlock_l : (resetBlock s).l = State.reset.l := rfl
@[simp] theorem resetBlock_r : (resetBlock s).r = State.reset.r := rfl
@[simp] theorem resetBlock_w : (resetBlock s).w = State.reset.w := rfl
@[simp] theorem resetBlock_sk : (resetBlock s).sk = State.reset.sk := rfl
@[simp] theorem resetBlock_key : (resetBlock s).key = State.reset.key := rfl
@[simp] theorem resetBlock_rc : (resetBlock s).rc = State.reset.rc := rfl
@[simp] theorem resetBlock_c : (resetBlock s).c = State.reset.c := rfl
@[simp] theorem resetBlock_upc : (resetBlock s).upc = State.reset.upc := rfl
@[simp] theorem resetBlock_opr : (resetBlock s).opr = State.reset.opr := rfl
@[simp] theorem resetBlock_varr : (resetBlock s).varr = State.reset.varr := rfl
@[simp] theorem resetBlock_nrr : (resetBlock s).nrr = State.reset.nrr := rfl
@[simp] theorem resetBlock_dlenr : (resetBlock s).dlenr = State.reset.dlenr := rfl
@[simp] theorem resetBlock_klenr : (resetBlock s).klenr = State.reset.klenr := rfl
@[simp] theorem resetBlock_cmd : (resetBlock s).cmd = State.reset.cmd := rfl
@[simp] theorem resetBlock_status : (resetBlock s).status = State.reset.status := rfl
@[simp] theorem resetBlock_err : (resetBlock s).err = State.reset.err := rfl
@[simp] theorem resetBlock_buf : (resetBlock s).buf = State.reset.buf := rfl
@[simp] theorem resetBlock_rom : (resetBlock s).rom = s.rom := rfl
@[simp] theorem resetBlock_pending : (resetBlock s).pending = s.pending := rfl
@[simp] theorem resetBlock_answer : (resetBlock s).answer = s.answer := rfl

/-! ### `startCommand` and `refuseCommand` -/

/-- A command word written while BUSY changes nothing (20_memory.md R71). -/
theorem startCommand_of_busy {s : State} (h : s.status = .busy) (op : BitVec 5) (var : BitVec 2) (rounds dlen klen nr : BitVec 8)
    (entry : BitVec 7) : startCommand s op var rounds dlen klen nr entry = s := if_pos h

/-- A command word written while not BUSY: R84's writes and no other. -/
theorem startCommand_of_not_busy {s : State} (h : s.status ≠ .busy) (op : BitVec 5) (var : BitVec 2)
    (rounds dlen klen nr : BitVec 8) (entry : BitVec 7) :
    startCommand s op var rounds dlen klen nr entry =
      { s with
        cmd := commandWord op var rounds dlen klen, opr := op, varr := var, nrr := nr, dlenr := dlen, klenr := klen,
        err := .none, status := .busy, upc := entry } := if_neg h

/-- A reserved word written while BUSY changes nothing (20_memory.md R71). -/
theorem refuseCommand_of_busy {s : State} (h : s.status = .busy) (word : BitVec 32) : refuseCommand s word = s := if_pos h

/-- A reserved word written while not BUSY: R85's writes and no other. -/
theorem refuseCommand_of_not_busy {s : State} (h : s.status ≠ .busy) (word : BitVec 32) :
    refuseCommand s word = { s with cmd := word, status := .error, err := .unsupportedVariant } := if_neg h

end Sys2Proof.Machine
end

