-- ==== Sys2Proof/Laws/Ops.lean ====
section
/-! SUPPORT. For each shared operation, once: everything it can do. Later proofs cite these instead of unfolding the operation. -/

namespace Sys2Proof.Machine

/-! ### Variants and targets -/

/-- With a variant selected, the rule runs at it. -/
theorem atVariant_of_some {s : State} {v : Variant} (h : Variant.ofSelector s.varr = some v) (rule : Variant → State) :
    atVariant s rule = .next (rule v).advance := by simp [atVariant, h]

/-- With no variant selected, a fault. -/
theorem atVariant_of_none {s : State} (h : Variant.ofSelector s.varr = none) (rule : Variant → State) :
    atVariant s rule = .fault .noVariantSelected := by simp [atVariant, h]

/-- If `atVariant` answers a next state, a variant was selected and its rule ran. -/
theorem atVariant_next {s t : State} {rule : Variant → State} (h : atVariant s rule = .next t) :
    ∃ v, Variant.ofSelector s.varr = some v ∧ t = (rule v).advance := by
  unfold atVariant at h
  split at h
  · next v hv => exact ⟨v, hv, (Host.Outcome.next.inj h).symm⟩
  · cases h

/-- `atVariant` never refuses. -/
theorem atVariant_ne_refused {s : State} {rule : Variant → State} {r : Refusal} : atVariant s rule ≠ .refused r := by
  unfold atVariant; split <;> simp

/-- With a target in range, the rule runs (30_encoding.md R88). -/
theorem atTarget_of_le {target : BitVec 8} (h : target ≤ 0x7F#8) (rule : BitVec 7 → State) :
    atTarget target rule = .next (rule (target.setWidth 7)) := if_pos h

/-- With a target above the ROM, the instruction is refused (R87). -/
theorem atTarget_of_not_le {target : BitVec 8} (h : ¬ target ≤ 0x7F#8) (rule : BitVec 7 → State) :
    atTarget target rule = .refused .illegalMicroOperation := if_neg h

/-- If `atTarget` answers a next state, the target was in range and the rule ran. -/
theorem atTarget_next {t : State} {target : BitVec 8} {rule : BitVec 7 → State} (h : atTarget target rule = .next t) :
    target ≤ 0x7F#8 ∧ t = rule (target.setWidth 7) := by
  unfold atTarget at h
  split at h
  · next hle => exact ⟨hle, (Host.Outcome.next.inj h).symm⟩
  · cases h

/-! ### CHK -/

/-- CHK with everything right goes on (45_engine.md R214). -/
theorem execChk_pass {s : State} {v : Variant} (hv : Variant.ofSelector s.varr = some v)
    (h : lengthsMatch v s.dlenr s.klenr = true) : execChk s = .next s.advance := by simp [execChk, hv, h]

/-- CHK always answers a next state: it goes on, or it raises one of the two errors (60_exceptions.md R260). -/
theorem execChk_cases (s : State) :
    execChk s = .next s.advance ∨ execChk s = .next (s.raiseError .unsupportedVariant) ∨
      execChk s = .next (s.raiseError .invalidLength) := by
  unfold execChk
  split
  · exact .inr (.inl rfl)
  · split
    · exact .inl rfl
    · exact .inr (.inr rfl)

/-! ### The engine's step -/

/-- Without BUSY the engine has no step (45_engine.md R210). -/
theorem engineStep_of_not_busy {ex : Instr → State → Result} {s : State} (h : s.status ≠ .busy) : engineStep ex s = .next s :=
  if_neg h

/-- While BUSY the engine runs what it fetched (R210). -/
theorem engineStep_of_busy {ex : Instr → State → Result} {s : State} {i : Instr} (h : s.status = .busy)
    (hi : decodeMicro (fetchWord s) = .ok i) : engineStep ex s = ex i s := by simp [engineStep, h, hi]

/-- If the engine's step answers a next state, either it had none, or it ran the micro-operation it fetched. -/
theorem engineStep_next {ex : Instr → State → Result} {s t : State} (h : engineStep ex s = .next t) :
    (s.status ≠ .busy ∧ t = s) ∨ (s.status = .busy ∧ ∃ i, decodeMicro (fetchWord s) = .ok i ∧ ex i s = .next t) := by
  unfold engineStep at h
  split at h
  · next hb =>
    split at h
    · next i hi => exact .inr ⟨hb, i, hi, h⟩
    · cases h
  · next hb => exact .inl ⟨hb, (Host.Outcome.next.inj h).symm⟩

/-! ### The host's accesses -/

/-- If a 32-bit read answers a next state, only the answer changed (20_memory.md R69). -/
theorem hostReadWord_next {s t : State} {offset : Nat} (h : hostReadWord offset s = .next t) : ∃ x, t = s.setAnswer x := by
  unfold hostReadWord at h
  split_ifs at h
  · exact ⟨_, (Host.Outcome.next.inj h).symm⟩
  · exact ⟨_, (Host.Outcome.next.inj h).symm⟩

/-- If a byte read answers a next state, only the answer changed (R69). -/
theorem hostReadByte_next {s t : State} {offset : Nat} (h : hostReadByte offset s = .next t) : ∃ x, t = s.setAnswer x := by
  unfold hostReadByte at h
  split_ifs at h
  · exact ⟨_, (Host.Outcome.next.inj h).symm⟩
  · exact ⟨_, (Host.Outcome.next.inj h).symm⟩

/-- While BUSY a write in the window is ignored (R71). -/
theorem hostWrite_of_busy {s : State} (h : s.status = .busy) {offset width : Nat} (hw : offset + width ≤ windowEnd) (rule : Result) :
    hostWrite offset width s rule = .next s := if_pos ⟨h, hw⟩

/-- Without BUSY a write follows its rule. -/
theorem hostWrite_of_not_busy {s : State} (h : s.status ≠ .busy) (offset width : Nat) (rule : Result) :
    hostWrite offset width s rule = rule := if_neg fun c => h c.1

/-- If a write answers a next state, it was ignored, or its rule ran with BUSY off or the write not in the window. -/
theorem hostWrite_next {s t : State} {offset width : Nat} {rule : Result} (h : hostWrite offset width s rule = .next t) :
    t = s ∨ (¬(s.status = .busy ∧ offset + width ≤ windowEnd) ∧ rule = .next t) := by
  unfold hostWrite at h
  split at h
  · exact .inl (Host.Outcome.next.inj h).symm
  · next hc => exact .inr ⟨hc, h⟩

/-- If a byte write answers a next state, nothing changed, or the status was not BUSY and one byte of `DIN` or `KIN` was
written (R60, R71). -/
theorem hostWriteByte_next {s t : State} {offset : Nat} {value : BitVec 8} (h : hostWriteByte offset value s = .next t) :
    t = s ∨ (s.status ≠ .busy ∧ dinBase ≤ offset ∧ offset < doutBase ∧ t = s.setBuf (writeBuffer s.buf offset value)) := by
  rcases hostWrite_next h with rfl | ⟨hc, h⟩
  · exact .inl rfl
  · split_ifs at h with h1 h2
    · refine .inr ⟨fun hb => hc ⟨hb, ?_⟩, h1.1, h1.2, (Host.Outcome.next.inj h).symm⟩
      simp only [doutBase, windowEnd] at *; omega
    · exact .inl (Host.Outcome.next.inj h).symm

/-- If a half-word write answers a next state, nothing changed (R66, R71). -/
theorem hostWriteHalf_next {s t : State} {offset : Nat} (h : hostWriteHalf offset s = .next t) : t = s := by
  rcases hostWrite_next h with rfl | ⟨-, h⟩
  · rfl
  · cases h

/-- If a 32-bit write answers a next state, nothing changed, or a word reached `CMD` with BUSY off (R60, R71). -/
theorem hostWriteWord_next {ex : Instr → State → Result} {s t : State} {offset : Nat} {value : BitVec 32}
    (h : hostWriteWord ex offset value s = .next t) :
    t = s ∨ (s.status ≠ .busy ∧ offset = 0 ∧ hostWriteCmd ex value s = .next t) := by
  rcases hostWrite_next h with rfl | ⟨hc, h⟩
  · exact .inl rfl
  · split_ifs at h with h1 h2
    · exact .inr ⟨fun hb => hc ⟨hb, by simp [h1, windowEnd]⟩, h1, h⟩
    · exact .inl (Host.Outcome.next.inj h).symm

/-- If a write to `CMD` answers a next state, the word decoded and its command ran, or it was reserved and was refused
(30_encoding.md R84, R85). -/
theorem hostWriteCmd_next {ex : Instr → State → Result} {s t : State} {word : BitVec 32}
    (h : hostWriteCmd ex word s = .next t) :
    (∃ i, decodeCommand word = .ok i ∧ ex i s = .next t) ∨ (∃ e, decodeCommand word = .error e ∧ t = refuseCommand s word) := by
  unfold hostWriteCmd at h
  split at h
  · next i hi => exact .inl ⟨i, hi, h⟩
  · next e he => exact .inr ⟨e, he, (Host.Outcome.next.inj h).symm⟩

/-! ### One step of the machine -/

/-- Nothing pending: the engine's step. -/
theorem step_of_nothing_pending {s : State} (h : s.pending = []) : step s = engineStep exec s := by simp [step, stepBy, h]

/-- An action pending: the host side's step, with the action taken off. -/
theorem step_of_pending {s : State} {action : HostAction} {rest : List HostAction} (h : s.pending = action :: rest) :
    step s = hostStep exec action (s.setPending rest) := by simp [step, stepBy, h]

/-- If a step answers a next state, one of the two agents moved (00_scope.md R15). -/
theorem step_next {s t : State} (h : step s = .next t) :
    (s.pending = [] ∧ engineStep exec s = .next t) ∨
      (∃ action rest, s.pending = action :: rest ∧ hostStep exec action (s.setPending rest) = .next t) := by
  unfold step stepBy at h
  split at h
  · next hp => exact .inl ⟨hp, h⟩
  · next action rest hp => exact .inr ⟨action, rest, hp, h⟩

/-- Fetching from a ROM as R212 lists it. -/
theorem fetchWord_of_rom_nil {s : State} (h : s.rom = []) : fetchWord s = microprogram s.upc.toNat := by
  simp [fetchWord, readRom, h, Memory.read]

end Sys2Proof.Machine
end

