-- ==== Sys2Proof/Laws/Exec.lean ====
section
/-! SUPPORT. What each micro-operation answers with a variant selected, in the shared operations; and what decoding a word can give. -/

namespace Sys2Proof.Machine

section
variable {s : State} {v : Variant} (h : Variant.ofSelector s.varr = some v)
include h

theorem exec_ldkey : exec .ldkey s = .next (State.advance ((s.setKey (putKey v s.key (Vector.ofFn fun i => kinByte s i.val))).setRc (putRc v s.rc 0))) :=
  atVariant_of_some h _

theorem exec_ldblk : exec .ldblk s = .next (State.advance ((s.setL (putLanes v s.l (leftHalf v (dinByte s)))).setR (putLanes v s.r (rightHalf v (dinByte s))))) :=
  atVariant_of_some h _

theorem exec_stblk : exec .stblk s = .next (State.advance (s.setBuf (writeBufferRun s.buf doutBase (blockByte v (lanesAt v s.l) (lanesAt v s.r)) v.bb))) :=
  atVariant_of_some h _

theorem exec_rotf : exec .rotf s = .next (State.advance (s.setKey (putKey v s.key (rotF Config.cfg v (keyAt v s.key))))) :=
  atVariant_of_some h _

theorem exec_rotb : exec .rotb s = .next (State.advance (s.setKey (putKey v s.key (rotB Config.cfg v (keyAt v s.key))))) :=
  atVariant_of_some h _

theorem exec_rcadv : exec .rcadv s = .next (State.advance (s.setRc (putRc v s.rc (adv Config.cfg v (rcAt v s.rc))))) :=
  atVariant_of_some h _

theorem exec_rcret : exec .rcret s = .next (State.advance (s.setRc (putRc v s.rc (ret Config.cfg v (rcAt v s.rc))))) :=
  atVariant_of_some h _

theorem exec_sktake : exec .sktake s = .next (State.advance (s.setSk (putLanes v s.sk (take v (keyAt v s.key))))) :=
  atVariant_of_some h _

theorem exec_skadd : exec .skadd s = .next (State.advance (s.setSk (putLanes v s.sk (addConstant (lanesAt v s.sk) (rcAt v s.rc))))) :=
  atVariant_of_some h _

theorem exec_sksub : exec .sksub s = .next (State.advance (s.setSk (putLanes v s.sk (subConstant (lanesAt v s.sk) (rcAt v s.rc))))) :=
  atVariant_of_some h _

theorem exec_skfold : exec .skfold s = .next (State.advance (s.setKey (putKey v s.key (fold v (keyAt v s.key) (lanesAt v s.sk))))) :=
  atVariant_of_some h _

theorem exec_wldl : exec .wldl s = .next (State.advance (s.setW (putLanes v s.w (lanesAt v s.l)))) :=
  atVariant_of_some h _

theorem exec_wldr : exec .wldr s = .next (State.advance (s.setW (putLanes v s.w (lanesAt v s.r)))) :=
  atVariant_of_some h _

theorem exec_shift : exec .shift s = .next (State.advance (s.setW (putLanes v s.w (shiftLanes Config.cfg v (lanesAt v s.w))))) :=
  atVariant_of_some h _

theorem exec_xorsk : exec .xorsk s = .next (State.advance (s.setW (putLanes v s.w (xorLanes (lanesAt v s.w) (lanesAt v s.sk))))) :=
  atVariant_of_some h _

theorem exec_beta : exec .beta s = .next (State.advance (s.setW (putLanes v s.w (beta Config.cfg.nibLsbLane0 (lanesAt v s.w))))) :=
  atVariant_of_some h _

theorem exec_switch : exec .switch s = .next (State.advance (s.setW (putLanes v s.w (switchLanes Config.cfg v (lanesAt v s.w))))) :=
  atVariant_of_some h _

theorem exec_xfr : exec .xfr s = .next (State.advance (s.setR (putLanes v s.r (xorLanes (lanesAt v s.r) (lanesAt v s.w))))) :=
  atVariant_of_some h _

theorem exec_xfl : exec .xfl s = .next (State.advance (s.setL (putLanes v s.l (xorLanes (lanesAt v s.l) (lanesAt v s.w))))) :=
  atVariant_of_some h _

end

/-- What a command word that decodes runs: the acceptance of its own word (30_encoding.md R84). -/
theorem decodeCommand_ok {word : BitVec 32} {i : Instr} (h : decodeCommand word = .ok i) :
    (i = .enc (fieldVar word) (fieldRounds word) (fieldDlen word) (fieldKlen word) ∧ fieldOp word = 0) ∨
      (i = .dec (fieldVar word) (fieldRounds word) (fieldDlen word) (fieldKlen word) ∧ fieldOp word = 1) ∨
      (i = .encs (fieldVar word) (fieldRounds word) (fieldDlen word) (fieldKlen word) ∧ fieldOp word = 2) ∨
      (i = .decs (fieldVar word) (fieldRounds word) (fieldDlen word) (fieldKlen word) ∧ fieldOp word = 3) := by
  unfold decodeCommand at h
  split at h
  · cases h
  · split at h
    · next hop => exact .inl ⟨(Except.ok.inj h).symm, BitVec.eq_of_toNat_eq hop⟩
    · next hop => exact .inr (.inl ⟨(Except.ok.inj h).symm, BitVec.eq_of_toNat_eq hop⟩)
    · next hop => exact .inr (.inr (.inl ⟨(Except.ok.inj h).symm, BitVec.eq_of_toNat_eq hop⟩))
    · next hop => exact .inr (.inr (.inr ⟨(Except.ok.inj h).symm, BitVec.eq_of_toNat_eq hop⟩))
    · cases h

/-- A command runs as `startCommand` with fields of its own (30_encoding.md R84). -/
theorem exec_of_decodeCommand {word : BitVec 32} {i : Instr} (h : decodeCommand word = .ok i) (s : State) :
    ∃ op nr entry, exec i s = .next (startCommand s op (fieldVar word) (fieldRounds word) (fieldDlen word) (fieldKlen word) nr entry)
      ∧ ((op = 0 ∧ entry = 0x00) ∨ (op = 1 ∧ entry = 0x20) ∨ (op = 2 ∧ entry = 0x00) ∨ (op = 3 ∧ entry = 0x20)) := by
  rcases decodeCommand_ok h with ⟨rfl, -⟩ | ⟨rfl, -⟩ | ⟨rfl, -⟩ | ⟨rfl, -⟩
  · exact ⟨0, _, 0x00, rfl, .inl ⟨rfl, rfl⟩⟩
  · exact ⟨1, _, 0x20, rfl, .inr (.inl ⟨rfl, rfl⟩)⟩
  · exact ⟨2, _, 0x00, rfl, .inr (.inr (.inl ⟨rfl, rfl⟩))⟩
  · exact ⟨3, _, 0x20, rfl, .inr (.inr (.inr ⟨rfl, rfl⟩))⟩

/-- `decodePlain` answers only with a zero `ARG`. -/
theorem decodePlain_ok {arg : BitVec 8} {i j : Instr} (h : decodePlain arg i = .ok j) : arg = 0 ∧ j = i := by
  unfold decodePlain at h
  split at h
  · next h0 => exact ⟨h0, (Except.ok.inj h).symm⟩
  · cases h

/-- `decodeTarget` answers only with a target in range. -/
theorem decodeTarget_ok {arg : BitVec 8} {i : BitVec 8 → Instr} {j : Instr} (h : decodeTarget arg i = .ok j) :
    arg ≤ 0x7F#8 ∧ j = i arg := by
  unfold decodeTarget at h
  split at h
  · next h0 => exact ⟨h0, (Except.ok.inj h).symm⟩
  · cases h

end Sys2Proof.Machine
end

