-- ==== Sys2Proof/Laws/Frame.lean ====
section
/-! SUPPORT. The frame of a register update followed by `UPC <- UPC + 1`, said with the registers as variables, so that no proof
compares the values written; and the two frames of the buffers. -/

namespace Sys2Proof.Machine

variable (s : State)

theorem State.setL_advance_frame (x : Lanes 32) :
    (s.setL x).advance = { s with l := (s.setL x).advance.l, upc := s.upc + 1 } := rfl

theorem State.setR_advance_frame (x : Lanes 32) :
    (s.setR x).advance = { s with r := (s.setR x).advance.r, upc := s.upc + 1 } := rfl

theorem State.setW_advance_frame (x : Lanes 32) :
    (s.setW x).advance = { s with w := (s.setW x).advance.w, upc := s.upc + 1 } := rfl

theorem State.setSk_advance_frame (x : Lanes 32) :
    (s.setSk x).advance = { s with sk := (s.setSk x).advance.sk, upc := s.upc + 1 } := rfl

theorem State.setKey_advance_frame (x : Vector Byte 32) :
    (s.setKey x).advance = { s with key := (s.setKey x).advance.key, upc := s.upc + 1 } := rfl

theorem State.setRc_advance_frame (x : BitVec 128) :
    (s.setRc x).advance = { s with rc := (s.setRc x).advance.rc, upc := s.upc + 1 } := rfl

theorem State.setC_advance_frame (x : BitVec 9) :
    (s.setC x).advance = { s with c := (s.setC x).advance.c, upc := s.upc + 1 } := rfl

theorem State.setBuf_advance_frame (x : List Host.Cell) :
    (s.setBuf x).advance = { s with buf := (s.setBuf x).advance.buf, upc := s.upc + 1 } := rfl

/-- The frame of LDKEY. -/
theorem State.setKey_setRc_advance_frame (k : Vector Byte 32) (x : BitVec 128) :
    ((s.setKey k).setRc x).advance =
      { s with key := ((s.setKey k).setRc x).advance.key, rc := ((s.setKey k).setRc x).advance.rc, upc := s.upc + 1 } := rfl

/-- The frame of LDBLK. -/
theorem State.setL_setR_advance_frame (x y : Lanes 32) :
    ((s.setL x).setR y).advance =
      { s with l := ((s.setL x).setR y).advance.l, r := ((s.setL x).setR y).advance.r, upc := s.upc + 1 } := rfl

/-- Equal buffers agree. -/
theorem buffersAgree_of_eq {s t : State} (h : t.buf = s.buf) : buffersAgree s t := fun _ => by rw [h]

/-- A sum over four physical lanes is their integer at the variant's width (00_scope.md R22). -/
theorem laneSum_eq (v : Variant) (x : Lanes 32) :
    laneSum v.lw x = (lanesAt v x)[0].toNat + (lanesAt v x)[1].toNat * 2 ^ v.lw + (lanesAt v x)[2].toNat * 2 ^ (2 * v.lw) +
      (lanesAt v x)[3].toNat * 2 ^ (3 * v.lw) := by
  simp only [laneSum, lanesAt, Vector.getElem_ofFn, Fin.getElem_fin]

end Sys2Proof.Machine
end

