-- ==== Sys2Proof/Laws/Run.lean ====
section
/-! SUPPORT. Runs of the machine: one more step, two runs in a row, and the engine running R212's program with the host silent. -/

namespace Sys2Proof.Machine

/-- A run whose first step answers a next state goes on from there. -/
theorem run_of_step (M : Host.Core) {s t : M.State} (h : M.step s = .next t) (k : Nat) : M.run (k + 1) s = M.run k t := by
  rw [Host.Core.run, h]

/-- A run goes on from where a shorter one arrived. -/
theorem run_append (M : Host.Core) {j : Nat} : ∀ {s t : M.State}, M.run j s = .next t → ∀ k, M.run (j + k) s = M.run k t := by
  induction j with
  | zero => intro s t h k; cases h; rw [Nat.zero_add]
  | succ j ih =>
    intro s t h k
    rw [Nat.add_right_comm]
    rw [Host.Core.run] at h ⊢
    cases hs : M.step s with
    | next u => rw [hs] at h; exact ih h k
    | fault r => rw [hs] at h; cases h
    | refused r => rw [hs] at h; cases h

/-- The machine's own form of `run_of_step`. -/
theorem run_step {s t : State} (h : step s = .next t) (k : Nat) :
    Host.Core.run Sys2Proof.core (k + 1) s = Host.Core.run Sys2Proof.core k t := run_of_step Sys2Proof.core h k

/-- The machine's own form of `run_append`. -/
theorem run_add {s t : State} {j : Nat} (h : Host.Core.run Sys2Proof.core j s = .next t) (k : Nat) :
    Host.Core.run Sys2Proof.core (j + k) s = Host.Core.run Sys2Proof.core k t := run_append Sys2Proof.core h k

/-- The engine runs the program of R212 under the variant, and the host is silent. -/
structure Running (v : Variant) (s : State) : Prop where
  busy : s.status = .busy
  rom : s.rom = []
  silent : s.pending = []
  variant : Variant.ofSelector s.varr = some v

/-- While the engine runs, a step is the micro-operation that R212 lists at the counter (45_engine.md R210). -/
theorem step_running {v : Variant} {s : State} (h : Running v s) {a : BitVec 7} (ha : s.upc = a) {i : Instr}
    (hi : decodeMicro (microprogram a.toNat) = .ok i) : step s = exec i s := by
  rw [step_of_nothing_pending h.silent, engineStep_of_busy h.busy]
  rw [fetchWord_of_rom_nil h.rom, ha, hi]

/-- A run of the engine takes its first micro-operation. -/
theorem run_running {v : Variant} {s t : State} (k : Nat) {a : BitVec 7} {i : Instr} (h : Running v s) (ha : s.upc = a)
    (hi : decodeMicro (microprogram a.toNat) = .ok i) (he : exec i s = .next t) :
    Host.Core.run Sys2Proof.core (k + 1) s = Host.Core.run Sys2Proof.core k t :=
  run_step ((step_running h ha hi).trans he) k

/-- Everything but the data path and the sequencer is as before. -/
structure SameSurface (s t : State) : Prop where
  opr : t.opr = s.opr
  varr : t.varr = s.varr
  nrr : t.nrr = s.nrr
  dlenr : t.dlenr = s.dlenr
  klenr : t.klenr = s.klenr
  cmd : t.cmd = s.cmd
  status : t.status = s.status
  err : t.err = s.err
  buf : t.buf = s.buf
  rom : t.rom = s.rom
  pending : t.pending = s.pending
  answer : t.answer = s.answer

/-- What keeps the surface keeps the engine running. -/
theorem SameSurface.running {v : Variant} {s t : State} (h : SameSurface s t) (hr : Running v s) : Running v t :=
  ⟨h.status ▸ hr.busy, h.rom ▸ hr.rom, h.pending ▸ hr.silent, h.varr ▸ hr.variant⟩

/-- One after the other. -/
theorem SameSurface.trans {s t u : State} (h : SameSurface s t) (g : SameSurface t u) : SameSurface s u := by
  cases h; cases g; constructor <;> simp_all

/-- The data path of the machine holds the working values of the cipher (10_state.md R30, R33, R34). -/
structure Represents {v : Variant} (st : Feistel v) (s : State) : Prop where
  l : lanesAt v s.l = st.l
  r : lanesAt v s.r = st.r
  key : keyAt v s.key = st.key
  rc : rcAt v s.rc = st.rc

/-- BRZ with `C = 0` (45_engine.md R217). -/
theorem exec_brz_taken {s : State} {target : BitVec 8} (ht : target ≤ 0x7F#8) (hc : s.c = 0) :
    exec (.brz target) s = .next (s.setUpc (target.setWidth 7)) :=
  (atTarget_of_le ht fun t => if s.c = 0 then s.setUpc t else s.advance).trans (by rw [if_pos hc])

/-- BRZ with `C` not zero (R217). -/
theorem exec_brz_not_taken {s : State} {target : BitVec 8} (ht : target ≤ 0x7F#8) (hc : s.c ≠ 0) :
    exec (.brz target) s = .next s.advance :=
  (atTarget_of_le ht fun t => if s.c = 0 then s.setUpc t else s.advance).trans (by rw [if_neg hc])

/-- DECJ with a target in range (R218). -/
theorem exec_decj {s : State} {target : BitVec 8} (ht : target ≤ 0x7F#8) :
    exec (.decj target) s = .next ((s.setC (s.c - 1)).setUpc (target.setWidth 7)) :=
  atTarget_of_le ht fun t => (s.setC (s.c - 1)).setUpc t

end Sys2Proof.Machine
end

