-- ==== Sys2Proof/Laws/Macros.lean ====
section
/-! SUPPORT. The five macros of 30_encoding.md R95, run on the machine, are the functions of 45_engine.md R220 to R227. -/

namespace Sys2Proof.Machine

/-- HRF.L at 0x05 is `HalfL` (45_engine.md R212, 30_encoding.md R95). -/
theorem run_hrfL {v : Variant} {s : State} (h : Running v s) (hu : s.upc = 0x05) {st : Feistel v} (hs : Represents st s) :
    ∃ t : State, Host.Core.run Sys2Proof.core 11 s = .next t ∧ SameSurface s t ∧ t.c = s.c ∧ t.upc = 0x10 ∧
      Represents (halfL Config.cfg v st) t := by
  rw [run_running 10 h hu (i := .wldl) rfl (exec_wldl h.variant)]
  generalize h1 : State.advance (s.setW _) = s1
  have e1 : SameSurface s s1 := (by subst h1; constructor <;> simp)
  have u1 : s1.upc = 0x06 := by subst h1; simp [hu]
  rw [run_running 9 (e1.running h) u1 (i := .shift) rfl (exec_shift (e1.running h).variant)]
  generalize h2 : State.advance (s1.setW _) = s2
  have e2 : SameSurface s s2 := e1.trans (by subst h2; constructor <;> simp)
  have u2 : s2.upc = 0x07 := by subst h2; simp [u1]
  rw [run_running 8 (e2.running h) u2 (i := .rotf) rfl (exec_rotf (e2.running h).variant)]
  generalize h3 : State.advance (s2.setKey _) = s3
  have e3 : SameSurface s s3 := e2.trans (by subst h3; constructor <;> simp)
  have u3 : s3.upc = 0x08 := by subst h3; simp [u2]
  rw [run_running 7 (e3.running h) u3 (i := .sktake) rfl (exec_sktake (e3.running h).variant)]
  generalize h4 : State.advance (s3.setSk _) = s4
  have e4 : SameSurface s s4 := e3.trans (by subst h4; constructor <;> simp)
  have u4 : s4.upc = 0x09 := by subst h4; simp [u3]
  rw [run_running 6 (e4.running h) u4 (i := .rcadv) rfl (exec_rcadv (e4.running h).variant)]
  generalize h5 : State.advance (s4.setRc _) = s5
  have e5 : SameSurface s s5 := e4.trans (by subst h5; constructor <;> simp)
  have u5 : s5.upc = 0x0A := by subst h5; simp [u4]
  rw [run_running 5 (e5.running h) u5 (i := .skadd) rfl (exec_skadd (e5.running h).variant)]
  generalize h6 : State.advance (s5.setSk _) = s6
  have e6 : SameSurface s s6 := e5.trans (by subst h6; constructor <;> simp)
  have u6 : s6.upc = 0x0B := by subst h6; simp [u5]
  rw [run_running 4 (e6.running h) u6 (i := .skfold) rfl (exec_skfold (e6.running h).variant)]
  generalize h7 : State.advance (s6.setKey _) = s7
  have e7 : SameSurface s s7 := e6.trans (by subst h7; constructor <;> simp)
  have u7 : s7.upc = 0x0C := by subst h7; simp [u6]
  rw [run_running 3 (e7.running h) u7 (i := .xorsk) rfl (exec_xorsk (e7.running h).variant)]
  generalize h8 : State.advance (s7.setW _) = s8
  have e8 : SameSurface s s8 := e7.trans (by subst h8; constructor <;> simp)
  have u8 : s8.upc = 0x0D := by subst h8; simp [u7]
  rw [run_running 2 (e8.running h) u8 (i := .beta) rfl (exec_beta (e8.running h).variant)]
  generalize h9 : State.advance (s8.setW _) = s9
  have e9 : SameSurface s s9 := e8.trans (by subst h9; constructor <;> simp)
  have u9 : s9.upc = 0x0E := by subst h9; simp [u8]
  rw [run_running 1 (e9.running h) u9 (i := .switch) rfl (exec_switch (e9.running h).variant)]
  generalize h10 : State.advance (s9.setW _) = s10
  have e10 : SameSurface s s10 := e9.trans (by subst h10; constructor <;> simp)
  have u10 : s10.upc = 0x0F := by subst h10; simp [u9]
  rw [run_running 0 (e10.running h) u10 (i := .xfr) rfl (exec_xfr (e10.running h).variant)]
  refine ⟨_, rfl, e10.trans (by constructor <;> simp), ?_, by simp [u10], ?_⟩
  · subst h10 h9 h8 h7 h6 h5 h4 h3 h2 h1; simp
  · obtain ⟨hl, hr, hk, hc⟩ := hs
    subst h10 h9 h8 h7 h6 h5 h4 h3 h2 h1
    constructor <;> simp [hl, hr, hk, hc, halfL, keyStep, roundFunction]

/-- HRF.R at 0x10 is `HalfR` (45_engine.md R212, 30_encoding.md R95). -/
theorem run_hrfR {v : Variant} {s : State} (h : Running v s) (hu : s.upc = 0x10) {st : Feistel v} (hs : Represents st s) :
    ∃ t : State, Host.Core.run Sys2Proof.core 11 s = .next t ∧ SameSurface s t ∧ t.c = s.c ∧ t.upc = 0x1B ∧
      Represents (halfR Config.cfg v st) t := by
  rw [run_running 10 h hu (i := .wldr) rfl (exec_wldr h.variant)]
  generalize h1 : State.advance (s.setW _) = s1
  have e1 : SameSurface s s1 := (by subst h1; constructor <;> simp)
  have u1 : s1.upc = 0x11 := by subst h1; simp [hu]
  rw [run_running 9 (e1.running h) u1 (i := .shift) rfl (exec_shift (e1.running h).variant)]
  generalize h2 : State.advance (s1.setW _) = s2
  have e2 : SameSurface s s2 := e1.trans (by subst h2; constructor <;> simp)
  have u2 : s2.upc = 0x12 := by subst h2; simp [u1]
  rw [run_running 8 (e2.running h) u2 (i := .rotf) rfl (exec_rotf (e2.running h).variant)]
  generalize h3 : State.advance (s2.setKey _) = s3
  have e3 : SameSurface s s3 := e2.trans (by subst h3; constructor <;> simp)
  have u3 : s3.upc = 0x13 := by subst h3; simp [u2]
  rw [run_running 7 (e3.running h) u3 (i := .sktake) rfl (exec_sktake (e3.running h).variant)]
  generalize h4 : State.advance (s3.setSk _) = s4
  have e4 : SameSurface s s4 := e3.trans (by subst h4; constructor <;> simp)
  have u4 : s4.upc = 0x14 := by subst h4; simp [u3]
  rw [run_running 6 (e4.running h) u4 (i := .rcadv) rfl (exec_rcadv (e4.running h).variant)]
  generalize h5 : State.advance (s4.setRc _) = s5
  have e5 : SameSurface s s5 := e4.trans (by subst h5; constructor <;> simp)
  have u5 : s5.upc = 0x15 := by subst h5; simp [u4]
  rw [run_running 5 (e5.running h) u5 (i := .skadd) rfl (exec_skadd (e5.running h).variant)]
  generalize h6 : State.advance (s5.setSk _) = s6
  have e6 : SameSurface s s6 := e5.trans (by subst h6; constructor <;> simp)
  have u6 : s6.upc = 0x16 := by subst h6; simp [u5]
  rw [run_running 4 (e6.running h) u6 (i := .skfold) rfl (exec_skfold (e6.running h).variant)]
  generalize h7 : State.advance (s6.setKey _) = s7
  have e7 : SameSurface s s7 := e6.trans (by subst h7; constructor <;> simp)
  have u7 : s7.upc = 0x17 := by subst h7; simp [u6]
  rw [run_running 3 (e7.running h) u7 (i := .xorsk) rfl (exec_xorsk (e7.running h).variant)]
  generalize h8 : State.advance (s7.setW _) = s8
  have e8 : SameSurface s s8 := e7.trans (by subst h8; constructor <;> simp)
  have u8 : s8.upc = 0x18 := by subst h8; simp [u7]
  rw [run_running 2 (e8.running h) u8 (i := .beta) rfl (exec_beta (e8.running h).variant)]
  generalize h9 : State.advance (s8.setW _) = s9
  have e9 : SameSurface s s9 := e8.trans (by subst h9; constructor <;> simp)
  have u9 : s9.upc = 0x19 := by subst h9; simp [u8]
  rw [run_running 1 (e9.running h) u9 (i := .switch) rfl (exec_switch (e9.running h).variant)]
  generalize h10 : State.advance (s9.setW _) = s10
  have e10 : SameSurface s s10 := e9.trans (by subst h10; constructor <;> simp)
  have u10 : s10.upc = 0x1A := by subst h10; simp [u9]
  rw [run_running 0 (e10.running h) u10 (i := .xfl) rfl (exec_xfl (e10.running h).variant)]
  refine ⟨_, rfl, e10.trans (by constructor <;> simp), ?_, by simp [u10], ?_⟩
  · subst h10 h9 h8 h7 h6 h5 h4 h3 h2 h1; simp
  · obtain ⟨hl, hr, hk, hc⟩ := hs
    subst h10 h9 h8 h7 h6 h5 h4 h3 h2 h1
    constructor <;> simp [hl, hr, hk, hc, halfR, keyStep, roundFunction]

/-- KFF at 0x25 is the key part of `KeyStep` (45_engine.md R212, 30_encoding.md R95). -/
theorem run_kff {v : Variant} {s : State} (h : Running v s) (hu : s.upc = 0x25) {st : Feistel v} (hs : Represents st s) :
    ∃ t : State, Host.Core.run Sys2Proof.core 5 s = .next t ∧ SameSurface s t ∧ t.c = s.c ∧ t.upc = 0x2A ∧
      Represents (keyForward Config.cfg v st) t := by
  rw [run_running 4 h hu (i := .rotf) rfl (exec_rotf h.variant)]
  generalize h1 : State.advance (s.setKey _) = s1
  have e1 : SameSurface s s1 := (by subst h1; constructor <;> simp)
  have u1 : s1.upc = 0x26 := by subst h1; simp [hu]
  rw [run_running 3 (e1.running h) u1 (i := .sktake) rfl (exec_sktake (e1.running h).variant)]
  generalize h2 : State.advance (s1.setSk _) = s2
  have e2 : SameSurface s s2 := e1.trans (by subst h2; constructor <;> simp)
  have u2 : s2.upc = 0x27 := by subst h2; simp [u1]
  rw [run_running 2 (e2.running h) u2 (i := .rcadv) rfl (exec_rcadv (e2.running h).variant)]
  generalize h3 : State.advance (s2.setRc _) = s3
  have e3 : SameSurface s s3 := e2.trans (by subst h3; constructor <;> simp)
  have u3 : s3.upc = 0x28 := by subst h3; simp [u2]
  rw [run_running 1 (e3.running h) u3 (i := .skadd) rfl (exec_skadd (e3.running h).variant)]
  generalize h4 : State.advance (s3.setSk _) = s4
  have e4 : SameSurface s s4 := e3.trans (by subst h4; constructor <;> simp)
  have u4 : s4.upc = 0x29 := by subst h4; simp [u3]
  rw [run_running 0 (e4.running h) u4 (i := .skfold) rfl (exec_skfold (e4.running h).variant)]
  refine ⟨_, rfl, e4.trans (by constructor <;> simp), ?_, by simp [u4], ?_⟩
  · subst h4 h3 h2 h1; simp
  · obtain ⟨hl, hr, hk, hc⟩ := hs
    subst h4 h3 h2 h1
    constructor <;> simp [hl, hr, hk, hc, keyForward, keyStep]

/-- HRB.R at 0x2D is `UnHalfR` (45_engine.md R212, 30_encoding.md R95). -/
theorem run_hrbR {v : Variant} {s : State} (h : Running v s) (hu : s.upc = 0x2D) {st : Feistel v} (hs : Represents st s) :
    ∃ t : State, Host.Core.run Sys2Proof.core 11 s = .next t ∧ SameSurface s t ∧ t.c = s.c ∧ t.upc = 0x38 ∧
      Represents (unHalfR Config.cfg v st) t := by
  rw [run_running 10 h hu (i := .sktake) rfl (exec_sktake h.variant)]
  generalize h1 : State.advance (s.setSk _) = s1
  have e1 : SameSurface s s1 := (by subst h1; constructor <;> simp)
  have u1 : s1.upc = 0x2E := by subst h1; simp [hu]
  rw [run_running 9 (e1.running h) u1 (i := .wldr) rfl (exec_wldr (e1.running h).variant)]
  generalize h2 : State.advance (s1.setW _) = s2
  have e2 : SameSurface s s2 := e1.trans (by subst h2; constructor <;> simp)
  have u2 : s2.upc = 0x2F := by subst h2; simp [u1]
  rw [run_running 8 (e2.running h) u2 (i := .shift) rfl (exec_shift (e2.running h).variant)]
  generalize h3 : State.advance (s2.setW _) = s3
  have e3 : SameSurface s s3 := e2.trans (by subst h3; constructor <;> simp)
  have u3 : s3.upc = 0x30 := by subst h3; simp [u2]
  rw [run_running 7 (e3.running h) u3 (i := .xorsk) rfl (exec_xorsk (e3.running h).variant)]
  generalize h4 : State.advance (s3.setW _) = s4
  have e4 : SameSurface s s4 := e3.trans (by subst h4; constructor <;> simp)
  have u4 : s4.upc = 0x31 := by subst h4; simp [u3]
  rw [run_running 6 (e4.running h) u4 (i := .beta) rfl (exec_beta (e4.running h).variant)]
  generalize h5 : State.advance (s4.setW _) = s5
  have e5 : SameSurface s s5 := e4.trans (by subst h5; constructor <;> simp)
  have u5 : s5.upc = 0x32 := by subst h5; simp [u4]
  rw [run_running 5 (e5.running h) u5 (i := .switch) rfl (exec_switch (e5.running h).variant)]
  generalize h6 : State.advance (s5.setW _) = s6
  have e6 : SameSurface s s6 := e5.trans (by subst h6; constructor <;> simp)
  have u6 : s6.upc = 0x33 := by subst h6; simp [u5]
  rw [run_running 4 (e6.running h) u6 (i := .xfl) rfl (exec_xfl (e6.running h).variant)]
  generalize h7 : State.advance (s6.setL _) = s7
  have e7 : SameSurface s s7 := e6.trans (by subst h7; constructor <;> simp)
  have u7 : s7.upc = 0x34 := by subst h7; simp [u6]
  rw [run_running 3 (e7.running h) u7 (i := .sksub) rfl (exec_sksub (e7.running h).variant)]
  generalize h8 : State.advance (s7.setSk _) = s8
  have e8 : SameSurface s s8 := e7.trans (by subst h8; constructor <;> simp)
  have u8 : s8.upc = 0x35 := by subst h8; simp [u7]
  rw [run_running 2 (e8.running h) u8 (i := .skfold) rfl (exec_skfold (e8.running h).variant)]
  generalize h9 : State.advance (s8.setKey _) = s9
  have e9 : SameSurface s s9 := e8.trans (by subst h9; constructor <;> simp)
  have u9 : s9.upc = 0x36 := by subst h9; simp [u8]
  rw [run_running 1 (e9.running h) u9 (i := .rcret) rfl (exec_rcret (e9.running h).variant)]
  generalize h10 : State.advance (s9.setRc _) = s10
  have e10 : SameSurface s s10 := e9.trans (by subst h10; constructor <;> simp)
  have u10 : s10.upc = 0x37 := by subst h10; simp [u9]
  rw [run_running 0 (e10.running h) u10 (i := .rotb) rfl (exec_rotb (e10.running h).variant)]
  refine ⟨_, rfl, e10.trans (by constructor <;> simp), ?_, by simp [u10], ?_⟩
  · subst h10 h9 h8 h7 h6 h5 h4 h3 h2 h1; simp
  · obtain ⟨hl, hr, hk, hc⟩ := hs
    subst h10 h9 h8 h7 h6 h5 h4 h3 h2 h1
    constructor <;> simp [hl, hr, hk, hc, unHalfR, keyUnstep, roundFunction]

/-- HRB.L at 0x38 is `UnHalfL` (45_engine.md R212, 30_encoding.md R95). -/
theorem run_hrbL {v : Variant} {s : State} (h : Running v s) (hu : s.upc = 0x38) {st : Feistel v} (hs : Represents st s) :
    ∃ t : State, Host.Core.run Sys2Proof.core 11 s = .next t ∧ SameSurface s t ∧ t.c = s.c ∧ t.upc = 0x43 ∧
      Represents (unHalfL Config.cfg v st) t := by
  rw [run_running 10 h hu (i := .sktake) rfl (exec_sktake h.variant)]
  generalize h1 : State.advance (s.setSk _) = s1
  have e1 : SameSurface s s1 := (by subst h1; constructor <;> simp)
  have u1 : s1.upc = 0x39 := by subst h1; simp [hu]
  rw [run_running 9 (e1.running h) u1 (i := .wldl) rfl (exec_wldl (e1.running h).variant)]
  generalize h2 : State.advance (s1.setW _) = s2
  have e2 : SameSurface s s2 := e1.trans (by subst h2; constructor <;> simp)
  have u2 : s2.upc = 0x3A := by subst h2; simp [u1]
  rw [run_running 8 (e2.running h) u2 (i := .shift) rfl (exec_shift (e2.running h).variant)]
  generalize h3 : State.advance (s2.setW _) = s3
  have e3 : SameSurface s s3 := e2.trans (by subst h3; constructor <;> simp)
  have u3 : s3.upc = 0x3B := by subst h3; simp [u2]
  rw [run_running 7 (e3.running h) u3 (i := .xorsk) rfl (exec_xorsk (e3.running h).variant)]
  generalize h4 : State.advance (s3.setW _) = s4
  have e4 : SameSurface s s4 := e3.trans (by subst h4; constructor <;> simp)
  have u4 : s4.upc = 0x3C := by subst h4; simp [u3]
  rw [run_running 6 (e4.running h) u4 (i := .beta) rfl (exec_beta (e4.running h).variant)]
  generalize h5 : State.advance (s4.setW _) = s5
  have e5 : SameSurface s s5 := e4.trans (by subst h5; constructor <;> simp)
  have u5 : s5.upc = 0x3D := by subst h5; simp [u4]
  rw [run_running 5 (e5.running h) u5 (i := .switch) rfl (exec_switch (e5.running h).variant)]
  generalize h6 : State.advance (s5.setW _) = s6
  have e6 : SameSurface s s6 := e5.trans (by subst h6; constructor <;> simp)
  have u6 : s6.upc = 0x3E := by subst h6; simp [u5]
  rw [run_running 4 (e6.running h) u6 (i := .xfr) rfl (exec_xfr (e6.running h).variant)]
  generalize h7 : State.advance (s6.setR _) = s7
  have e7 : SameSurface s s7 := e6.trans (by subst h7; constructor <;> simp)
  have u7 : s7.upc = 0x3F := by subst h7; simp [u6]
  rw [run_running 3 (e7.running h) u7 (i := .sksub) rfl (exec_sksub (e7.running h).variant)]
  generalize h8 : State.advance (s7.setSk _) = s8
  have e8 : SameSurface s s8 := e7.trans (by subst h8; constructor <;> simp)
  have u8 : s8.upc = 0x40 := by subst h8; simp [u7]
  rw [run_running 2 (e8.running h) u8 (i := .skfold) rfl (exec_skfold (e8.running h).variant)]
  generalize h9 : State.advance (s8.setKey _) = s9
  have e9 : SameSurface s s9 := e8.trans (by subst h9; constructor <;> simp)
  have u9 : s9.upc = 0x41 := by subst h9; simp [u8]
  rw [run_running 1 (e9.running h) u9 (i := .rcret) rfl (exec_rcret (e9.running h).variant)]
  generalize h10 : State.advance (s9.setRc _) = s10
  have e10 : SameSurface s s10 := e9.trans (by subst h10; constructor <;> simp)
  have u10 : s10.upc = 0x42 := by subst h10; simp [u9]
  rw [run_running 0 (e10.running h) u10 (i := .rotb) rfl (exec_rotb (e10.running h).variant)]
  refine ⟨_, rfl, e10.trans (by constructor <;> simp), ?_, by simp [u10], ?_⟩
  · subst h10 h9 h8 h7 h6 h5 h4 h3 h2 h1; simp
  · obtain ⟨hl, hr, hk, hc⟩ := hs
    subst h10 h9 h8 h7 h6 h5 h4 h3 h2 h1
    constructor <;> simp [hl, hr, hk, hc, unHalfL, keyUnstep, roundFunction]

end Sys2Proof.Machine
end

