-- ==== Sys2Proof/Laws/Memory.lean ====
section
/-! SUPPORT. The laws of the canonical storage: a read after a write, every operation keeps the canonical form, and two
canonical lists that read alike are equal. -/

namespace Sys2Proof.Machine

variable {n : Nat} {d : Nat → BitVec n}

/-- Raising the bound of `Memory.above`. -/
theorem Memory.above_mono {a b : Nat} (h : a ≤ b) {m : List (Nat × BitVec n)} (hm : Memory.above b m = true) :
    Memory.above a m = true := by
  cases m with
  | nil => rfl
  | cons x m => simp only [Memory.above, decide_eq_true_eq] at *; omega

/-- The parts of the canonical form of a non-empty list. -/
theorem Memory.wf_cons {lo hi k : Nat} {b : BitVec n} {m : List (Nat × BitVec n)} :
    Memory.wf d lo hi ((k, b) :: m) = true ↔
      lo ≤ k ∧ k < hi ∧ b ≠ d k ∧ Memory.above k m = true ∧ Memory.wf d lo hi m = true := by
  simp [Memory.wf, and_assoc]

/-- An address below every listed one reads as the default. -/
theorem Memory.read_of_above {lo hi : Nat} : ∀ {m : List (Nat × BitVec n)} {a : Nat},
    Memory.wf d lo hi m = true → Memory.above a m = true → Memory.read d m a = d a
  | [], _, _, _ => rfl
  | (k, b) :: m, a, hm, ha => by
    obtain ⟨-, -, -, hk, hm⟩ := Memory.wf_cons.1 hm
    have hak : a < k := by simpa [Memory.above] using ha
    rw [Memory.read, if_neg (by omega)]
    exact Memory.read_of_above hm (Memory.above_mono (by omega) hk)

/-- Erasing an address keeps every bound from below. -/
theorem Memory.above_erase {lo hi : Nat} : ∀ {m : List (Nat × BitVec n)} {a b : Nat}, Memory.wf d lo hi m = true →
    Memory.above a m = true → Memory.above a (Memory.erase m b) = true
  | [], _, _, _, _ => rfl
  | (k, y) :: m, a, b, hm, h => by
    obtain ⟨-, -, -, hk, hm⟩ := Memory.wf_cons.1 hm
    have hak : a < k := by simpa [Memory.above] using h
    unfold Memory.erase
    split
    · exact Memory.above_erase hm (Memory.above_mono (by omega) hk)
    · exact h

/-- Listing an address keeps every bound below it. -/
theorem Memory.above_put {a b : Nat} {x : BitVec n} {m : List (Nat × BitVec n)} (h : Memory.above a m = true) (hab : a < b) :
    Memory.above a (Memory.put m b x) = true := by
  cases m with
  | nil => simpa [Memory.put, Memory.above] using hab
  | cons y m =>
    obtain ⟨k, y⟩ := y
    have hak : a < k := by simpa [Memory.above] using h
    unfold Memory.put
    split <;> [skip; split] <;> simp [Memory.above] <;> omega

/-- `Memory.erase` keeps the canonical form. -/
theorem Memory.wf_erase {lo hi : Nat} : ∀ {m : List (Nat × BitVec n)} {a : Nat},
    Memory.wf d lo hi m = true → Memory.wf d lo hi (Memory.erase m a) = true
  | [], _, _ => rfl
  | (k, b) :: m, a, h => by
    obtain ⟨h1, h2, h3, h4, h5⟩ := Memory.wf_cons.1 h
    unfold Memory.erase
    split
    · exact Memory.wf_erase h5
    · exact Memory.wf_cons.2 ⟨h1, h2, h3, Memory.above_erase h5 h4, Memory.wf_erase h5⟩

/-- `Memory.put` of a value that is not the default, at an address in range, keeps the canonical form. -/
theorem Memory.wf_put {lo hi a : Nat} {x : BitVec n} (hlo : lo ≤ a) (hhi : a < hi) (hx : x ≠ d a) :
    ∀ {m : List (Nat × BitVec n)}, Memory.wf d lo hi m = true → Memory.wf d lo hi (Memory.put m a x) = true
  | [], _ => by simp [Memory.put, Memory.wf, Memory.above, hlo, hhi, hx]
  | (k, b) :: m, h => by
    obtain ⟨h1, h2, h3, h4, h5⟩ := Memory.wf_cons.1 h
    unfold Memory.put
    split
    · next hk => exact Memory.wf_cons.2 ⟨hlo, hhi, hx, by simpa [Memory.above] using hk, h⟩
    · split
      · next hk => subst hk; exact Memory.wf_cons.2 ⟨hlo, hhi, hx, h4, h5⟩
      · exact Memory.wf_cons.2 ⟨h1, h2, h3, Memory.above_put h4 (by omega), Memory.wf_put hlo hhi hx h5⟩

/-- `Memory.write` in range keeps the canonical form. -/
theorem Memory.wf_write {lo hi a : Nat} {x : BitVec n} (hlo : lo ≤ a) (hhi : a < hi) {m : List (Nat × BitVec n)}
    (h : Memory.wf d lo hi m = true) : Memory.wf d lo hi (Memory.write d m a x) = true := by
  unfold Memory.write
  split
  · exact Memory.wf_erase h
  · next hx => exact Memory.wf_put hlo hhi hx h

/-- `Memory.writeRun` in range keeps the canonical form. -/
theorem Memory.wf_writeRun {lo hi base : Nat} {f : Nat → BitVec n} (hlo : lo ≤ base) {m : List (Nat × BitVec n)}
    (h : Memory.wf d lo hi m = true) : ∀ {count : Nat}, base + count ≤ hi →
    Memory.wf d lo hi (Memory.writeRun d m base f count) = true
  | 0, _ => h
  | count + 1, hc => Memory.wf_write (by omega) (by omega) (Memory.wf_writeRun hlo h (by omega))

/-- Reading after `Memory.erase`. -/
theorem Memory.read_erase : ∀ (m : List (Nat × BitVec n)) (a b : Nat),
    Memory.read d (Memory.erase m a) b = if b = a then d b else Memory.read d m b
  | [], _, b => by simp [Memory.erase, Memory.read]
  | (k, x) :: m, a, b => by
    have ih := Memory.read_erase m a b
    unfold Memory.erase
    split
    · next hk =>
      rw [ih]
      simp only [Memory.read]
      split_ifs <;> first | rfl | omega
    · simp only [Memory.read, ih]
      split_ifs <;> first | rfl | omega

/-- Reading after `Memory.put`. -/
theorem Memory.read_put {a : Nat} {x : BitVec n} : ∀ (m : List (Nat × BitVec n)) (b : Nat),
    Memory.read d (Memory.put m a x) b = if b = a then x else Memory.read d m b
  | [], b => by simp only [Memory.put, Memory.read, eq_comm]
  | (k, y) :: m, b => by
    have ih := Memory.read_put (a := a) (x := x) m b
    unfold Memory.put
    split
    · simp only [Memory.read, eq_comm]
    · split
      · next hk =>
        subst hk
        simp only [Memory.read]
        split_ifs <;> first | rfl | omega
      · simp only [Memory.read, ih]
        split_ifs <;> first | rfl | omega

/-- THE LAW OF A WRITE: the written address reads as the value, every other address as before. -/
theorem Memory.read_write (m : List (Nat × BitVec n)) (a : Nat) (x : BitVec n) (b : Nat) :
    Memory.read d (Memory.write d m a x) b = if b = a then x else Memory.read d m b := by
  unfold Memory.write
  split
  · next hx => rw [Memory.read_erase]; split <;> simp_all
  · exact Memory.read_put m b

/-- THE LAW OF A RUN OF WRITES: addresses `base ≤ b < base + count` read as `f (b - base)`, every other address as before. -/
theorem Memory.read_writeRun (m : List (Nat × BitVec n)) (base : Nat) (f : Nat → BitVec n) (b : Nat) : ∀ count : Nat,
    Memory.read d (Memory.writeRun d m base f count) b =
      if base ≤ b ∧ b < base + count then f (b - base) else Memory.read d m b
  | 0 => by rw [if_neg (by omega)]; rfl
  | count + 1 => by
    rw [Memory.writeRun, Memory.read_write, Memory.read_writeRun m base f b count]
    by_cases hb : b = base + count
    · subst hb; rw [if_pos rfl, if_pos (by omega)]; congr 1; omega
    · rw [if_neg hb]
      split_ifs <;> first | rfl | omega

/-- Canonical lists that read alike at every address are equal. -/
theorem Memory.eq_of_read {lo hi : Nat} : ∀ {m m' : List (Nat × BitVec n)}, Memory.wf d lo hi m = true →
    Memory.wf d lo hi m' = true → (∀ a, Memory.read d m a = Memory.read d m' a) → m = m'
  | [], [], _, _, _ => rfl
  | [], (k, b) :: m', _, h', e => by
    have := e k
    simp only [Memory.read, if_pos] at this
    exact absurd this.symm (Memory.wf_cons.1 h').2.2.1
  | (k, b) :: m, [], h, _, e => by
    have := e k
    simp only [Memory.read, if_pos] at this
    exact absurd this (Memory.wf_cons.1 h).2.2.1
  | (k, b) :: m, (k', b') :: m', h, h', e => by
    obtain ⟨-, -, hb, hk, hm⟩ := Memory.wf_cons.1 h
    obtain ⟨-, -, hb', hk', hm'⟩ := Memory.wf_cons.1 h'
    have hkk : k = k' := by
      rcases Nat.lt_trichotomy k k' with hlt | heq | hlt
      · have := e k
        rw [Memory.read_of_above h' (by simpa [Memory.above] using hlt)] at this
        simp only [Memory.read, if_pos] at this
        exact absurd this hb
      · exact heq
      · have := e k'
        rw [Memory.read_of_above h (by simpa [Memory.above] using hlt)] at this
        simp only [Memory.read, if_pos] at this
        exact absurd this.symm hb'
    subst hkk
    have hbb : b = b' := by simpa [Memory.read] using e k
    subst hbb
    refine congrArg _ (Memory.eq_of_read hm hm' fun a => ?_)
    by_cases ha : k = a
    · subst ha; rw [Memory.read_of_above hm hk, Memory.read_of_above hm' hk']
    · simpa [Memory.read, ha] using e a

/-- A read of a buffer byte after a write of one (20_memory.md R60). -/
@[simp] theorem readBuffer_writeBuffer (buf : List Host.Cell) (a : Nat) (x : Byte) (b : Nat) :
    readBuffer (writeBuffer buf a x) b = if b = a then x else readBuffer buf b := Memory.read_write buf a x b

/-- A write of a buffer byte keeps the canonical form. -/
theorem bufferWf_writeBuffer {buf : List Host.Cell} (h : bufferWf buf = true) {a : Nat} (hlo : dinBase ≤ a) (hhi : a < windowEnd)
    (x : Byte) : bufferWf (writeBuffer buf a x) = true := Memory.wf_write hlo hhi h

/-- A read of a buffer byte after a run of writes. -/
@[simp] theorem readBuffer_writeBufferRun (buf : List Host.Cell) (base : Nat) (f : Nat → Byte) (count b : Nat) :
    readBuffer (writeBufferRun buf base f count) b =
      if base ≤ b ∧ b < base + count then f (b - base) else readBuffer buf b := Memory.read_writeRun buf base f b count

/-- A run of writes keeps the canonical form. -/
theorem bufferWf_writeBufferRun {buf : List Host.Cell} (h : bufferWf buf = true) {base count : Nat} (hlo : dinBase ≤ base)
    (hhi : base + count ≤ windowEnd) (f : Nat → Byte) : bufferWf (writeBufferRun buf base f count) = true :=
  Memory.wf_writeRun hlo h hhi

end Sys2Proof.Machine
end

