-- ==== Sys2Proof/Laws/PerInstr.lean ====
section
/-! SUPPORT. Laws about every instruction as syntax, one lemma per constructor. -/

namespace Sys2Proof.Laws.FitsItsRow

/-- The word of a well-formed instruction fits its own row of the opcode table: `word and mask = match` (30_encoding.md R92). -/
def Statement (i : Instr) : Prop := i.wellFormed = true → (encode i).fitsRow i = true

/-- Why a command word fits its row: its low eight bits are bit 7 zero, `VAR` and `OP`, and the mask keeps `OP` and bit 7. -/
theorem commandWord_masked (op : BitVec 5) (var : BitVec 2) (rounds dlen klen : BitVec 8) :
    commandWord op var rounds dlen klen &&& 0x9F#32 = op.setWidth 32 := by
  refine BitVec.eq_of_getLsbD_eq fun p hp => ?_
  simp only [commandWord, BitVec.getLsbD_and, BitVec.getLsbD_append, BitVec.getLsbD_setWidth]
  interval_cases p <;> simp

/-- Why a branch word fits its row: a target in range has bit 7 zero, and the mask drops the bits below. -/
theorem microWord_masked (uop target : BitVec 8) (h : target ≤ 0x7F#8) :
    microWord uop target &&& 0xFF80#16 = microWord uop 0 := by
  have h7 : target[7] = false := by
    rw [← BitVec.getLsbD_eq_getElem, ← BitVec.testBit_toNat, Nat.testBit_lt_two_pow]
    exact Nat.lt_succ_of_le h
  refine BitVec.eq_of_getLsbD_eq fun p hp => ?_
  simp only [microWord, BitVec.getLsbD_and, BitVec.getLsbD_append]
  interval_cases p <;> simp [h7]

theorem enc (var : BitVec 2) (rounds dlen klen : BitVec 8) : Statement (.enc var rounds dlen klen) := fun _ => by
  simp [Code.fitsRow, encode, rowMask, rowMatch, commandWord_masked]

theorem dec (var : BitVec 2) (rounds dlen klen : BitVec 8) : Statement (.dec var rounds dlen klen) := fun _ => by
  simp [Code.fitsRow, encode, rowMask, rowMatch, commandWord_masked]

theorem encs (var : BitVec 2) (rounds dlen klen : BitVec 8) : Statement (.encs var rounds dlen klen) := fun _ => by
  simp [Code.fitsRow, encode, rowMask, rowMatch, commandWord_masked]

theorem decs (var : BitVec 2) (rounds dlen klen : BitVec 8) : Statement (.decs var rounds dlen klen) := fun _ => by
  simp [Code.fitsRow, encode, rowMask, rowMatch, commandWord_masked]

theorem chk : Statement .chk := fun _ => by decide

theorem ldkey : Statement .ldkey := fun _ => by decide

theorem ldblk : Statement .ldblk := fun _ => by decide

theorem stblk : Statement .stblk := fun _ => by decide

theorem clr : Statement .clr := fun _ => by decide

theorem done : Statement .done := fun _ => by decide

theorem setc : Statement .setc := fun _ => by decide

theorem setc2 : Statement .setc2 := fun _ => by decide

theorem brz (target : BitVec 8) : Statement (.brz target) := fun h => by
  have h : target ≤ 0x7F#8 := by simpa [Instr.wellFormed, targetInRange] using h
  simp only [Code.fitsRow, encode, rowMask, rowMatch, BitVec.ofNat_eq_ofNat, microWord_masked _ target h]
  decide

theorem decj (target : BitVec 8) : Statement (.decj target) := fun h => by
  have h : target ≤ 0x7F#8 := by simpa [Instr.wellFormed, targetInRange] using h
  simp only [Code.fitsRow, encode, rowMask, rowMatch, BitVec.ofNat_eq_ofNat, microWord_masked _ target h]
  decide

theorem rotf : Statement .rotf := fun _ => by decide

theorem rotb : Statement .rotb := fun _ => by decide

theorem rcadv : Statement .rcadv := fun _ => by decide

theorem rcret : Statement .rcret := fun _ => by decide

theorem sktake : Statement .sktake := fun _ => by decide

theorem skadd : Statement .skadd := fun _ => by decide

theorem sksub : Statement .sksub := fun _ => by decide

theorem skfold : Statement .skfold := fun _ => by decide

theorem wldl : Statement .wldl := fun _ => by decide

theorem wldr : Statement .wldr := fun _ => by decide

theorem shift : Statement .shift := fun _ => by decide

theorem xorsk : Statement .xorsk := fun _ => by decide

theorem beta : Statement .beta := fun _ => by decide

theorem switch : Statement .switch := fun _ => by decide

theorem xfr : Statement .xfr := fun _ => by decide

theorem xfl : Statement .xfl := fun _ => by decide

end Sys2Proof.Laws.FitsItsRow
end

