-- ==== Sys2Proof/Laws/WholeCommand.lean ====
section
/-! SUPPORT. What the whole-command function and the step counts are in each case (45_engine.md R234, R235, R240). That runs of the
machine come out so is for the statements on whole commands. -/

namespace Sys2Proof.Machine

/-- R240 for ENC and ENCS. -/
theorem encryptionSteps_eq (n : Nat) : encryptionSteps n = 8 + 24 * n := by unfold encryptionSteps; omega

/-- R240 for DEC and DECS. -/
theorem decryptionSteps_eq (n : Nat) : decryptionSteps n = 10 + 38 * n := by unfold decryptionSteps; omega

/-- A run that passes CHK takes the steps of its program (R240). -/
theorem commandSteps_of_passing {s : State} {v : Variant} (hb : s.status = .busy) (hv : Variant.ofSelector s.varr = some v)
    (hl : lengthsMatch v s.dlenr s.klenr = true) :
    commandSteps s = if encrypting s then 8 + 24 * s.nrr.toNat else 10 + 38 * s.nrr.toNat := by
  simp [commandSteps, hb, hv, hl, encryptionSteps_eq, decryptionSteps_eq]

/-- A command that CHK refuses takes one step (R240). -/
theorem commandSteps_of_refused {s : State} (hb : s.status = .busy)
    (h : ∀ v, Variant.ofSelector s.varr = some v → lengthsMatch v s.dlenr s.klenr = false) : commandSteps s = 1 := by
  unfold commandSteps
  rw [if_pos hb]
  cases hv : Variant.ofSelector s.varr with
  | none => rfl
  | some v => simp [h v hv]

/-- A command refused at once takes no step (R240, 30_encoding.md R85). -/
theorem commandSteps_of_refused_at_once {s : State} (hb : s.status ≠ .busy) (word : BitVec 32) :
    commandSteps (refuseCommand s word) = 0 := by
  rw [commandSteps, if_neg (by simp [refuseCommand, hb, State.raiseError])]

/-- No command takes more than 9700 steps (70_reset_and_hazards.md R305). -/
theorem commandSteps_le (s : State) : commandSteps s ≤ 9700 := by
  have hn : s.nrr.toNat < 256 := s.nrr.isLt
  unfold commandSteps
  simp only [encryptionSteps_eq, decryptionSteps_eq]
  repeat' split
  all_goals omega

/-- A run that passes CHK ends in the finished command (R234, R235). -/
theorem wholeCommand_of_passing {c : Cfg} {s : State} {v : Variant} (hb : s.status = .busy)
    (hv : Variant.ofSelector s.varr = some v) (hl : lengthsMatch v s.dlenr s.klenr = true) :
    wholeCommand c s = finishedCommand c v s := by simp [wholeCommand, hb, hv, hl]

/-- A command that CHK refuses ends where CHK leaves it (R214). -/
theorem wholeCommand_of_refused {c : Cfg} {s : State} (hb : s.status = .busy)
    (h : ∀ v, Variant.ofSelector s.varr = some v → lengthsMatch v s.dlenr s.klenr = false) :
    execChk s = .next (wholeCommand c s) := by
  unfold execChk wholeCommand
  rw [if_pos hb]
  cases hv : Variant.ofSelector s.varr with
  | none => rfl
  | some v => simp [h v hv]

/-- The finished command holds its block in `DOUT[0..BB-1]` (R234, R235). -/
theorem doutBlock_finishedCommand (c : Cfg) (v : Variant) (s : State) :
    doutBlock v (finishedCommand c v s) = commandBlock c v s := by
  ext i hi
  simp [doutBlock, finishedCommand, byteAt]

/-- The finished command leaves every other buffer byte as it was (20_memory.md R67). -/
theorem finishedCommand_outside (c : Cfg) (v : Variant) (s : State) {offset : Nat}
    (h : ¬(doutBase ≤ offset ∧ offset < doutBase + v.bb)) :
    readBuffer (finishedCommand c v s).buf offset = readBuffer s.buf offset := by
  simp [finishedCommand, h]

end Sys2Proof.Machine
end

