-- ==== Sys2Proof/Tests/Slice0.lean ====
section
/-! SUPPORT. Tests. The words are written out from 30_encoding.md R80 to R83 and 45_engine.md R212; the expected values are those of
95_test_vectors.md, which uses `Cfg.ref` (00_scope.md R13), so the steps run under it. The last part shows, for each obligation
with hypotheses, a state and operands that meet them. -/

namespace Sys2Proof.Tests

open Sys2Proof.Machine

/-! ### Well-formedness (30_encoding.md R88) -/

theorem test_brz_target_0x80_is_ill_formed : (Instr.brz 0x80).wellFormed = false := by decide
theorem test_decj_target_0x80_is_ill_formed : (Instr.decj 0x80).wellFormed = false := by decide
theorem test_brz_target_0x7F_is_well_formed : (Instr.brz 0x7F).wellFormed = true := by decide

/-! ### Decoding: one word of every row, written out -/

-- ENC: OP 00000, VAR 10, bit 7 0, ROUNDS 2, DLEN 32, KLEN 32 (95_test_vectors.md 2.7).
theorem test_decode_enc : decode (.command 0x20200240) = .ok (.enc 2 2 32 32) := by decide
theorem test_decode_dec : decode (.command 0x20200241) = .ok (.dec 2 2 32 32) := by decide
theorem test_decode_encs : decode (.command 0x10080002) = .ok (.encs 0 0 8 16) := by decide
theorem test_decode_decs : decode (.command 0x10080003) = .ok (.decs 0 0 8 16) := by decide
theorem test_decode_chk : decode (.micro 0x0100) = .ok .chk := by decide
theorem test_decode_ldkey : decode (.micro 0x0200) = .ok .ldkey := by decide
theorem test_decode_ldblk : decode (.micro 0x0300) = .ok .ldblk := by decide
theorem test_decode_stblk : decode (.micro 0x0400) = .ok .stblk := by decide
theorem test_decode_clr : decode (.micro 0x0500) = .ok .clr := by decide
theorem test_decode_done : decode (.micro 0x0600) = .ok .done := by decide
theorem test_decode_setc : decode (.micro 0x0800) = .ok .setc := by decide
theorem test_decode_setc2 : decode (.micro 0x0900) = .ok .setc2 := by decide
theorem test_decode_brz : decode (.micro 0x0A1C) = .ok (.brz 0x1C) := by decide
theorem test_decode_decj : decode (.micro 0x0B2C) = .ok (.decj 0x2C) := by decide
theorem test_decode_rotf : decode (.micro 0x1000) = .ok .rotf := by decide
theorem test_decode_rotb : decode (.micro 0x1100) = .ok .rotb := by decide
theorem test_decode_rcadv : decode (.micro 0x1200) = .ok .rcadv := by decide
theorem test_decode_rcret : decode (.micro 0x1300) = .ok .rcret := by decide
theorem test_decode_sktake : decode (.micro 0x1400) = .ok .sktake := by decide
theorem test_decode_skadd : decode (.micro 0x1500) = .ok .skadd := by decide
theorem test_decode_sksub : decode (.micro 0x1600) = .ok .sksub := by decide
theorem test_decode_skfold : decode (.micro 0x1700) = .ok .skfold := by decide
theorem test_decode_wldl : decode (.micro 0x1800) = .ok .wldl := by decide
theorem test_decode_wldr : decode (.micro 0x1900) = .ok .wldr := by decide
theorem test_decode_shift : decode (.micro 0x1A00) = .ok .shift := by decide
theorem test_decode_xorsk : decode (.micro 0x1B00) = .ok .xorsk := by decide
theorem test_decode_beta : decode (.micro 0x1C00) = .ok .beta := by decide
theorem test_decode_switch : decode (.micro 0x1D00) = .ok .switch := by decide
theorem test_decode_xfr : decode (.micro 0x1E00) = .ok .xfr := by decide
theorem test_decode_xfl : decode (.micro 0x1F00) = .ok .xfl := by decide

-- Reserved words (95_test_vectors.md 2.7; 30_encoding.md R85, R87, R88).
theorem test_decode_reserved_operation : decode (.command 0x10080104) = .error .reservedOperation := by decide
theorem test_decode_reserved_bit : decode (.command 0x10080180) = .error .reservedBit := by decide
theorem test_decode_zero_word : decode (.micro 0x0000) = .error .undefinedMicroOperation := by decide
theorem test_decode_gap_0x07 : decode (.micro 0x0700) = .error .undefinedMicroOperation := by decide
theorem test_decode_target_out_of_range : decode (.micro 0x0A80) = .error .targetOutOfRange := by decide
theorem test_decode_nonzero_argument : decode (.micro 0x0101) = .error .nonzeroArgument := by decide

-- Bytes as the hardware stores them (95_test_vectors.md 2.7: the first row is stored as 00 01 08 10).
theorem test_decode_bytes_of_enc : decodeBytes [0x00, 0x01, 0x08, 0x10] = .ok (.enc 0 1 8 16) := by decide
theorem test_decode_table_word_command : decodeTableWord 32 0x07050160 = some (.enc 3 1 5 7) := by decide
theorem test_decode_table_word_micro : decodeTableWord 16 0x0B04 = some (.decj 0x04) := by decide
theorem test_decode_table_word_reserved : decodeTableWord 32 0x10080180 = none := by decide

/-! ### One step of each instruction -/

/-- Bytes as buffer contents from `base` on. -/
def place (base : Nat) (bytes : List Byte) : List Host.Cell :=
  writeBufferRun [] base (fun i => bytes.getD i 0) bytes.length

/-- A running engine with the selector `sel`. -/
def running (sel : BitVec 2) : State := { State.reset with status := .busy, varr := sel }

/-- A property of the next state that an instruction gives under `Cfg.ref`. -/
def after (i : Instr) (s : State) (p : State → Bool) : Bool :=
  match execUnder Cfg.ref i s with
  | .next t => p t
  | .fault _ => false
  | .refused _ => false

/-- `KEY[i] = i`. -/
def countingKey : Vector Byte 32 := Vector.ofFn fun i => BitVec.ofNat 8 i.val

-- 95_test_vectors.md 3.1: accepted, BUSY, UPC 0x00.
theorem test_enc_starts :
    after (.enc 0 1 8 16) State.reset
      (fun t => t.cmd == 0x10080100 && t.nrr == 1 && t.klenr == 16 && t.upc == 0 && t.status == .busy) = true := by
  decide
theorem test_dec_starts_at_0x20 :
    after (.dec 2 0 32 32) State.reset
      (fun t => t.cmd == 0x20200041 && t.opr == 1 && t.varr == 2 && t.upc == 0x20) = true := by
  decide
-- 45_engine.md R232: ENCS takes NR_STD, 32 under CFG_REF, and stores ROUNDS in CMD only.
theorem test_encs_takes_the_standard_rounds :
    after (.encs 0 7 8 16) State.reset (fun t => t.nrr == 32 && t.cmd == 0x10080702) = true := by decide
theorem test_decs_with_variant_3_latches_zero_rounds :
    after (.decs 3 7 8 16) State.reset (fun t => t.nrr == 0 && t.opr == 3 && t.upc == 0x20) = true := by decide
theorem test_chk_passes :
    after .chk { running 0 with dlenr := 8, klenr := 16 }
      (fun t => t.upc == 1 && t.status == .busy) = true := by decide
theorem test_chk_variant_before_length :
    after .chk { running 3 with dlenr := 5, klenr := 7 }
      (fun t => t.status == .error && t.err == .unsupportedVariant && t.upc == 0) = true := by
  decide
theorem test_setc_255 : after .setc { running 0 with nrr := 255 } (fun t => t.c == 255 && t.upc == 1) = true := by decide
theorem test_setc2_255 : after .setc2 { running 0 with nrr := 255 } (fun t => t.c == 510) = true := by decide
theorem test_brz_taken :
    after (.brz 0x1C) { running 0 with upc := 0x04 } (fun t => t.upc == 0x1C && t.c == 0) = true := by decide
theorem test_brz_not_taken :
    after (.brz 0x1C) { running 0 with upc := 0x04, c := 3 } (fun t => t.upc == 0x05 && t.c == 3) = true := by decide
theorem test_decj :
    after (.decj 0x24) { running 2 with upc := 0x2A, c := 510 }
      (fun t => t.upc == 0x24 && t.c == 509) = true := by decide
theorem test_decj_wraps : after (.decj 0x04) (running 0) (fun t => t.c == 511) = true := by decide
theorem test_done : after .done { running 0 with upc := 0x1E } (fun t => t.status == .done && t.upc == 0x1E) = true := by decide
-- 95_test_vectors.md 2.5.
theorem test_ldkey :
    after .ldkey { running 0 with buf := place 0x40 [0, 1, 2, 3, 4, 5, 6, 7, 8, 9, 10, 11, 12, 13, 14, 15, 99], rc := 5 }
      (fun t => (List.range 16).all (fun i => byteAt t.key i == BitVec.ofNat 8 i) && byteAt t.key 16 == 0 &&
        t.rc == 0) = true := by
  decide
theorem test_ldblk :
    after .ldblk { running 0 with buf := place 0x20 [0x12, 0x34, 0x56, 0x78, 0x9A, 0xBC, 0xDE, 0xF0] }
      (fun t => t.l == #v[0x12, 0x34, 0x56, 0x78] && t.r == #v[0x9A, 0xBC, 0xDE, 0xF0]) = true := by
  decide
theorem test_ldblk_256 :
    after .ldblk { running 2 with buf := place 0x20 [0x12, 0x34, 0x56, 0x78, 0x9A, 0xBC, 0xDE, 0xF0] }
      (fun t => t.l == #v[0x78563412, 0xF0DEBC9A, 0, 0] && t.r == #v[0, 0, 0, 0]) = true := by
  decide
theorem test_stblk :
    after .stblk { running 0 with l := #v[0x43, 0xC8, 0x3A, 0xB1], r := #v[0x59, 0xF2, 0x87, 0x31], buf := place 0x68 [0xEE] }
      (fun t => t.buf == place 0x60 [0x43, 0xC8, 0x3A, 0xB1, 0x59, 0xF2, 0x87, 0x31, 0xEE]) = true := by
  decide
theorem test_stblk_256_byte_order :
    after .stblk { running 2 with l := #v[0x959A80A5, 0, 0, 0] }
      (fun t => t.buf == place 0x60 [0xA5, 0x80, 0x9A, 0x95]) = true := by
  decide
theorem test_clr :
    after .clr { running 0 with l := #v[1, 2, 3, 4], key := countingKey, rc := 7, c := 9, buf := place 0x60 [1] }
      (fun t => dataPathZero t && t.buf == place 0x60 [1] && t.status == .busy) = true := by
  decide
-- 95_test_vectors.md 2.2.
theorem test_rotf :
    after .rotf { running 0 with key := countingKey }
      (fun t => (List.range 16).all (fun i => byteAt t.key i == BitVec.ofNat 8 ((i + 7) % 16)) &&
        byteAt t.key 16 == 16) = true := by
  decide
theorem test_rotb_256 :
    after .rotb { running 2 with key := countingKey }
      (fun t => (List.range 32).all fun i => byteAt t.key i == BitVec.ofNat 8 ((i + 0x13) % 32)) = true := by
  decide
-- 95_test_vectors.md 2.1.
theorem test_rcadv_wraps : after .rcadv { running 0 with rc := 0x9E3779B9 } (fun t => t.rc == 0x3C6EF372) = true := by decide
theorem test_rcadv_carries_between_the_limbs :
    after .rcadv { running 2 with rc := 0x9E3779B97F4A7C15F39CC0605CEDC834 }
      (fun t => t.rc == 0x3C6EF372FE94F82BE73980C0B9DB9068) = true := by
  decide
theorem test_rcret_below_zero :
    after .rcret (running 2) (fun t => t.rc == 0x61C8864680B583EA0C633F9FA31237CC) = true := by decide
theorem test_sktake : after .sktake { running 0 with key := countingKey } (fun t => t.sk == #v[0, 1, 2, 3]) = true := by decide
theorem test_sktake_256 :
    after .sktake { running 2 with key := countingKey }
      (fun t => t.sk == #v[0x03020100, 0x07060504, 0x0B0A0908, 0x0F0E0D0C]) = true := by
  decide
theorem test_skadd_carries_between_the_lanes :
    after .skadd { running 0 with sk := #v[0x07, 0x08, 0x09, 0x0A], rc := 0x9E3779B9 }
      (fun t => t.sk == #v[0xC0, 0x81, 0x40, 0xA8]) = true := by
  decide
theorem test_skadd_256 :
    after .skadd { running 2 with sk := #v[0x100F0E0D, 0x14131211, 0x18171615, 0x1C1B1A19], rc := 0x9E3779B97F4A7C15F39CC0605CEDC834 }
      (fun t => t.sk == #v[0x6CFCD641, 0x07AFD271, 0x9761922B, 0xBA5293D2]) = true := by
  decide
theorem test_sksub :
    after .sksub { running 0 with sk := #v[0xB8, 0x79, 0x37, 0x9E], rc := 0x9E3779B9 }
      (fun t => t.sk == #v[0xFF, 0xFF, 0xFF, 0xFF]) = true := by
  decide
theorem test_skfold :
    after .skfold { running 0 with key := countingKey, sk := #v[0xC0, 0x81, 0x40, 0xA8] }
      (fun t => byteAt t.key 0 == 0xC0 && byteAt t.key 1 == 0x81 && byteAt t.key 2 == 0x40 && byteAt t.key 3 == 0xA8 &&
        byteAt t.key 4 == 4) = true := by
  decide
theorem test_skfold_256 :
    after .skfold { running 2 with key := countingKey, sk := #v[0x6CFCD641, 0x07AFD271, 0x9761922B, 0xBA5293D2] }
      (fun t => byteAt t.key 0 == 0x41 && byteAt t.key 1 == 0xD6 && byteAt t.key 15 == 0xBA &&
        byteAt t.key 16 == 16) = true := by
  decide
theorem test_wldl :
    after .wldl { running 0 with l := #v[0x12, 0x34, 0x56, 0x78], r := #v[1, 2, 3, 4] }
      (fun t => t.w == #v[0x12, 0x34, 0x56, 0x78]) = true := by
  decide
theorem test_wldr :
    after .wldr { running 0 with l := #v[1, 2, 3, 4], r := #v[0x9A, 0xBC, 0xDE, 0xF0] }
      (fun t => t.w == #v[0x9A, 0xBC, 0xDE, 0xF0]) = true := by
  decide
-- 95_test_vectors.md 2.4.
theorem test_shift :
    after .shift { running 0 with w := #v[0x12, 0x34, 0x56, 0x78] }
      (fun t => t.w == #v[0x12, 0x68, 0xB2, 0x0F]) = true := by
  decide
theorem test_shift_256 :
    after .shift { running 2 with w := #v[0x12345678, 0x9ABCDEF0, 0x0F0F0F0F, 0xDEADBEEF] }
      (fun t => t.w == #v[0x12345678, 0xD5E6F784, 0x78787878, 0xF77EF56D]) = true := by
  decide
theorem test_xorsk :
    after .xorsk { running 0 with w := #v[0x12, 0x68, 0xB2, 0x0F], sk := #v[0xC0, 0x81, 0x40, 0xA8] }
      (fun t => t.w == #v[0xD2, 0xE9, 0xF2, 0xA7]) = true := by
  decide
-- 95_test_vectors.md 2.3.
theorem test_beta_low_nibbles :
    after .beta { running 0 with w := #v[0xAA, 0xCC, 0xF0, 0x00] }
      (fun t => t.w == #v[0x99, 0xD2, 0x9C, 0xE4]) = true := by
  decide
theorem test_beta_high_nibbles_msb : beta false (#v[0xFF, 0xF0, 0xCC, 0xAA] : Lanes 8) = #v[0x1E, 0x2B, 0xAC, 0x96] := by decide
theorem test_switch :
    after .switch { running 0 with w := #v[0x11, 0x22, 0x33, 0x44] }
      (fun t => t.w == #v[0x22, 0x33, 0x44, 0x11]) = true := by
  decide
theorem test_switch_256 :
    after .switch { running 2 with w := #v[1, 2, 4, 8] } (fun t => t.w == #v[0xE, 0xD, 0xB, 7]) = true := by decide
theorem test_xfr :
    after .xfr { running 0 with r := #v[0x9A, 0xBC, 0xDE, 0xF0], w := #v[0xC3, 0x4E, 0x59, 0xC1] }
      (fun t => t.r == #v[0x59, 0xF2, 0x87, 0x31]) = true := by
  decide
theorem test_xfl :
    after .xfl { running 0 with l := #v[0x12, 0x34, 0x56, 0x78], w := #v[0x51, 0xFC, 0x6C, 0xC9] }
      (fun t => t.l == #v[0x43, 0xC8, 0x3A, 0xB1]) = true := by
  decide
-- Bits above the lane width stay as they are (log 8).
theorem test_write_keeps_the_bits_above_the_width :
    after .wldl { running 0 with w := #v[0xAB00, 0, 0, 0], l := #v[0x12, 0, 0, 0] }
      (fun t => t.w == #v[0xAB12, 0, 0, 0]) = true := by
  decide

/-! ### The host's window and the placing of a first instruction -/

/-- A property of the next state of one step under `Cfg.ref`. -/
def stepped (s : State) (p : State → Bool) : Bool :=
  match stepUnder Cfg.ref s with
  | .next t => p t
  | .fault _ => false
  | .refused _ => false

-- 95_test_vectors.md 2.7: the status word of ERROR with InvalidLength.
theorem test_status_word :
    stepped { State.reset with status := .error, err := .invalidLength, pending := [.readWord 4] }
      (fun t => t.answer == 0x00000103) = true := by
  decide
theorem test_write_while_busy_is_ignored :
    stepped { running 0 with pending := [.writeByte 0x20 5] }
      (fun t => t.buf == [] && t.pending == []) = true := by decide
theorem test_reserved_command_refused_at_once :
    stepped { State.reset with pending := [.writeWord 0 0x10080104] }
      (fun t => t.status == .error && t.err == .unsupportedVariant && t.cmd == 0x10080104 && t.opr == 0) = true := by
  decide
theorem test_first_instruction_micro :
    stepped (State.reset.withFetchWord 16 0x0900) (fun t => t.upc == 1 && t.status == .busy) = true := by decide
theorem test_first_instruction_command :
    stepped (State.reset.withFetchWord 32 0x10080101)
      (fun t => t.upc == 0x20 && t.status == .busy && t.nrr == 1) = true := by
  decide
-- A written zero is what an unlisted byte reads as, so nothing is listed.
theorem test_writing_zero_lists_nothing : writeBuffer (writeBuffer [] 0x20 5) 0x20 0 = [] := by decide

-- 45_engine.md R240: the engine steps of DECS with CFG_REF (70_reset_and_hazards.md R304: 1226 for V64_128).
theorem test_decs_takes_1226_steps :
    after (.decs 0 0 8 16) State.reset (fun t => commandSteps t == 1226) = true := by decide
-- 45_engine.md R244: zero rounds store the block, here at the end of DEC.
theorem test_whole_command_of_zero_rounds :
    after (.dec 0 0 8 16) { State.reset with buf := place 0x20 [0x12, 0x34, 0x56, 0x78, 0x9A, 0xBC, 0xDE, 0xF0] }
      (fun t => readBuffer (wholeCommand Cfg.ref t).buf 0x67 == 0xF0 && (wholeCommand Cfg.ref t).status == .done) = true := by
  decide

/-! ### Witnesses: each obligation's hypotheses are met together -/

theorem test_witness_DecodeOfEncodeIsIdentity :
    (Instr.decj 0x7F).wellFormed = true ∧ (Instr.enc 3 255 255 255).wellFormed = true := by decide
theorem test_witness_EncodeOfDecodeIsIdentity :
    decode (.micro 0x0A7F) = .ok (.brz 0x7F) ∧ decode (.command 0xFFFFFF63) = .ok (.decs 3 255 255 255) := by decide
theorem test_witness_RowsMatchByMask_fits :
    (Code.micro 0x0A7F).fitsRow (.brz 0) = true ∧ (Code.command 0xFFFFFF63).fitsRow (.decs 0 0 0 0) = true := by decide
theorem test_witness_RowsMatchByMask_no_row (i : Instr) : (Code.micro 0x0000).fitsRow i = false := by
  cases i <;> simp [Code.fitsRow, encode, rowMask, rowMatch]
theorem test_witness_ResetEventClearsTheBlock :
    { running 0 with pending := [.reset, .engineTurn] }.pending = .reset :: [.engineTurn] := by decide
theorem test_witness_EngineWithoutBusyHasNoStep :
    State.reset.status ≠ .busy ∧ State.reset.pending = [] ∧
      { State.reset with pending := [.engineTurn] }.pending = [.engineTurn] := by decide
theorem test_witness_StepRunsTheFetchedMicroOperation :
    (running 0).status = .busy ∧ decodeMicro (readRom (running 0).rom (running 0).upc) = .ok .chk ∧
      (running 0).pending = [] := by decide
theorem test_witness_StepRunsTheHostCommand :
    { State.reset with pending := [.writeWord 0 0x10080100] }.pending = [.writeWord 0x00 0x10080100] ∧
      decodeCommand 0x10080100 = .ok (.enc 0 1 8 16) := by decide
theorem test_witness_IllegalMicroInstructionsRefused :
    decodeMicro (readRom { running 0 with upc := 0x1F }.rom { running 0 with upc := 0x1F }.upc) = .error .undefinedMicroOperation ∧
      { running 0 with upc := 0x1F }.status = .busy ∧ { running 0 with upc := 0x1F }.pending = [] ∧
      0x80 ≤ (0x80 : BitVec 8).toNat := by decide
theorem test_witness_IllegalMicroInstructionsRefused_engineTurn :
    { running 0 with upc := 0x1F, pending := [.engineTurn] }.pending = .engineTurn :: [] ∧
      decodeMicro (readRom (running 0).rom 0x1F) = .error .undefinedMicroOperation := by decide
theorem test_witness_UnsupportedAccessRefused :
    unsupportedAccess (.readHalf 0x20) = true ∧ unsupportedAccess (.writeByte 0x80 0) = true ∧
      unsupportedAccess (.readByte 0x07) = true ∧ unsupportedAccess (.writeWord 0x08 0) = true ∧
      unsupportedAccess (.readByte 0x08) = false ∧ unsupportedAccess (.writeByte 0x7F 0) = false ∧
      { State.reset with pending := [.readHalf 0x20] }.pending = [.readHalf 0x20] ∧ State.reset.status ≠ .busy ∧
      (running 0).status = .busy ∧ writeInWindow (.writeHalf 0x7F 0) = false := by decide
/-- A state with one host action pending. -/
def facing (a : HostAction) : State := { State.reset with pending := [a] }
theorem test_witness_HostReadsAnswerTheWindow :
    (facing (.readWord 0x00)).pending = .readWord 0x00 :: [] ∧
      (facing (.readWord 0x04)).pending = .readWord 0x04 :: [] ∧
      (facing (.readByte 0x1F)).pending = .readByte 0x1F :: [] ∧ 0x08 ≤ 0x1F ∧ 0x1F < 0x20 ∧
      (facing (.readByte 0x7F)).pending = .readByte 0x7F :: [] ∧ 0x20 ≤ 0x7F ∧ 0x7F < 0x80 := by decide
theorem test_witness_HostWritesLandInTheInputBuffers :
    (facing (.writeByte 0x5F 7)).status ≠ .busy ∧ (facing (.writeByte 0x5F 7)).pending = .writeByte 0x5F 7 :: [] ∧
      0x20 ≤ 0x5F ∧ 0x5F < 0x60 ∧ (facing (.writeByte 0x08 7)).pending = .writeByte 0x08 7 :: [] ∧
      (facing (.writeByte 0x60 7)).pending = .writeByte 0x60 7 :: [] ∧
      (facing (.writeWord 0x04 7)).pending = .writeWord 0x04 7 :: [] := by decide
theorem test_witness_WritesWhileBusyIgnored :
    (running 0).status = .busy ∧ writeInWindow (.writeByte 0x00 1) = true ∧ writeInWindow (.writeByte 0x7F 1) = true ∧
      writeInWindow (.writeHalf 0x7E 1) = true ∧ writeInWindow (.writeWord 0x00 0x10080100) = true ∧
      { running 0 with pending := [.writeByte 0x7F 1] }.pending = [.writeByte 0x7F 1] := by decide
theorem test_witness_HostCannotReachTheDataPath :
    (facing (.readWord 0x00)).pending = .readWord 0x00 :: [] ∧ HostAction.readWord 0x00 ≠ .engineTurn ∧
      HostAction.readWord 0x00 ≠ .reset ∧ step (facing (.readWord 0x00)) = .next State.reset := by
  refine ⟨?_, ?_, ?_, rfl⟩ <;> decide
theorem test_witness_CommandWordAccepted :
    (facing (.writeWord 0 0xFFFFFF63)).status ≠ .busy ∧
      (facing (.writeWord 0 0xFFFFFF63)).pending = .writeWord 0x00 0xFFFFFF63 :: [] ∧
      (0xFFFFFF63 : BitVec 32).extractLsb' 0 5 ≤ 3#5 ∧ (0xFFFFFF63 : BitVec 32).getLsbD 7 = false := by decide
theorem test_witness_CommandInstructionsAccepted :
    State.reset.status ≠ .busy ∧ (∀ v, Variant.ofSelector 3 = some v → (0 : BitVec 8) = Config.cfg.nrStd v) ∧
      ((3 : BitVec 2) = 3 → (0 : BitVec 8) = 0) ∧
      (∀ v, Variant.ofSelector 0 = some v → Config.cfg.nrStd .v64_128 = Config.cfg.nrStd v) ∧
      encode (.enc 0 1 8 16) = .command 0x10080100 := by
  refine ⟨by decide, ?_, fun _ => rfl, ?_, by decide⟩
  · intro v h; cases h
  · intro v h; cases h; rfl
theorem test_witness_ReservedCommandRefusedAtOnce :
    (facing (.writeWord 0 0x10080104)).status ≠ .busy ∧
      (facing (.writeWord 0 0x10080104)).pending = .writeWord 0x00 0x10080104 :: [] ∧
      4#5 ≤ (0x10080104 : BitVec 32).extractLsb' 0 5 ∧ (0x10080180 : BitVec 32).getLsbD 7 = true := by decide
theorem test_witness_ChkPassesOrRaises :
    (running 3).varr = 3 ∧ ((running 2).varr = 2 ∧ (32 = 32) ∧ (32 = 32)) ∧
      { running 2 with dlenr := 32, klenr := 31 }.klenr.toNat ≠ 32 ∧
      { running 2 with dlenr := 32, klenr := 32 }.dlenr.toNat = 32 ∧
      { running 2 with dlenr := 32, klenr := 32 }.klenr.toNat = 32 := by decide
theorem test_witness_BrzAndDecjSetTheCounterAndTheProgram :
    (0x7F : BitVec 8).toNat ≤ 0x7F ∧ (running 0).c = 0 ∧ { running 0 with c := 1 }.c ≠ 0 := by decide
theorem test_witness_DoneEndsTheCommand :
    exec .done (running 0) = .next ((running 0).setStatus .done) ∧ ((running 0).setStatus .done).pending = [] := ⟨rfl, rfl⟩
theorem test_witness_LdkeyLoadsTheKey :
    Variant.ofSelector (running 0).varr = some .v64_128 ∧ 15 < Variant.v64_128.kb ∧ Variant.v64_128.kb ≤ 16 := by decide
theorem test_witness_LdblkLoadsTheBlock :
    Variant.ofSelector (running 2).varr = some .v256_256 ∧ 3 < Variant.v256_256.lb := by decide
theorem test_witness_StblkStoresTheBlock :
    Variant.ofSelector (running 1).varr = some .v64_256 ∧ 0 < Variant.v64_256.lb := by decide
theorem test_witness_RotfAndRotbMoveTheKeyBytes :
    Variant.ofSelector (running 0).varr = some .v64_128 ∧ 0 < Variant.v64_128.kb ∧ Variant.v64_128.kb ≤ 31 := by decide
theorem test_witness_RcadvAndRcretMoveTheAccumulator : Variant.ofSelector (running 2).varr = some .v256_256 := by decide
theorem test_witness_SkaddAndSksubAreOneWideAddition : Variant.ofSelector (running 1).varr = some .v64_256 := by decide
theorem test_witness_SktakeAndSkfoldCopyTheFirstKeyBytes :
    Variant.ofSelector (running 2).varr = some .v256_256 ∧ 3 < Variant.v256_256.lb ∧ Variant.v256_256.hb ≤ 16 := by decide
theorem test_witness_WldlAndWldrCopyAHalf : Variant.ofSelector (running 0).varr = some .v64_128 := by decide
theorem test_witness_XorskXfrXflXorLaneByLane :
    Variant.ofSelector (running 2).varr = some .v256_256 ∧ 31 < Variant.v256_256.lw := by decide
theorem test_witness_ShiftRotatesEachLane :
    Variant.ofSelector (running 1).varr = some .v64_256 ∧ 7 < Variant.v64_256.lw := by decide
theorem test_witness_BetaSubstitutesEveryNibble :
    Variant.ofSelector (running 0).varr = some .v64_128 ∧ 7 < Variant.v64_128.lw := by decide
theorem test_witness_SwitchMixesTheLanes :
    Variant.ofSelector (running 2).varr = some .v256_256 ∧ 31 < Variant.v256_256.lw := by decide
theorem test_witness_WidthDependentMicroOperationsNeedAVariant :
    (running 3).varr = 3 ∧ Instr.ldkey ∈ [Instr.ldkey, .xfl] := by decide
theorem test_witness_RotationsUndoEachOther : 15 < Variant.v64_128.kb := by decide
theorem test_witness_LoadThenStoreCopiesTheBlock :
    Variant.ofSelector (running 2).varr = some .v256_256 ∧ 31 < Variant.v256_256.bb ∧
      ∃ t t' : State, exec .ldblk (running 2) = .next t ∧ t'.l = t.l ∧ t'.r = t.r ∧ t'.varr = t.varr :=
  ⟨by decide, by decide, _, _, rfl, rfl, rfl, rfl⟩
theorem test_witness_KeyUnstepUndoesKeyStep :
    ∃ k' rc' s, keyStep Cfg.ref .v64_128 (Vector.replicate 16 0xFF) 0 = (k', rc', s) := ⟨_, _, _, rfl⟩
theorem test_witness_RoundKeyTableGivesTheSameCipher :
    7 < Variant.v64_128.bb ∧
      ∃ l r, tableRounds Cfg.ref .v64_128 (roundKey Cfg.ref .v64_128 (Vector.replicate 16 0)) 1 (Vector.replicate 4 0, Vector.replicate 4 0) = (l, r) :=
  ⟨by decide, _, _, rfl⟩
theorem test_witness_EncryptionCommandComputesEnc :
    State.reset.status ≠ .busy ∧ State.reset.rom = [] ∧ State.reset.pending = [] ∧
      Variant.ofSelector 0 = some .v64_128 ∧ (8 : BitVec 8).toNat = Variant.v64_128.bb ∧
      (16 : BitVec 8).toNat = Variant.v64_128.kb ∧ Instr.enc 0 2 8 16 = .enc 0 2 8 16 ∧ 2 = (2 : BitVec 8).toNat := by decide
theorem test_witness_DecryptionCommandComputesDec :
    State.reset.status ≠ .busy ∧ State.reset.rom = [] ∧ State.reset.pending = [] ∧
      Variant.ofSelector 2 = some .v256_256 ∧ (32 : BitVec 8).toNat = Variant.v256_256.bb ∧
      (32 : BitVec 8).toNat = Variant.v256_256.kb ∧ Instr.dec 2 0 32 32 = .dec 2 0 32 32 ∧ 0 = (0 : BitVec 8).toNat := by
  decide
theorem test_witness_BadArgumentsRefusedByTheFirstStep :
    State.reset.status ≠ .busy ∧ State.reset.rom = [] ∧ State.reset.pending = [] ∧
      (∃ t, exec (.enc 3 1 5 7) State.reset = .next t) ∧ (∃ t, exec (.dec 0 1 8 32) State.reset = .next t) ∧
      Variant.ofSelector 0 = some .v64_128 ∧ (32 : BitVec 8).toNat ≠ Variant.v64_128.kb :=
  ⟨by decide, rfl, rfl, ⟨_, rfl⟩, ⟨_, rfl⟩, by decide, by decide⟩
-- The data path need not be zero before the acceptance.
theorem test_witness_BadArgumentsRefusedByTheFirstStep_data_path_not_zero :
    dataPathZero { State.reset with rc := 5 } = false ∧ { State.reset with rc := 5 }.status ≠ .busy ∧
      ∃ t, exec (.encs 1 0 8 31) { State.reset with rc := 5 } = .next t := ⟨by decide, by decide, _, rfl⟩
theorem test_witness_EveryStepKeepsTheInvariant :
    Inv { running 3 with upc := 1 } = false ∧ Inv State.reset = true ∧ step State.reset = .next State.reset :=
  ⟨by decide, by decide, rfl⟩
theorem test_witness_EveryStepKeepsTheInvariant_while_busy :
    Inv { running 0 with upc := 0x1E, dlenr := 8, klenr := 16 } = true := by decide
theorem test_witness_InvariantStatesNeverFault :
    Inv (facing (.readHalf 0x20)) = true ∧ step (facing (.readHalf 0x20)) = .refused .unsupportedHostAccess :=
  ⟨by decide, rfl⟩
theorem test_witness_TimeDoesNotDependOnSecrets :
    controlState (running 0) = controlState { running 0 with key := countingKey, answer := 1 } := rfl
theorem test_witness_EveryCommandEnds :
    (facing (.writeWord 0 0x10080100)).status ≠ .busy ∧ (facing (.writeWord 0 0x10080100)).rom = [] ∧
      (facing (.writeWord 0 0x10080100)).pending = [.writeWord 0x00 0x10080100] := by decide
theorem test_witness_EngineWritesOnlyDout :
    (running 3).pending = [] ∧ fetchWord (running 3) ≠ 0x0400 ∧
      step (running 3) = .next ((running 3).raiseError .unsupportedVariant) := ⟨rfl, by decide, rfl⟩
theorem test_witness_EngineWritesOnlyDout_engineTurn :
    { running 3 with pending := [.engineTurn] }.pending = .engineTurn :: [] ∧
      step { running 3 with pending := [.engineTurn] } = .next ((running 3).raiseError .unsupportedVariant) := ⟨rfl, rfl⟩
theorem test_witness_StatusChangesOnlyAsListed :
    (running 3).status = .busy ∧ (∀ rest, (running 3).pending ≠ .reset :: rest) ∧
      step (running 3) = .next ((running 3).raiseError .unsupportedVariant) ∧ State.reset.status ≠ .busy ∧
      step State.reset = .next State.reset := ⟨rfl, (by intro rest h; cases h), rfl, by decide, rfl⟩

end Sys2Proof.Tests
end

section
/-! The reset state (10_state.md R52). The registers are zero field by field; the buffers and the ROM are sparse lists with nothing
listed, so what they read as everywhere is the default of their storage. -/

namespace Sys2Proof.Machine

/-- Storage that lists nothing reads as the default. -/
@[simp] theorem Memory.read_nil {n : Nat} (d : Nat → BitVec n) (a : Nat) : Memory.read d [] a = d a := rfl

/-- Buffers that nothing has written read as zero (R52). -/
@[simp] theorem readBuffer_nil (offset : Nat) : readBuffer [] offset = 0 := by
  simp [readBuffer, bufferDefault]

/-- A ROM that lists no difference reads as the listing of 45_engine.md R212. -/
@[simp] theorem readRom_nil (address : BitVec 7) : readRom [] address = microprogram address.toNat := by
  simp [readRom]

/-- Settles O5: the registers by the fields of `State.reset`, the buffers and the ROM because the reset state lists no byte and no
word of them. -/
theorem resetStateIsZero : Obligations.ResetStateIsZero := by
  unfold Obligations.ResetStateIsZero
  have engineIdle : State.reset.status ≠ .busy := by decide
  have buffersZero (offset : Nat) : readBuffer State.reset.buf offset = 0 := readBuffer_nil offset
  have romIsListing (address : BitVec 7) : readRom State.reset.rom address = microprogram address.toNat := readRom_nil address
  exact ⟨rfl, rfl, rfl, rfl, rfl, rfl, rfl, -- the data path
    rfl, rfl, rfl, rfl, rfl, rfl, rfl, -- the sequencer, the latches and `CMD`
    rfl, engineIdle, rfl, buffersZero, romIsListing⟩

end Sys2Proof.Machine
end

section
/-! The words of the encoding and what they decode to (30_encoding.md R80 to R92): a word is put together from its fields, a word
that decodes is the encoding of what it decodes to, and a word that fits a row decodes to an instruction of that row. That decoding
has one answer is why no word fits two rows. -/

namespace Sys2Proof

/-! ### Fields and words -/

/-- The reserved field is bit 7 (R80). -/
theorem fieldReserved_eq_zero_iff (word : BitVec 32) : fieldReserved word = 0 ↔ word.getLsbD 7 = false := by
  rw [fieldReserved, ← BitVec.toNat_inj, BitVec.extractLsb'_toNat, BitVec.getLsbD, Nat.testBit_eq_decide_div_mod_eq]
  simp [Nat.shiftRight_eq_div_pow]

/-- A command word with bit 7 zero is put together from its other fields (R80). -/
theorem commandWord_fields {word : BitVec 32} (h : fieldReserved word = 0) :
    commandWord (fieldOp word) (fieldVar word) (fieldRounds word) (fieldDlen word) (fieldKlen word) = word := by
  have h7 : word[7] = false := (fieldReserved_eq_zero_iff word).1 h
  refine BitVec.eq_of_getLsbD_eq fun p hp => ?_
  simp only [commandWord, fieldOp, fieldVar, fieldRounds, fieldDlen, fieldKlen, BitVec.getLsbD_append,
    BitVec.getLsbD_extractLsb']
  interval_cases p <;> simp [h7]

/-- A micro-instruction word is put together from its two fields (R82). -/
theorem microWord_fields (word : BitVec 16) : microWord (fieldUop word) (fieldArg word) = word := by
  refine BitVec.eq_of_getLsbD_eq fun p hp => ?_
  simp only [microWord, fieldUop, fieldArg, BitVec.getLsbD_append, BitVec.getLsbD_extractLsb']
  interval_cases p <;> simp

/-- The mask of format H keeps `OP` and the reserved bit (R92). -/
theorem fields_of_masked_command {word : BitVec 32} {op : BitVec 5} (h : word &&& 0x9F#32 = op.setWidth 32) :
    fieldReserved word = 0 ∧ fieldOp word = op := by
  have bit (p : Nat) : (word.getLsbD p && (0x9F#32).getLsbD p) = (op.setWidth 32).getLsbD p := by rw [← h, BitVec.getLsbD_and]
  constructor
  · rw [fieldReserved_eq_zero_iff]
    simpa using bit 7
  · refine BitVec.eq_of_getLsbD_eq fun p hp => ?_
    have hbit := bit p
    simp only [fieldOp, BitVec.getLsbD_extractLsb', BitVec.getLsbD_setWidth] at hbit ⊢
    interval_cases p <;> simpa using hbit

/-- The mask of BRZ and DECJ keeps `UOP` and the highest bit of `ARG`, so their match values bound the target (R88, R92). -/
theorem fields_of_masked_branch {word : BitVec 16} {uop : BitVec 8} (h : word &&& 0xFF80#16 = microWord uop 0) :
    fieldUop word = uop ∧ fieldArg word ≤ 0x7F#8 := by
  have bit (p : Nat) : (word.getLsbD p && (0xFF80#16).getLsbD p) = (microWord uop 0).getLsbD p := by
    rw [← h, BitVec.getLsbD_and]
  constructor
  · refine BitVec.eq_of_getLsbD_eq fun p hp => ?_
    have hbit := bit (8 + p)
    simp only [fieldUop, microWord, BitVec.getLsbD_extractLsb', BitVec.getLsbD_append] at hbit ⊢
    interval_cases p <;> simpa using hbit
  · have h7 : (fieldArg word).msb = false := by
      have hbit := bit 7
      simp only [microWord, BitVec.getLsbD_append] at hbit
      simpa [fieldArg, BitVec.msb_eq_getLsbD_last] using hbit
    have hlt := BitVec.msb_eq_false_iff_two_mul_lt.1 h7
    bv_omega

/-! ### Command words -/

/-- A command word decodes only with bit 7 zero (R85). -/
theorem fieldReserved_of_decodeCommand {word : BitVec 32} {i : Instr} (h : decodeCommand word = .ok i) :
    fieldReserved word = 0 := by
  unfold decodeCommand at h
  split at h
  · cases h
  · next hres => exact not_not.1 hres

section
variable {word : BitVec 32} (hres : fieldReserved word = 0)
include hres

theorem decodeCommand_enc (hop : fieldOp word = 0) :
    decodeCommand word = .ok (.enc (fieldVar word) (fieldRounds word) (fieldDlen word) (fieldKlen word)) := by
  simp [decodeCommand, hres, hop]

theorem decodeCommand_dec (hop : fieldOp word = 1) :
    decodeCommand word = .ok (.dec (fieldVar word) (fieldRounds word) (fieldDlen word) (fieldKlen word)) := by
  simp [decodeCommand, hres, hop]

theorem decodeCommand_encs (hop : fieldOp word = 2) :
    decodeCommand word = .ok (.encs (fieldVar word) (fieldRounds word) (fieldDlen word) (fieldKlen word)) := by
  simp [decodeCommand, hres, hop]

theorem decodeCommand_decs (hop : fieldOp word = 3) :
    decodeCommand word = .ok (.decs (fieldVar word) (fieldRounds word) (fieldDlen word) (fieldKlen word)) := by
  simp [decodeCommand, hres, hop]

end

/-! ### The encoding of what a word decodes to -/

/-- A command word that decodes is the encoding of its instruction (R89). -/
theorem encode_of_decodeCommand {word : BitVec 32} {i : Instr} (h : decodeCommand word = .ok i) :
    encode i = .command word ∧ i.wellFormed = true := by
  have hword := commandWord_fields (fieldReserved_of_decodeCommand h)
  rcases Machine.decodeCommand_ok h with ⟨rfl, hop⟩ | ⟨rfl, hop⟩ | ⟨rfl, hop⟩ | ⟨rfl, hop⟩ <;>
    exact ⟨congrArg Code.command (hop ▸ hword), rfl⟩

/-- A word of one `UOP` code is put together from that code and its `ARG`. -/
theorem microWord_of_uop {word : BitVec 16} {uop : Nat} (hop : (fieldUop word).toNat = uop) :
    microWord (BitVec.ofNat 8 uop) (fieldArg word) = word := by
  rw [← hop, BitVec.ofNat_toNat, BitVec.setWidth_eq, microWord_fields]

/-- A word that `decodePlain` accepts is the encoding of the instruction of its `UOP` code (R88). -/
theorem encode_of_decodePlain {word : BitVec 16} {uop : Nat} {i j : Instr} (hop : (fieldUop word).toNat = uop)
    (h : decodePlain (fieldArg word) i = .ok j) (hi : encode i = .micro (microWord (BitVec.ofNat 8 uop) 0))
    (hwf : i.wellFormed = true) : encode j = .micro word ∧ j.wellFormed = true := by
  obtain ⟨harg, rfl⟩ := Machine.decodePlain_ok h
  rw [hi, ← harg, microWord_of_uop hop]
  exact ⟨rfl, hwf⟩

/-- A word that `decodeTarget` accepts is the encoding of the branch of its `UOP` code (R88). -/
theorem encode_of_decodeTarget {word : BitVec 16} {uop : Nat} {i : BitVec 8 → Instr} {j : Instr}
    (hop : (fieldUop word).toNat = uop) (h : decodeTarget (fieldArg word) i = .ok j)
    (hi : ∀ target, encode (i target) = .micro (microWord (BitVec.ofNat 8 uop) target))
    (hwf : ∀ target, (i target).wellFormed = targetInRange target) : encode j = .micro word ∧ j.wellFormed = true := by
  obtain ⟨harg, rfl⟩ := Machine.decodeTarget_ok h
  rw [hi, hwf, microWord_of_uop hop]
  exact ⟨rfl, decide_eq_true harg⟩

/-- A micro-instruction word that decodes is the encoding of its instruction (R88, R89). -/
theorem encode_of_decodeMicro {word : BitVec 16} {i : Instr} (h : decodeMicro word = .ok i) :
    encode i = .micro word ∧ i.wellFormed = true := by
  unfold decodeMicro at h
  split at h
  case h_9 hop => exact encode_of_decodeTarget hop h (fun _ => rfl) (fun _ => rfl) -- BRZ
  case h_10 hop => exact encode_of_decodeTarget hop h (fun _ => rfl) (fun _ => rfl) -- DECJ
  case h_27 => cases h -- no code of R83
  all_goals exact encode_of_decodePlain ‹(fieldUop word).toNat = _› h rfl rfl

/-- Every word that decodes is the encoding of what it decodes to, and that is well-formed (R88, R89). -/
theorem encode_of_decode {word : Code} {i : Instr} (h : decode word = .ok i) : encode i = word ∧ i.wellFormed = true := by
  cases word with
  | command word => exact encode_of_decodeCommand h
  | micro word => exact encode_of_decodeMicro h

/-! ### The rows of the opcode table -/

/-- A well-formed instruction's word fits its own row (R92). -/
theorem fitsRow_encode (i : Instr) (h : i.wellFormed = true) : (encode i).fitsRow i = true := by
  revert h
  cases i with
  | enc => exact Laws.FitsItsRow.enc _ _ _ _
  | dec => exact Laws.FitsItsRow.dec _ _ _ _
  | encs => exact Laws.FitsItsRow.encs _ _ _ _
  | decs => exact Laws.FitsItsRow.decs _ _ _ _
  | brz => exact Laws.FitsItsRow.brz _
  | decj => exact Laws.FitsItsRow.decj _
  | _ => exact fun _ => by decide

/-- A word fits the row of what it decodes to (R92). -/
theorem fitsRow_of_decode {word : Code} {i : Instr} (h : decode word = .ok i) : word.fitsRow i = true := by
  obtain ⟨rfl, hwf⟩ := encode_of_decode h
  exact fitsRow_encode i hwf

/-- When a command word fits a row: format H is the format whose mask is 0x9F. -/
theorem fitsRow_command_iff (word : BitVec 32) (i : Instr) :
    (Code.command word).fitsRow i = true ↔ rowMask i = 0x9F ∧ word &&& 0x9F#32 = BitVec.ofNat 32 (rowMatch i) := by
  cases i <;> simp [Code.fitsRow, encode, rowMask]

/-- When a micro-instruction word fits a row: format U has the other masks. -/
theorem fitsRow_micro_iff (word : BitVec 16) (i : Instr) :
    (Code.micro word).fitsRow i = true ↔
      rowMask i ≠ 0x9F ∧ word &&& BitVec.ofNat 16 (rowMask i) = BitVec.ofNat 16 (rowMatch i) := by
  cases i <;> simp [Code.fitsRow, encode, rowMask]

/-- Fitting a row is a matter of its match value and its mask alone. -/
theorem fitsRow_of_same_row {word : Code} {i j : Instr} (hmatch : rowMatch j = rowMatch i) (hmask : rowMask j = rowMask i)
    (h : word.fitsRow j = true) : word.fitsRow i = true := by
  cases word with
  | command word => rwa [fitsRow_command_iff, ← hmatch, ← hmask, ← fitsRow_command_iff]
  | micro word => rwa [fitsRow_micro_iff, ← hmatch, ← hmask, ← fitsRow_micro_iff]

/-- The word of a command's row decodes to that command, with the operands the word holds. -/
theorem decodeCommand_of_fitsRow {word : BitVec 32} {i : Instr} (h : (Code.command word).fitsRow i = true) :
    ∃ j, decodeCommand word = .ok j ∧ rowMatch j = rowMatch i ∧ rowMask j = rowMask i := by
  obtain ⟨hformat, hword⟩ := (fitsRow_command_iff word i).1 h
  cases i with
  | enc =>
    obtain ⟨hres, hop⟩ := fields_of_masked_command (op := 0) hword
    exact ⟨_, decodeCommand_enc hres hop, rfl, rfl⟩
  | dec =>
    obtain ⟨hres, hop⟩ := fields_of_masked_command (op := 1) hword
    exact ⟨_, decodeCommand_dec hres hop, rfl, rfl⟩
  | encs =>
    obtain ⟨hres, hop⟩ := fields_of_masked_command (op := 2) hword
    exact ⟨_, decodeCommand_encs hres hop, rfl, rfl⟩
  | decs =>
    obtain ⟨hres, hop⟩ := fields_of_masked_command (op := 3) hword
    exact ⟨_, decodeCommand_decs hres hop, rfl, rfl⟩
  | _ => cases hformat

/-- The word of a micro-operation's row decodes to that micro-operation, a branch with the target the word holds. -/
theorem decodeMicro_of_fitsRow {word : BitVec 16} {i : Instr} (h : (Code.micro word).fitsRow i = true) :
    ∃ j, decodeMicro word = .ok j ∧ rowMatch j = rowMatch i ∧ rowMask j = rowMask i := by
  obtain ⟨hformat, hword⟩ := (fitsRow_micro_iff word i).1 h
  cases i with
  | enc | dec | encs | decs => exact absurd rfl hformat
  | brz =>
    obtain ⟨hop, harg⟩ := fields_of_masked_branch (hword.trans (by decide : 0x0A00#16 = microWord 0x0A 0))
    exact ⟨.brz (fieldArg word), by simp [decodeMicro, decodeTarget, hop, harg], rfl, rfl⟩
  | decj =>
    obtain ⟨hop, harg⟩ := fields_of_masked_branch (hword.trans (by decide : 0x0B00#16 = microWord 0x0B 0))
    exact ⟨.decj (fieldArg word), by simp [decodeMicro, decodeTarget, hop, harg], rfl, rfl⟩
  | _ => -- the mask keeps every bit, so the word is the match value
    obtain rfl := (BitVec.and_allOnes (x := word)).symm.trans hword
    exact ⟨_, rfl, rfl, rfl⟩

/-- A word that fits a row decodes to an instruction of that row (R92). -/
theorem decode_of_fitsRow {word : Code} {i : Instr} (h : word.fitsRow i = true) :
    ∃ j, decode word = .ok j ∧ rowMatch j = rowMatch i ∧ rowMask j = rowMask i := by
  cases word with
  | command word => exact decodeCommand_of_fitsRow h
  | micro word => exact decodeMicro_of_fitsRow h

/-- Settles O4: a word that fits a row decodes to an instruction of that row and fits the row of what it decodes to; the decoder's
one answer separates the rows. -/
theorem rowsMatchByMask : Obligations.RowsMatchByMask := by
  unfold Obligations.RowsMatchByMask
  refine ⟨fun word i => ⟨fun h => ?_, ?_⟩, fun word i j hi hj => ?_, fun word hnone => ?_⟩
  · obtain ⟨j, hj, hmatch, hmask⟩ := decode_of_fitsRow h
    exact ⟨j, hj, fitsRow_of_decode hj, hmatch, hmask⟩
  · rintro ⟨j, -, hfits, hmatch, hmask⟩
    exact fitsRow_of_same_row hmatch hmask hfits
  · obtain ⟨a, ha, hai, -⟩ := decode_of_fitsRow hi
    obtain ⟨b, hb, hbj, -⟩ := decode_of_fitsRow hj
    obtain rfl : a = b := Except.ok.inj (ha.symm.trans hb)
    exact hai.symm.trans hbj
  · cases hd : decode word with
    | error e => exact ⟨e, rfl⟩
    | ok j => exact absurd (fitsRow_of_decode hd) (by simp [hnone j])

end Sys2Proof
end

section
/-! A host write of a word to `CMD` while not BUSY (30_encoding.md R84, R85): it is accepted with the latches R84 names, or stored
and refused at once. -/

namespace Sys2Proof.Machine

/-! ### What acceptance latches -/

/-- The round count R84 latches from a command word: `ROUNDS` for ENC and DEC, the standard count for ENCS and DECS. -/
def latchedRounds (word : BitVec 32) : BitVec 8 :=
  if fieldOp word ≤ 1#5 then fieldRounds word else standardRounds Config.cfg (fieldVar word)

/-- The program R84 starts for a command word: bit 0 of `OP` tells encryption from decryption. -/
def programEntry (word : BitVec 32) : BitVec 7 := if word.extractLsb' 0 1 = 0#1 then encryptEntry else decryptEntry

/-- The least bit of the word is the least bit of `OP`. -/
theorem programEntry_eq (word : BitVec 32) :
    programEntry word = if (fieldOp word).setWidth 1 = 0#1 then encryptEntry else decryptEntry := by
  have hbit : word.extractLsb' 0 1 = (fieldOp word).setWidth 1 := by
    refine BitVec.eq_of_getLsbD_eq fun p hp => ?_
    have hp5 : p < 5 := by omega
    simp [fieldOp, hp, hp5]
  rw [programEntry, hbit]

/-- A command word that decodes runs as the acceptance of its own fields, with the round count and the program of R84. -/
theorem exec_eq_startCommand {word : BitVec 32} {i : Instr} (h : decodeCommand word = .ok i) (s : State) :
    exec i s = .next (startCommand s (fieldOp word) (fieldVar word) (fieldRounds word) (fieldDlen word) (fieldKlen word)
      (latchedRounds word) (programEntry word)) := by
  rw [latchedRounds, programEntry_eq]
  rcases decodeCommand_ok h with ⟨rfl, hop⟩ | ⟨rfl, hop⟩ | ⟨rfl, hop⟩ | ⟨rfl, hop⟩ <;> rw [hop] <;> rfl

/-! ### Which words are accepted -/

/-- A word decodes exactly when `OP` is at most 3 and bit 7 is zero (R81, R85). -/
theorem decodeCommand_isOk_iff (word : BitVec 32) :
    (∃ i, decodeCommand word = .ok i) ↔ fieldOp word ≤ 3#5 ∧ word.getLsbD 7 = false := by
  constructor
  · rintro ⟨i, hi⟩
    refine ⟨?_, (fieldReserved_eq_zero_iff word).1 (fieldReserved_of_decodeCommand hi)⟩
    rcases decodeCommand_ok hi with ⟨-, hop⟩ | ⟨-, hop⟩ | ⟨-, hop⟩ | ⟨-, hop⟩ <;> rw [hop] <;> decide
  · rintro ⟨hle, h7⟩
    have hres := (fieldReserved_eq_zero_iff word).2 h7
    have hop : fieldOp word = 0 ∨ fieldOp word = 1 ∨ fieldOp word = 2 ∨ fieldOp word = 3 := by
      revert hle
      generalize fieldOp word = op
      revert op
      decide
    rcases hop with hop | hop | hop | hop
    · exact ⟨_, decodeCommand_enc hres hop⟩
    · exact ⟨_, decodeCommand_dec hres hop⟩
    · exact ⟨_, decodeCommand_encs hres hop⟩
    · exact ⟨_, decodeCommand_decs hres hop⟩

/-! ### The host's write to `CMD` -/

section
variable {s : State} {word : BitVec 32} {rest : List HostAction} (hnotBusy : s.status ≠ .busy)
  (hp : s.pending = .writeWord 0x00 word :: rest)
include hnotBusy hp

/-- While not BUSY the write reaches `CMD`. -/
theorem step_of_writeCmd : step s = hostWriteCmd exec word (s.setPending rest) :=
  (step_of_pending hp).trans (hostWrite_of_not_busy (s := s.setPending rest) hnotBusy _ _ _)

/-- A word that decodes starts its command (R84). -/
theorem step_of_accepted_word {i : Instr} (hi : decodeCommand word = .ok i) :
    step s = .next (startCommand (s.setPending rest) (fieldOp word) (fieldVar word) (fieldRounds word) (fieldDlen word)
      (fieldKlen word) (latchedRounds word) (programEntry word)) := by
  rw [step_of_writeCmd hnotBusy hp, ← exec_eq_startCommand hi]
  simp only [hostWriteCmd, hi]

/-- A reserved word is refused at once (R85). -/
theorem step_of_reserved_word {e : DecodeError} (he : decodeCommand word = .error e) :
    step s = .next (refuseCommand (s.setPending rest) word) := by
  rw [step_of_writeCmd hnotBusy hp]
  simp only [hostWriteCmd, he]

end

/-- Settles O16: the word decodes, its instruction is the acceptance of its own fields, and those fields put together are the word
that `CMD` holds. -/
theorem commandWordAccepted : Obligations.CommandWordAccepted := by
  unfold Obligations.CommandWordAccepted
  intro s word rest hnotBusy hp hop h7
  obtain ⟨i, hi⟩ := (decodeCommand_isOk_iff word).2 ⟨hop, h7⟩
  have hcmd := commandWord_fields (fieldReserved_of_decodeCommand hi)
  rw [step_of_accepted_word hnotBusy hp hi, startCommand_of_not_busy (s := s.setPending rest) hnotBusy, hcmd]
  rfl

/-- Settles O18: a word with a reserved `OP` or with bit 7 set does not decode. -/
theorem reservedCommandRefusedAtOnce : Obligations.ReservedCommandRefusedAtOnce := by
  unfold Obligations.ReservedCommandRefusedAtOnce
  intro s word rest hnotBusy hp hreserved
  cases hd : decodeCommand word with
  | error e =>
    rw [step_of_reserved_word hnotBusy hp hd, refuseCommand_of_not_busy (s := s.setPending rest) hnotBusy]
    rfl
  | ok i =>
    obtain ⟨hop, h7⟩ := (decodeCommand_isOk_iff word).1 ⟨i, hd⟩
    rcases hreserved with hge | hset
    · exact absurd (BitVec.le_trans hge hop) (by decide)
    · cases h7.symm.trans hset

end Sys2Proof.Machine
end

section
/-! The 128-bit adder and subtracter of two 64-bit limbs (40_round_constant.md R103): a word is its two limbs as numbers, and the
carry or the borrow is the unit of the high limb that the low limbs give or take. -/

namespace Sys2Proof.Machine

/-! ### A word and its limbs -/

/-- A word put together from two limbs, as a number. -/
theorem toNat_append_limbs (hi lo : BitVec 64) : (hi ++ lo).toNat = hi.toNat * 2 ^ 64 + lo.toNat := by
  rw [BitVec.toNat_append, ← Nat.shiftLeft_add_eq_or_of_lt lo.isLt, Nat.shiftLeft_eq]

/-- A word is its high limb put before its low limb. -/
theorem limbHi_append_limbLo (x : BitVec 128) : limbHi x ++ limbLo x = x := by
  refine BitVec.eq_of_toNat_eq ?_
  rw [toNat_append_limbs, limbHi, limbLo, BitVec.extractLsb'_toNat, BitVec.extractLsb'_toNat, Nat.shiftRight_eq_div_pow,
    Nat.shiftRight_zero]
  have := x.isLt
  omega

/-- A word as the number its limbs make. -/
theorem toNat_eq_limbs (x : BitVec 128) : x.toNat = (limbHi x).toNat * 2 ^ 64 + (limbLo x).toNat := by
  rw [← toNat_append_limbs, limbHi_append_limbLo]

/-! ### Carry and borrow -/

/-- The low limbs' sum as numbers is the low limb of the result and 2^64 for the carry. -/
theorem carryOut_spec (x y : BitVec 64) : (x + y).toNat + (carryOut x y).toNat * 2 ^ 64 = x.toNat + y.toNat := by
  have hx := x.isLt
  have hy := y.isLt
  rw [BitVec.toNat_add, carryOut]
  split
  · rw [show (1 : BitVec 64).toNat = 1 from rfl]
    omega
  · rw [show (0 : BitVec 64).toNat = 0 from rfl]
    omega

/-- The low limb of the difference and what is taken away make the first limb and 2^64 for the borrow. -/
theorem borrowOut_spec (x y : BitVec 64) : (x - y).toNat + y.toNat = x.toNat + (borrowOut x y).toNat * 2 ^ 64 := by
  have hx := x.isLt
  have hy := y.isLt
  rw [BitVec.toNat_sub, borrowOut]
  split
  · rw [show (1 : BitVec 64).toNat = 1 from rfl]
    omega
  · rw [show (0 : BitVec 64).toNat = 0 from rfl]
    omega

/-! ### The limb adder and the wide one -/

/-- The limb adder is the 128-bit sum (R103). -/
theorem add128_eq_add (x y : BitVec 128) : add128 x y = x + y := by
  refine BitVec.eq_of_toNat_eq ?_
  have hcarry := carryOut_spec (limbLo x) (limbLo y)
  have hlow := (limbLo x + limbLo y).isLt
  rw [add128, toNat_append_limbs, BitVec.toNat_add (x := x), toNat_eq_limbs x, toNat_eq_limbs y, BitVec.toNat_add (x := _ + _),
    BitVec.toNat_add (x := limbHi x)]
  omega

/-- The limb subtracter is the 128-bit difference (R103). -/
theorem sub128_eq_sub (x y : BitVec 128) : sub128 x y = x - y := by
  refine BitVec.eq_of_toNat_eq ?_
  have hborrow := borrowOut_spec (limbLo x) (limbLo y)
  have hlow := (limbLo x - limbLo y).isLt
  have hhigh := (limbHi y).isLt
  have hunit := (borrowOut (limbLo x) (limbLo y)).isLt
  rw [sub128, toNat_append_limbs, BitVec.toNat_sub (x := x), toNat_eq_limbs x, toNat_eq_limbs y, BitVec.toNat_sub (x := _ - _),
    BitVec.toNat_sub (x := limbHi x)]
  omega

/-- Settles O39: the numbers of the 128-bit sum and difference. -/
theorem limbAdderIsTheWideAdder : Obligations.LimbAdderIsTheWideAdder := by
  unfold Obligations.LimbAdderIsTheWideAdder
  intro x y
  rw [add128_eq_add, sub128_eq_sub, BitVec.toNat_add, BitVec.toNat_sub, Nat.add_comm x.toNat (2 ^ 128 - y.toNat)]
  exact ⟨rfl, rfl⟩

end Sys2Proof.Machine
end

section
/-! The accumulator's closed form (40_round_constant.md R108). Every part of a command moves `RC` by whole key steps, so where it
stands is the number of key steps taken: `rcAfter` says that number, a half-round is one key step forward or back, and a run of
equal parts counts by multiplication. -/

namespace Sys2Proof.Machine

/-! ### One key step -/

/-- `Ret` undoes `Adv` (R108). -/
@[simp] theorem ret_adv (c : Cfg) (v : Variant) (x : BitVec v.cw) : ret c v (adv c v x) = x := BitVec.add_sub_cancel x _

/-- `Adv` undoes `Ret` (R108). -/
@[simp] theorem adv_ret (c : Cfg) (v : Variant) (x : BitVec v.cw) : adv c v (ret c v x) = x := BitVec.sub_add_cancel x _

/-- Subtracting the accumulator from the subkey undoes adding it (R106 to R108). -/
theorem subConstant_addConstant {w : Nat} (s : Lanes w) (rc : BitVec (4 * w)) : subConstant (addConstant s rc) rc = s := by
  rw [subConstant, addConstant, intOf_lanesOf, BitVec.add_sub_cancel, lanesOf_intOf]

/-- The accumulator `i` key steps after the load: `(i * DELTA) mod 2^CW` (R108). -/
def rcAfter (c : Cfg) (v : Variant) (i : Nat) : BitVec v.cw := BitVec.ofNat v.cw (i * (c.delta v).toNat)

/-- The number of R108. -/
theorem toNat_rcAfter (c : Cfg) (v : Variant) (i : Nat) : (rcAfter c v i).toNat = (i * (c.delta v).toNat) % 2 ^ v.cw :=
  BitVec.toNat_ofNat _ _

/-- The load clears the accumulator (R100). -/
theorem rcAfter_zero (c : Cfg) (v : Variant) : rcAfter c v 0 = 0 := by simp [rcAfter]

/-- `Adv` is one key step forward. -/
theorem adv_rcAfter {c : Cfg} {v : Variant} {x : BitVec v.cw} {i : Nat} (h : x = rcAfter c v i) :
    adv c v x = rcAfter c v (i + 1) := by
  rw [h, adv, rcAfter, rcAfter, Nat.succ_mul, BitVec.ofNat_add, BitVec.ofNat_toNat, BitVec.setWidth_eq]

/-- `Ret` is one key step back. -/
theorem ret_rcAfter {c : Cfg} {v : Variant} {x : BitVec v.cw} {i : Nat} (h : x = rcAfter c v (i + 1)) :
    ret c v x = rcAfter c v i := by
  rw [h, ← adv_rcAfter rfl, ret_adv]

/-! ### Runs of key steps -/

section
variable {c : Cfg} {v : Variant} {α : Type} {f : α → α} {rc : α → BitVec v.cw} {k : Nat}

/-- If `f` is `k` key steps forward, `n` applications are `n * k`. -/
theorem rc_applyTimes_forward (hf : ∀ x i, rc x = rcAfter c v i → rc (f x) = rcAfter c v (i + k)) (n : Nat) {x : α} {i : Nat}
    (hx : rc x = rcAfter c v i) : rc (applyTimes f n x) = rcAfter c v (i + n * k) := by
  induction n with
  | zero => simpa [applyTimes] using hx
  | succ n ih => rw [applyTimes_succ, hf _ _ ih, Nat.succ_mul, Nat.add_assoc]

/-- If `f` is `k` key steps back, `n` applications are `n * k`. -/
theorem rc_applyTimes_back (hf : ∀ x i, rc x = rcAfter c v (i + k) → rc (f x) = rcAfter c v i) (n : Nat) {x : α} {i : Nat}
    (hx : rc x = rcAfter c v (i + n * k)) : rc (applyTimes f n x) = rcAfter c v i := by
  induction n generalizing i with
  | zero => simpa [applyTimes] using hx
  | succ n ih =>
    rw [applyTimes_succ]
    refine hf _ _ (ih ?_)
    rw [hx, Nat.succ_mul, Nat.add_assoc, Nat.add_comm k]

end

section
variable {c : Cfg} {v : Variant}

/-- `i` advances from zero (R108). -/
theorem applyTimes_adv_zero (i : Nat) : applyTimes (adv c v) i 0 = rcAfter c v i := by
  simpa using rc_applyTimes_forward (f := adv c v) (rc := id) (fun _ _ => adv_rcAfter) i (rcAfter_zero c v).symm

/-- `i` retreats from there lead back to zero (R108). -/
theorem applyTimes_ret_rcAfter (i : Nat) : applyTimes (ret c v) i (rcAfter c v i) = 0 := by
  rw [← rcAfter_zero c v]
  exact rc_applyTimes_back (rc := id) (fun _ _ => ret_rcAfter) i (by simp)

/-! ### The parts of a command -/

variable {st : Feistel v} {i : Nat}

/-- The fast-forward's step is one key step forward (R226). -/
theorem keyForward_rcAfter (h : st.rc = rcAfter c v i) : (keyForward c v st).rc = rcAfter c v (i + 1) := adv_rcAfter h

/-- Either half-round is one key step forward (R223). -/
theorem halfL_rcAfter (h : st.rc = rcAfter c v i) : (halfL c v st).rc = rcAfter c v (i + 1) := adv_rcAfter h
theorem halfR_rcAfter (h : st.rc = rcAfter c v i) : (halfR c v st).rc = rcAfter c v (i + 1) := adv_rcAfter h

/-- Either half-round undone is one key step back (R227). -/
theorem unHalfR_rcAfter (h : st.rc = rcAfter c v (i + 1)) : (unHalfR c v st).rc = rcAfter c v i := ret_rcAfter h
theorem unHalfL_rcAfter (h : st.rc = rcAfter c v (i + 1)) : (unHalfL c v st).rc = rcAfter c v i := ret_rcAfter h

/-- A round is two key steps forward (R224). -/
theorem fullRound_rcAfter (h : st.rc = rcAfter c v i) : (fullRound c v st).rc = rcAfter c v (i + 2) := halfR_rcAfter (halfL_rcAfter h)

/-- A reverse round is two key steps back (R229). -/
theorem unRound_rcAfter (h : st.rc = rcAfter c v (i + 2)) : (unRound c v st).rc = rcAfter c v i := unHalfL_rcAfter (unHalfR_rcAfter h)

/-! ### From the load -/

variable (p : Vector Byte v.bb) (kin : Vector Byte v.kb)

/-- The load takes no key step (R225). -/
theorem loaded_rc : (loaded v p kin).rc = rcAfter c v 0 := (rcAfter_zero c v).symm

/-- The fast-forward of `m` key steps (R226). -/
theorem fastForward_loaded_rc (m : Nat) : (fastForward c v m (loaded v p kin)).rc = rcAfter c v m := by
  simpa [fastForward] using rc_applyTimes_forward (rc := Feistel.rc) (fun _ _ => keyForward_rcAfter) m (loaded_rc (c := c) p kin)

/-- `n` rounds of encryption (R225). -/
theorem fullRounds_loaded_rc (n : Nat) : (applyTimes (fullRound c v) n (loaded v p kin)).rc = rcAfter c v (2 * n) := by
  have h := rc_applyTimes_forward (rc := Feistel.rc) (fun _ _ => fullRound_rcAfter) n (loaded_rc (c := c) p kin)
  rwa [Nat.zero_add, Nat.mul_comm] at h

/-- On the way back, `j` reverse rounds after a fast-forward of `2 * (n + j)` key steps (R229). -/
theorem unRounds_loaded_rc (n j : Nat) :
    (applyTimes (unRound c v) j (fastForward c v (2 * (n + j)) (loaded v p kin))).rc = rcAfter c v (2 * n) := by
  refine rc_applyTimes_back (rc := Feistel.rc) (fun _ _ => unRound_rcAfter) j ?_
  rw [fastForward_loaded_rc, Nat.mul_add, Nat.mul_comm j]

end

/-- Settles O38: the accumulator of every part, counted in key steps from the load. -/
theorem accumulatorHasItsClosedForm : Obligations.AccumulatorHasItsClosedForm := by
  unfold Obligations.AccumulatorHasItsClosedForm
  refine fun c v => ⟨fun x => ⟨ret_adv c v x, adv_ret c v x⟩, fun i => ?advances, fun i => ?retreats,
    fun s rc => subConstant_addConstant s rc, fun p kin n j => ⟨?fastForward, ?rounds, ?leftHalf, ?reverseRounds, ?rightHalfUndone⟩⟩
  case advances => rw [applyTimes_adv_zero, toNat_rcAfter]
  case retreats => rw [applyTimes_adv_zero, applyTimes_ret_rcAfter]
  case fastForward => rw [fastForward_loaded_rc, toNat_rcAfter]
  case rounds => rw [fullRounds_loaded_rc, toNat_rcAfter]
  case leftHalf => rw [halfL_rcAfter (fullRounds_loaded_rc p kin n), toNat_rcAfter]
  case reverseRounds => rw [unRounds_loaded_rc, toNat_rcAfter]
  case rightHalfUndone => rw [unHalfR_rcAfter (i := 2 * n + 1) (unRounds_loaded_rc p kin (n + 1) j), toNat_rcAfter]

end Sys2Proof.Machine
end

section
/-! The key-rotation register (41_key_rotation.md). Rotations of one byte array add their steps, and a step that is a multiple of
the length is no rotation: every law of R124 is a sum of steps that the length divides. -/

namespace Sys2Proof.Machine

/-! ### Rotations of a byte array -/

section
variable {n : Nat} (k : Vector Byte n)

/-- Two rotations are one by the sum of their steps. -/
theorem rotateBytes_rotateBytes (s t : Nat) : rotateBytes s (rotateBytes t k) = rotateBytes (s + t) k := by
  refine bytes_ext fun i hi => ?_
  have hmod : (i + s) % n < n := Nat.mod_lt _ (Nat.zero_lt_of_lt hi)
  rw [byteAt_rotateBytes _ _ hi, byteAt_rotateBytes _ _ hmod, byteAt_rotateBytes _ _ hi, Nat.mod_add_mod, Nat.add_assoc]

/-- A rotation by a multiple of the length moves nothing. -/
theorem rotateBytes_of_dvd {s : Nat} (h : n ∣ s) : rotateBytes s k = k := by
  refine bytes_ext fun i hi => ?_
  obtain ⟨q, rfl⟩ := h
  rw [byteAt_rotateBytes _ _ hi, Nat.add_mul_mod_self_left, Nat.mod_eq_of_lt hi]

/-- `m` rotations by one step are one by `m` times the step (R124). -/
theorem applyTimes_rotateBytes (s m : Nat) : applyTimes (rotateBytes s) m k = rotateBytes (m * s) k := by
  induction m with
  | zero => rw [applyTimes, Nat.zero_mul, rotateBytes_of_dvd k (Nat.dvd_zero n)]
  | succ m ih => rw [applyTimes_succ, ih, rotateBytes_rotateBytes, Nat.succ_mul, Nat.add_comm s]

end

/-- The length divides the steps of `n / gcd(s, n)` rotations by `s`: together they are `lcm(s, n)` (R124). -/
theorem dvd_div_gcd_mul (s n : Nat) : n ∣ n / Nat.gcd s n * s := by
  have hlcm : n / Nat.gcd s n * s = Nat.lcm s n := by
    rw [Nat.div_mul_right_comm (Nat.gcd_dvd_right s n), Nat.mul_comm, Nat.lcm]
  exact hlcm ▸ Nat.dvd_lcm_right s n

/-! ### The key's two rotations -/

/-- The index a rotation moves to or from lies in the key. -/
theorem rotated_index_lt (c : Cfg) (v : Variant) {i : Nat} (hi : i < v.kb) : (i + (c.rotStep v).val) % v.kb < v.kb :=
  Nat.mod_lt _ (Nat.zero_lt_of_lt hi)

section
variable (c : Cfg) (v : Variant) (k : Vector Byte v.kb)

/-- `RotB` undoes `RotF` (R124). -/
@[simp] theorem rotB_rotF : rotB c v (rotF c v k) = k := by
  rw [rotB, rotF, rotateBytes_rotateBytes, Nat.sub_add_cancel (c.rotStep v).isLt.le, rotateBytes_of_dvd k (Nat.dvd_refl _)]

/-- `RotF` undoes `RotB` (R124). -/
@[simp] theorem rotF_rotB : rotF c v (rotB c v k) = k := by
  rw [rotB, rotF, rotateBytes_rotateBytes, Nat.add_sub_cancel' (c.rotStep v).isLt.le, rotateBytes_of_dvd k (Nat.dvd_refl _)]

/-- `n` forward rotations are the rotation by `n * s` (R124). -/
theorem applyTimes_rotF (n : Nat) : applyTimes (rotF c v) n k = rotateBytes (n * (c.rotStep v).val) k :=
  applyTimes_rotateBytes k _ n

/-- `RotF` brings byte `(i + s) mod KB` to index `i` (R120). -/
theorem byteAt_rotF {i : Nat} (hi : i < v.kb) : byteAt (rotF c v k) i = byteAt k ((i + (c.rotStep v).val) % v.kb) :=
  byteAt_rotateBytes _ k hi

/-- `RotB` brings byte `i` to index `(i + s) mod KB`, where `RotF` would fetch it (R121). -/
theorem byteAt_rotB {i : Nat} (hi : i < v.kb) : byteAt (rotB c v k) ((i + (c.rotStep v).val) % v.kb) = byteAt k i := by
  rw [← byteAt_rotF c v _ hi, rotF_rotB]

end

/-! ### What a write of the key changes -/

/-- A key byte below `KB` after a write of the key (10_state.md R33). -/
theorem byteAt_putKey_of_lt (v : Variant) (reg : Vector Byte 32) (k : Vector Byte v.kb) {i : Nat} (hi : i < v.kb) :
    byteAt (putKey v reg k) i = byteAt k i := by
  rw [byteAt_putKey v reg k (hi.trans_le (kb_le v)), if_pos hi]

/-- A micro-operation that writes the key register and advances changes nothing but that and `UPC`. -/
theorem exec_key_write_frame {i : Instr} {s : State} {reg : Vector Byte 32} (h : exec i s = .next (State.advance (s.setKey reg))) :
    ∃ t, exec i s = .next t ∧ t = { s with key := t.key, upc := s.upc + 1 } ∧ t.key = reg ∧ buffersAgree s t :=
  ⟨_, h, rfl, rfl, fun _ => rfl⟩

/-! ### The obligations -/

/-- Settles O37, by adding up the steps of the rotations. -/
theorem rotationsUndoEachOther : Obligations.RotationsUndoEachOther := by
  unfold Obligations.RotationsUndoEachOther
  refine fun c v k => ⟨rotB_rotF c v k, rotF_rotB c v k, fun n i hi => ?repeated, ?fullTurn⟩
  case repeated => rw [applyTimes_rotF, byteAt_rotateBytes _ k hi]
  case fullTurn => rw [applyTimes_rotF, rotateBytes_of_dvd k (dvd_div_gcd_mul _ _)]

/-- Settles O27: each is a write of the rotated key, whose bytes R120 and R121 name. -/
theorem rotfAndRotbMoveTheKeyBytes : Obligations.RotfAndRotbMoveTheKeyBytes := by
  unfold Obligations.RotfAndRotbMoveTheKeyBytes
  refine ⟨by decide, by decide, fun s v h => ⟨?forward, ?backward⟩⟩
  case forward =>
    obtain ⟨t, hexec, hframe, hkey, hbuf⟩ := exec_key_write_frame (exec_rotf h)
    refine ⟨t, hexec, hframe, fun i hi => ?_, fun i hi => by rw [hkey, byteAt_putKey_of_ge v _ _ hi], hbuf⟩
    rw [hkey, byteAt_putKey_of_lt v _ _ hi, byteAt_rotF _ v _ hi, byteAt_keyAt v _ (rotated_index_lt _ v hi)]
  case backward =>
    obtain ⟨t, hexec, hframe, hkey, hbuf⟩ := exec_key_write_frame (exec_rotb h)
    refine ⟨t, hexec, hframe, fun i hi => ?_, fun i hi => by rw [hkey, byteAt_putKey_of_ge v _ _ hi], hbuf⟩
    rw [hkey, byteAt_putKey_of_lt v _ _ (rotated_index_lt _ v hi), byteAt_rotB _ v _ hi, byteAt_keyAt v _ hi]

end Sys2Proof.Machine
end

section
/-! Beta (42_beta.md). A lane vector is its nibbles, one at each bit position, and Beta maps each through the S-box on its own
(R142). So Beta is as invertible as the S-box, and equations that give the S-box's value at every nibble are Beta. The equations
of R144 are those of R143 with the lanes in the opposite order, as the two nibble orders are. -/

namespace Sys2Proof.Machine

/-! ### A lane vector is its nibbles -/

/-- The lane that carries bit `b` carries it back: each nibble order is its own inverse (R142). -/
@[simp] theorem nibbleLane_nibbleLane (o : Bool) (j : Fin 4) : nibbleLane o (nibbleLane o j) = j := by
  cases o <;> simp [nibbleLane]

/-- Bit `b` of a nibble is the bit of the lane that carries it (R142). -/
theorem getLsbD_nibbleAt {w : Nat} (o : Bool) (x : Lanes w) (p : Nat) (b : Fin 4) :
    (nibbleAt o x p).getLsbD b.val = x[nibbleLane o b].getLsbD p := by
  simp [nibbleAt, BitVec.getLsbD_eq_getElem]

/-- Lane vectors with the same nibble at every position are equal. -/
theorem lanes_ext_nibbleAt {w : Nat} (o : Bool) {x y : Lanes w} (h : ∀ p < w, nibbleAt o x p = nibbleAt o y p) : x = y := by
  refine lanes_ext fun j p hp => ?_
  have hbit := congrArg (fun n => n.getLsbD (nibbleLane o j).val) (h p hp)
  simpa only [getLsbD_nibbleAt, nibbleLane_nibbleLane] using hbit

section
variable {w : Nat} (o : Bool) (x : Lanes w)

/-- The nibble at `p` after a map of the nibbles (R142). -/
theorem nibbleAt_mapNibbles (f : BitVec 4 → BitVec 4) {p : Nat} (hp : p < w) :
    nibbleAt o (mapNibbles o f x) p = f (nibbleAt o x p) := by
  refine BitVec.eq_of_getLsbD_eq fun b hb => ?_
  have hbit := getLsbD_nibbleAt o (mapNibbles o f x) p ⟨b, hb⟩
  rwa [getLsbD_mapNibbles o f x _ hp, nibbleLane_nibbleLane] at hbit

/-- Whatever has the S-box's value as its nibble at every position is Beta (R142). -/
theorem eq_beta_of_nibbleAt {y : Lanes w} (h : ∀ p < w, nibbleAt o y p = sbox (nibbleAt o x p)) : y = beta o x :=
  lanes_ext_nibbleAt o fun p hp => by rw [h p hp, beta, nibbleAt_mapNibbles o x sbox hp]

/-- A map of the nibbles is undone by a map that undoes it on every nibble (R146). -/
theorem mapNibbles_cancel {f g : BitVec 4 → BitVec 4} (h : Function.LeftInverse g f) :
    mapNibbles o g (mapNibbles o f x) = x :=
  lanes_ext_nibbleAt o fun p hp => by rw [nibbleAt_mapNibbles o _ g hp, nibbleAt_mapNibbles o x f hp, h]

end

/-! ### The S-box -/

/-- `S_inv[S[x]] = x` (R141). -/
theorem sboxInv_sbox : Function.LeftInverse sboxInv sbox := by unfold Function.LeftInverse; decide

/-- `S[S_inv[x]] = x` (R141). -/
theorem sbox_sboxInv : Function.RightInverse sboxInv sbox := by unfold Function.RightInverse Function.LeftInverse; decide

/-- The S-box has no fixed point (R141). -/
theorem sbox_ne_self : ∀ x, sbox x ≠ x := by decide

/-! ### The Boolean equations at one bit position -/

/-- A nibble from its four bits, the least significant first. -/
def nibbleOfBits (b0 b1 b2 b3 : Bool) : BitVec 4 := BitVec.ofFnLE ![b0, b1, b2, b3]

/-- With `NIB_LSB_LANE0` the bits of a nibble are those of the lanes in order (R142). -/
theorem nibbleAt_lsb {w : Nat} (x : Lanes w) (p : Nat) :
    nibbleAt true x p = nibbleOfBits (x[0].getLsbD p) (x[1].getLsbD p) (x[2].getLsbD p) (x[3].getLsbD p) := by
  refine congrArg BitVec.ofFnLE (funext fun b => ?_)
  fin_cases b <;> rfl

/-- Without it they are those of the lanes in the opposite order (R142). -/
theorem nibbleAt_msb {w : Nat} (x : Lanes w) (p : Nat) : nibbleAt false x p = nibbleAt true x.reverse p := by
  refine congrArg BitVec.ofFnLE (funext fun b => ?_)
  fin_cases b <;> simp [nibbleLane]

/-- The algebraic normal forms of R143 on one nibble are the S-box (R140). -/
theorem sbox_nibbleOfBits : ∀ a0 a1 a2 a3 : Bool, sbox (nibbleOfBits a0 a1 a2 a3) =
    nibbleOfBits (!(a0 ^^ a1 ^^ a3 ^^ (a2 && a3)))
      (a0 ^^ a2 ^^ (a0 && a1) ^^ (a0 && a3) ^^ (a1 && a3) ^^ (a2 && a3)
        ^^ (a0 && a1 && a3) ^^ (a0 && a2 && a3) ^^ (a1 && a2 && a3))
      (a1 ^^ a2 ^^ a3 ^^ (a0 && a2) ^^ (a0 && a1 && a3) ^^ (a1 && a2 && a3))
      (a1 ^^ (a0 && a1) ^^ (a0 && a2) ^^ (a0 && a3) ^^ (a2 && a3) ^^ (a0 && a2 && a3)) := by decide

/-- R143 gives the S-box's value at every bit position. -/
theorem nibbleAt_betaEquationsLsb {w : Nat} (x : Lanes w) {p : Nat} (hp : p < w) :
    nibbleAt true (betaEquationsLsb x) p = sbox (nibbleAt true x p) := by
  rw [nibbleAt_lsb x, sbox_nibbleOfBits, nibbleAt_lsb]
  simp [betaEquationsLsb, hp]

/-- R144's equations are those of R143 with the lanes in the opposite order, going in and coming out. -/
theorem betaEquationsMsb_eq_reverse {w : Nat} (x : Lanes w) : betaEquationsMsb x = (betaEquationsLsb x.reverse).reverse := by
  simp only [betaEquationsMsb, betaEquationsLsb, Vector.getElem_reverse, Vector.reverse_mk, List.reverse_toArray,
    List.reverse_cons, List.reverse_nil, List.nil_append, List.cons_append, Nat.reduceSub]
  ac_rfl

/-- R144 gives the S-box's value at every bit position. -/
theorem nibbleAt_betaEquationsMsb {w : Nat} (x : Lanes w) {p : Nat} (hp : p < w) :
    nibbleAt false (betaEquationsMsb x) p = sbox (nibbleAt false x p) := by
  rw [betaEquationsMsb_eq_reverse, nibbleAt_msb, Vector.reverse_reverse, nibbleAt_betaEquationsLsb _ hp, nibbleAt_msb]

/-! ### The obligations -/

/-- Settles O40: the equations of each order give the S-box's value at every bit position. -/
theorem betaEquationsAreTheTable : Obligations.BetaEquationsAreTheTable := by
  unfold Obligations.BetaEquationsAreTheTable
  exact fun w x => ⟨eq_beta_of_nibbleAt true x fun p hp => nibbleAt_betaEquationsLsb x hp,
    eq_beta_of_nibbleAt false x fun p hp => nibbleAt_betaEquationsMsb x hp⟩

/-- Settles O41: the inverse S-box on every nibble undoes Beta on either side. -/
theorem betaIsABijection : Obligations.BetaIsABijection := by
  unfold Obligations.BetaIsABijection
  refine ⟨fun x => ⟨sboxInv_sbox x, sbox_sboxInv x, sbox_ne_self x⟩, fun w o => ?bijective⟩
  case bijective =>
    exact Function.bijective_iff_has_inverse.mpr
      ⟨mapNibbles o sboxInv, fun x => mapNibbles_cancel o x sboxInv_sbox, fun y => mapNibbles_cancel o y sbox_sboxInv⟩

end Sys2Proof.Machine
end

section
/-! The data path (44_datapath.md R189, R192 to R194). `INT` of lanes taken from bytes is the little-endian integer of those
bytes; Take and Fold are inverse on the first `HB` key bytes; and STBLK writes the bytes of the halves, which after LDBLK are the
block in `DIN`. -/

namespace Sys2Proof.Machine

/-! ### The integer of lanes taken from bytes -/

/-- `LE_n` is below `2^(8n)`, so as a word it is the same number (00_scope.md R20). -/
theorem toNat_leWord (n : Nat) (f : Nat → Byte) : (leWord n f).toNat = leNat f n := by
  rw [leWord, BitVec.toNat_ofNat, Nat.mod_eq_of_lt (leNat_lt f n)]

/-- `LE` of bytes in two runs: the later run counts from the end of the earlier one (R20). -/
theorem leNat_add (f : Nat → Byte) (m n : Nat) : leNat f (m + n) = leNat f m + leNat (fun k => f (m + k)) n * 2 ^ (8 * m) := by
  induction n with
  | zero => simp [leNat]
  | succ n ih => rw [← Nat.add_assoc, leNat, ih, leNat, Nat.mul_add, pow_add]; ring

/-- `INT` of the lanes taken from bytes is `LE` of all their bytes (R20, R22; 20_memory.md R63). -/
theorem toNat_intOf_lanesFrom (lb : Nat) (f : Nat → Byte) : (intOf (lanesFrom lb f)).toNat = leNat f (4 * lb) := by
  have hruns : 4 * lb = lb + lb + lb + lb := by omega
  rw [intOf_toNat, hruns, leNat_add, leNat_add, leNat_add]
  simp only [getElem_lanesFrom, toNat_leWord]
  ring_nf

/-! ### Take, Fold and xor -/

section
variable (v : Variant) (k : Vector Byte v.kb) (s t : Lanes v.lw)

/-- Take reads back what Fold wrote (R189). -/
@[simp] theorem take_fold : take v (fold v k s) = s := by
  refine (lanesFrom_congr fun i hi => ?_).trans (lanesFrom_laneByte s)
  rw [byteAt_fold v k s (hi.trans_le (hb_le_kb v)), if_pos hi]

/-- Folding in what Take read changes nothing (R189). -/
@[simp] theorem fold_take : fold v k (take v k) = k := by
  refine bytes_ext fun i hi => ?_
  rw [byteAt_fold v k _ hi]
  split
  · next hlow => exact laneByte_lanesFrom hlow _
  · rfl

/-- The later of two folds stands (R189). -/
@[simp] theorem fold_fold : fold v (fold v k s) t = fold v k t := by
  refine bytes_ext fun i hi => ?_
  rw [byteAt_fold v _ t hi, byteAt_fold v k t hi, byteAt_fold v k s hi]
  split <;> rfl

end

/-- An xor done twice is undone (R189). -/
@[simp] theorem xorLanes_cancel_right {w : Nat} (x y : Lanes w) : xorLanes (xorLanes x y) y = x := by
  refine Vector.ext fun j hj => ?_
  rw [getElem_xorLanes _ _ hj, getElem_xorLanes _ _ hj, BitVec.xor_assoc, BitVec.xor_self, BitVec.xor_zero]

/-! ### The bytes of a block -/

section
variable (v : Variant) (l r : Lanes v.lw) (j : Fin 4) {k : Nat} (hk : k < v.lb)
include hk

/-- Byte `k` of lane `j` of the left half in the block (20_memory.md R63). -/
theorem blockByte_left : blockByte v l r (j.val * v.lb + k) = byteOf l[j] k := by
  rw [blockByte, if_pos (lane_index_lt v j hk), laneByte_index l j hk]

/-- Byte `k` of lane `j` of the right half in the block (R63). -/
theorem blockByte_right : blockByte v l r (v.hb + (j.val * v.lb + k)) = byteOf r[j] k := by
  rw [blockByte, if_neg (Nat.not_lt.2 (Nat.le_add_right _ _)), Nat.add_sub_cancel_left, laneByte_index r j hk]

/-- A byte of a physical lane read at the variant's width. -/
theorem byteOf_lanesAt (reg : Lanes 32) : byteOf (lanesAt v reg)[j] k = byteOf reg[j] k := by
  rw [Fin.getElem_fin, getElem_lanesAt, byteOf_low v _ hk, Fin.getElem_fin]

end

/-! ### What LDBLK, STBLK and CLR do -/

/-- CLR clears the data path and advances, under any variant (R193). -/
theorem exec_clr (s : State) : exec .clr s = .next s.clearDataPath.advance := rfl

section
variable {s : State} {v : Variant} (h : Variant.ofSelector s.varr = some v)
include h

/-- LDBLK makes the halves those of the block in `DIN`, under the same variant (R191). -/
theorem exec_ldblk_loads : ∃ t, exec .ldblk s = .next t ∧ lanesAt v t.l = leftHalf v (dinByte s) ∧
    lanesAt v t.r = rightHalf v (dinByte s) ∧ t.varr = s.varr :=
  ⟨_, exec_ldblk h, by simp, by simp, by simp⟩

/-- STBLK writes the bytes of the halves to `DOUT[0..BB-1]` and changes nothing else but `UPC` (R192). -/
theorem exec_stblk_stores : ∃ t, exec .stblk s = .next t ∧ t = { s with buf := t.buf, upc := s.upc + 1 } ∧
    (∀ i, i < v.bb → readBuffer t.buf (doutBase + i) = blockByte v (lanesAt v s.l) (lanesAt v s.r) i) ∧
    buffersAgreeOutside doutBase (doutBase + v.bb) s t := by
  refine ⟨_, exec_stblk h, State.setBuf_advance_frame s _, fun i hi => ?written, fun offset ho => ?kept⟩
  case written => simp [hi]
  case kept => rw [State.advance_buf, State.setBuf_buf, readBuffer_writeBufferRun, if_neg ho]

end

/-! ### The obligations -/

/-- Settles O26: CLR is the cleared data path and the next `UPC`, so each clause is read off its fields. -/
theorem clrClearsTheDataPath : Obligations.ClrClearsTheDataPath := by
  unfold Obligations.ClrClearsTheDataPath
  refine ⟨by decide, fun s => ⟨_, exec_clr s, ?zero, buffersAgree_of_eq ?buffers, rfl⟩⟩
  case zero => simp [dataPathZero]
  case buffers => rw [State.advance_buf, State.clearDataPath_buf]

/-- Settles O25: byte `k` of lane `j` of either half stands in the block at the index R192 names. -/
theorem stblkStoresTheBlock : Obligations.StblkStoresTheBlock := by
  unfold Obligations.StblkStoresTheBlock
  refine ⟨by decide, fun s v h => ?_⟩
  obtain ⟨t, hexec, hframe, hdout, hout⟩ := exec_stblk_stores h
  refine ⟨t, hexec, hframe, fun j k hk => ?_, hout⟩
  have hindex := lane_index_lt v j hk
  have hblock : v.bb = 2 * v.hb := rfl
  constructor
  · rw [Nat.add_assoc, hdout _ (by omega), blockByte_left v _ _ j hk, byteOf_lanesAt v j hk]
  · rw [Nat.add_assoc, Nat.add_assoc, hdout _ (by omega), blockByte_right v _ _ j hk, byteOf_lanesAt v j hk]

/-- Settles O43, law by law. -/
theorem takeAndFoldLaws : Obligations.TakeAndFoldLaws := by
  unfold Obligations.TakeAndFoldLaws
  exact fun v k s t => ⟨take_fold v k s, fold_take v k, fold_fold v k s t, toNat_intOf_lanesFrom v.lb (byteAt k),
    xorLanes_cancel_right s t⟩

/-- Settles O44: the halves of the block in `DIN`, kept until STBLK, give its bytes back. -/
theorem loadThenStoreCopiesTheBlock : Obligations.LoadThenStoreCopiesTheBlock := by
  unfold Obligations.LoadThenStoreCopiesTheBlock
  intro s v h
  obtain ⟨t, hload, hleft, hright, hvar⟩ := exec_ldblk_loads h
  refine ⟨t, hload, fun t' hl hr hv => ?_⟩
  have h' : Variant.ofSelector t'.varr = some v := by rw [hv, hvar, h]
  obtain ⟨u, hstore, _, hdout, _⟩ := exec_stblk_stores h'
  refine ⟨u, hstore, fun i hi => ?_⟩
  calc readBuffer u.buf (doutBase + i) = blockByte v (lanesAt v t'.l) (lanesAt v t'.r) i := hdout i hi
    _ = blockByte v (leftHalf v (dinByte s)) (rightHalf v (dinByte s)) i := by rw [hl, hr, hleft, hright]
    _ = dinByte s i := blockByte_halves v _ hi

end Sys2Proof.Machine
end

section
/-! Decryption undoes encryption (45_engine.md R236 to R238). `KeyUnstep` and `KeyStep` are inverse, so each reverse half-round and
its half-round are, and a reverse round and its round. The round trip then turns on the key schedule: the key and the accumulator
run through a command on their own, so that the fast-forward meets encryption's, and decryption ends on those of the load. -/

namespace Sys2Proof.Machine

/-! ### The key step -/

/-- Adding the accumulator to the subkey undoes subtracting it (R106, R107). -/
theorem addConstant_subConstant {w : Nat} (s : Lanes w) (rc : BitVec (4 * w)) : addConstant (subConstant s rc) rc = s := by
  rw [addConstant, subConstant, intOf_lanesOf, BitVec.sub_add_cancel, lanesOf_intOf]

section
variable (c : Cfg) (v : Variant)

/-- `KeyUnstep` undoes `KeyStep` and returns its subkey (R236). -/
theorem keyUnstep_keyStep (k : Vector Byte v.kb) (rc : BitVec v.cw) :
    keyUnstep c v (keyStep c v k rc).1 (keyStep c v k rc).2.1 = (k, rc, (keyStep c v k rc).2.2) := by
  simp only [keyStep, keyUnstep, take_fold, subConstant_addConstant, fold_fold, fold_take, rotB_rotF, ret_adv]

/-- `KeyStep` undoes `KeyUnstep` and returns its subkey. -/
theorem keyStep_keyUnstep (k : Vector Byte v.kb) (rc : BitVec v.cw) :
    keyStep c v (keyUnstep c v k rc).1 (keyUnstep c v k rc).2.1 = (k, rc, (keyUnstep c v k rc).2.2) := by
  simp only [keyStep, keyUnstep, rotF_rotB, take_fold, adv_ret, addConstant_subConstant, fold_fold, fold_take]

/-! ### The half-rounds and the rounds -/

/-- The reverse left half-round undoes the left half-round: `L` is kept, so both xor the same value of F into `R` (R237). -/
theorem unHalfL_halfL : Function.LeftInverse (unHalfL c v) (halfL c v) := fun st => by
  simp only [unHalfL, halfL, keyUnstep_keyStep, xorLanes_cancel_right]

theorem unHalfR_halfR : Function.LeftInverse (unHalfR c v) (halfR c v) := fun st => by
  simp only [unHalfR, halfR, keyUnstep_keyStep, xorLanes_cancel_right]

theorem halfL_unHalfL : Function.LeftInverse (halfL c v) (unHalfL c v) := fun st => by
  simp only [unHalfL, halfL, keyStep_keyUnstep, xorLanes_cancel_right]

theorem halfR_unHalfR : Function.LeftInverse (halfR c v) (unHalfR c v) := fun st => by
  simp only [unHalfR, halfR, keyStep_keyUnstep, xorLanes_cancel_right]

/-- A reverse round undoes a round: the right half-round first, then the left (R229). -/
theorem unRound_fullRound : Function.LeftInverse (unRound c v) (fullRound c v) :=
  (unHalfR_halfR c v).comp (unHalfL_halfL c v)

theorem fullRound_unRound : Function.LeftInverse (fullRound c v) (unRound c v) :=
  (halfL_unHalfL c v).comp (halfR_unHalfR c v)

end

/-- `applyTimes` is Mathlib's iteration. -/
theorem applyTimes_eq_iterate {α : Type} (f : α → α) (n : Nat) (x : α) : applyTimes f n x = f^[n] x := by
  induction n generalizing x with
  | zero => rfl
  | succ n ih => exact ih (f x)

/-- If `g` undoes `f`, then `n` times `g` undoes `n` times `f`. -/
theorem applyTimes_cancel {α : Type} {f g : α → α} (h : Function.LeftInverse g f) (n : Nat) (x : α) :
    applyTimes g n (applyTimes f n x) = x := by
  rw [applyTimes_eq_iterate, applyTimes_eq_iterate, h.iterate]

/-! ### The key schedule, on its own -/

/-- The part of the working values that the key schedule runs through. -/
def schedule {v : Variant} (st : Feistel v) : Vector Byte v.kb × BitVec v.cw := (st.key, st.rc)

/-- One key step of the schedule, and one back. -/
def scheduleStep (c : Cfg) (v : Variant) (x : Vector Byte v.kb × BitVec v.cw) : Vector Byte v.kb × BitVec v.cw :=
  ((keyStep c v x.1 x.2).1, (keyStep c v x.1 x.2).2.1)
def scheduleUnstep (c : Cfg) (v : Variant) (x : Vector Byte v.kb × BitVec v.cw) : Vector Byte v.kb × BitVec v.cw :=
  ((keyUnstep c v x.1 x.2).1, (keyUnstep c v x.1 x.2).2.1)

section
variable (c : Cfg) (v : Variant)

theorem scheduleUnstep_scheduleStep : Function.LeftInverse (scheduleUnstep c v) (scheduleStep c v) := fun x => by
  rw [scheduleUnstep, scheduleStep, keyUnstep_keyStep]

/-- A step of the fast-forward is one key step (R226). -/
theorem schedule_keyForward : Function.Semiconj schedule (keyForward c v) (scheduleStep c v) := fun _ => rfl

/-- A round is two key steps, whatever the halves (R224). -/
theorem schedule_fullRound : Function.Semiconj schedule (fullRound c v) (scheduleStep c v)^[2] := fun _ => rfl

/-- A reverse round is two key steps back, whatever the halves (R229). -/
theorem schedule_unRound : Function.Semiconj schedule (unRound c v) (scheduleUnstep c v)^[2] := fun _ => rfl

variable {v} (st : Feistel v) (n : Nat)

theorem schedule_fastForward : schedule (fastForward c v n st) = (scheduleStep c v)^[n] (schedule st) := by
  rw [fastForward, applyTimes_eq_iterate, (schedule_keyForward c v).iterate_right n]

theorem schedule_fullRounds : schedule (applyTimes (fullRound c v) n st) = (scheduleStep c v)^[2 * n] (schedule st) := by
  rw [applyTimes_eq_iterate, (schedule_fullRound c v).iterate_right n, Function.iterate_mul]

theorem schedule_unRounds : schedule (applyTimes (unRound c v) n st) = (scheduleUnstep c v)^[2 * n] (schedule st) := by
  rw [applyTimes_eq_iterate, (schedule_unRound c v).iterate_right n, Function.iterate_mul]

/-- After a fast-forward of `2n` key steps, `n` reverse rounds bring the key schedule home. -/
theorem schedule_unRounds_fastForward :
    schedule (applyTimes (unRound c v) n (fastForward c v (2 * n) st)) = schedule st := by
  rw [schedule_unRounds, schedule_fastForward, (scheduleUnstep_scheduleStep c v).iterate]

/-- The fast-forward leaves the halves (R226). -/
theorem fastForward_halves : (fastForward c v n st).l = st.l ∧ (fastForward c v n st).r = st.r := by
  rw [fastForward]
  induction n with
  | zero => exact ⟨rfl, rfl⟩
  | succ n ih => rwa [applyTimes_succ]

end

/-! ### Load and store -/

/-- Two working states with equal halves and equal key schedules are equal. -/
theorem feistel_ext {v : Variant} {a b : Feistel v} (hl : a.l = b.l) (hr : a.r = b.r) (hk : schedule a = schedule b) : a = b := by
  cases a; cases b; cases hl; cases hr; cases hk; rfl

/-- The load of a block given byte by byte: the halves read no byte beyond it (R225). -/
theorem loaded_ofFn (v : Variant) (f : Nat → Byte) (kin : Vector Byte v.kb) :
    loaded v (Vector.ofFn fun i => f i.val) kin = { l := leftHalf v f, r := rightHalf v f, key := kin, rc := 0 } := by
  have hhalf : v.hb = 4 * v.lb := rfl
  have hblock : v.bb = 2 * v.hb := rfl
  have hleft : leftHalf v (byteAt (Vector.ofFn fun i : Fin v.bb => f i.val)) = leftHalf v f :=
    lanesFrom_congr fun i hi => byteAt_ofFn _ (by omega)
  have hright : rightHalf v (byteAt (Vector.ofFn fun i : Fin v.bb => f i.val)) = rightHalf v f :=
    lanesFrom_congr fun i hi => byteAt_ofFn _ (by omega)
  rw [loaded, hleft, hright]

/-- Storing what was loaded gives the block back (20_memory.md R63). -/
theorem stored_loaded (v : Variant) (p : Vector Byte v.bb) (kin : Vector Byte v.kb) : stored (loaded v p kin) = p :=
  bytes_ext fun _ hi => (byteAt_ofFn _ hi).trans (blockByte_halves v _ hi)

/-- Loading what was stored gives the halves back, with the key schedule at its start. -/
theorem loaded_stored {v : Variant} (st : Feistel v) (kin : Vector Byte v.kb) :
    loaded v (stored st) kin = { l := st.l, r := st.r, key := kin, rc := 0 } := by
  rw [stored, loaded_ofFn, leftHalf_blockByte, rightHalf_blockByte]

/-! ### The obligations -/

/-- Settles O45. -/
theorem keyUnstepUndoesKeyStep : Obligations.KeyUnstepUndoesKeyStep := by
  unfold Obligations.KeyUnstepUndoesKeyStep
  intro c v k k' rc rc' s h
  simpa only [h] using keyUnstep_keyStep c v k rc

/-- Settles O46. -/
theorem reverseHalfRoundsUndoHalfRounds : Obligations.ReverseHalfRoundsUndoHalfRounds := by
  unfold Obligations.ReverseHalfRoundsUndoHalfRounds
  exact fun c v st => ⟨unHalfL_halfL c v st, unHalfR_halfR c v st⟩

/-- Settles O47. Decryption's fast-forward, from the block that encryption stored, arrives at the values encryption ended on, and
the reverse rounds lead from there to the load. Encryption's load, of the block that decryption stored, is what decryption ended
on, because its key schedule came home. -/
theorem decryptionAndEncryptionUndoEachOther : Obligations.DecryptionAndEncryptionUndoEachOther := by
  unfold Obligations.DecryptionAndEncryptionUndoEachOther
  intro c v p kin n
  constructor
  · have hmeet : fastForward c v (2 * n) (loaded v (encryptBlock c v p kin n) kin) =
        applyTimes (fullRound c v) n (loaded v p kin) := by
      obtain ⟨hl, hr⟩ := fastForward_halves c (loaded v (encryptBlock c v p kin n) kin) (2 * n)
      refine feistel_ext ?_ ?_ ?_
      · rw [hl, encryptBlock, loaded_stored]
      · rw [hr, encryptBlock, loaded_stored]
      · rw [schedule_fastForward, schedule_fullRounds]; rfl
    rw [decryptBlock, hmeet, applyTimes_cancel (unRound_fullRound c v), stored_loaded]
  · have hmeet : loaded v (decryptBlock c v p kin n) kin =
        applyTimes (unRound c v) n (fastForward c v (2 * n) (loaded v p kin)) := by
      rw [decryptBlock, loaded_stored]
      exact feistel_ext rfl rfl (schedule_unRounds_fastForward c (loaded v p kin) n).symm
    rw [encryptBlock, hmeet, applyTimes_cancel (fullRound_unRound c v)]
    obtain ⟨hl, hr⟩ := fastForward_halves c (loaded v p kin) (2 * n)
    rw [stored, hl, hr]
    exact stored_loaded v p kin

end Sys2Proof.Machine
end

section
/-! The control micro-operations that judge the arguments, load the counter and branch (45_engine.md R214 to R218). -/

namespace Sys2Proof.Machine

/-! ### Fields of a micro-instruction word -/

/-- `UOP` of a word put together from its fields (30_encoding.md R82). -/
@[simp] theorem fieldUop_microWord (uop arg : BitVec 8) : fieldUop (microWord uop arg) = uop := by
  refine BitVec.eq_of_getLsbD_eq fun p hp => ?_
  simp only [fieldUop, microWord, BitVec.getLsbD_extractLsb', BitVec.getLsbD_append]
  simp [hp]

/-- `ARG` of a word put together from its fields (R82). -/
@[simp] theorem fieldArg_microWord (uop arg : BitVec 8) : fieldArg (microWord uop arg) = arg := by
  refine BitVec.eq_of_getLsbD_eq fun p hp => ?_
  simp only [fieldArg, microWord, BitVec.getLsbD_extractLsb', BitVec.getLsbD_append]
  simp [hp]

section
variable {target : BitVec 8} (ht : target ≤ 0x7F#8)
include ht

theorem decode_brz_word : decode (.micro (microWord 0x0A target)) = .ok (.brz target) := by
  simp [decode, decodeMicro, decodeTarget, ht]

theorem decode_decj_word : decode (.micro (microWord 0x0B target)) = .ok (.decj target) := by
  simp [decode, decodeMicro, decodeTarget, ht]

/-- A target of the ROM keeps its number in the counter's 7 bits (R88). -/
theorem toNat_target : (target.setWidth 7).toNat = target.toNat := by
  have : target.toNat ≤ 0x7F := ht
  rw [BitVec.toNat_setWidth]; omega

end

/-! ### CHK -/

/-- The latched lengths are the variant's, as numbers: `BB` and `KB` fit their 8 bits (R214). -/
theorem lengthsMatch_iff (v : Variant) (dlen klen : BitVec 8) :
    lengthsMatch v dlen klen = true ↔ dlen.toNat = v.bb ∧ klen.toNat = v.kb := by
  have hbb : (BitVec.ofNat 8 v.bb).toNat = v.bb := by cases v <;> rfl
  have hkb : (BitVec.ofNat 8 v.kb).toNat = v.kb := by cases v <;> rfl
  rw [lengthsMatch, Bool.and_eq_true, beq_iff_eq, beq_iff_eq, ← BitVec.toNat_inj, ← BitVec.toNat_inj, hbb, hkb]

/-- CHK without a variant (R214). -/
theorem exec_chk_of_none {s : State} (h : Variant.ofSelector s.varr = none) :
    exec .chk s = .next (s.raiseError .unsupportedVariant) := by
  simp [exec, execChk, h]

/-- CHK with a variant: it goes on or raises by the lengths (R214). -/
theorem exec_chk_of_some {s : State} {v : Variant} (h : Variant.ofSelector s.varr = some v) :
    exec .chk s = if s.dlenr.toNat = v.bb ∧ s.klenr.toNat = v.kb then .next s.advance else .next (s.raiseError .invalidLength) := by
  simp only [exec, execChk, h, lengthsMatch_iff]

/-- Every selector but 3 selects a variant, with the sizes of 00_scope.md R9. -/
theorem ofSelector_of_sizes {sel : BitVec 2} {bb kb : Nat}
    (h : (sel = 0 ∧ bb = 8 ∧ kb = 16) ∨ (sel = 1 ∧ bb = 8 ∧ kb = 32) ∨ (sel = 2 ∧ bb = 32 ∧ kb = 32)) :
    ∃ v, Variant.ofSelector sel = some v ∧ v.bb = bb ∧ v.kb = kb := by
  obtain ⟨rfl, rfl, rfl⟩ | ⟨rfl, rfl, rfl⟩ | ⟨rfl, rfl, rfl⟩ := h
  · exact ⟨.v64_128, rfl, rfl, rfl⟩
  · exact ⟨.v64_256, rfl, rfl, rfl⟩
  · exact ⟨.v256_256, rfl, rfl, rfl⟩

/-! ### SETC and SETC2 -/

theorem exec_setc (s : State) : exec .setc s = .next (s.setC (s.nrr.setWidth 9)).advance := rfl

theorem exec_setc2 (s : State) : exec .setc2 s = .next (s.setC (2 * s.nrr.setWidth 9)).advance := rfl

/-- The round count fits the 9 bits of `C` (R215). -/
theorem toNat_setc (nr : BitVec 8) : (nr.setWidth 9).toNat = nr.toNat := by
  simp only [BitVec.toNat_setWidth]; omega

/-- So does twice the round count (R216). -/
theorem toNat_setc2 (nr : BitVec 8) : (2 * nr.setWidth 9).toNat = 2 * nr.toNat := by
  have htwo : (2 : BitVec 9).toNat = 2 := rfl
  rw [BitVec.toNat_mul, toNat_setc, htwo]; omega

/-! ### The obligations -/

/-- Settles O19: selector 3 selects nothing, so the variant is judged first; any other leaves the lengths to decide. -/
theorem chkPassesOrRaises : Obligations.ChkPassesOrRaises := by
  unfold Obligations.ChkPassesOrRaises
  refine ⟨by decide, fun s => ⟨fun h => ?noVariant, fun bb kb h => ?variant⟩⟩
  case noVariant => exact exec_chk_of_none (by rw [h]; rfl)
  case variant =>
    obtain ⟨v, hv, rfl, rfl⟩ := ofSelector_of_sizes h
    rw [exec_chk_of_some hv]
    exact ⟨fun hbad => if_neg (by tauto), fun hgood => if_pos hgood⟩

/-- Settles O20. -/
theorem setcAndSetc2LoadTheCounter : Obligations.SetcAndSetc2LoadTheCounter := by
  unfold Obligations.SetcAndSetc2LoadTheCounter
  refine ⟨by decide, by decide, fun s => ⟨?setc, ?setc2⟩⟩
  case setc => exact ⟨_, exec_setc s, State.setC_advance_frame s _, toNat_setc s.nrr, buffersAgree_of_eq rfl⟩
  case setc2 => exact ⟨_, exec_setc2 s, State.setC_advance_frame s _, toNat_setc2 s.nrr, buffersAgree_of_eq rfl⟩

/-- Settles O21: a target of the ROM is in range, so BRZ branches by `C` and DECJ always, after its decrement. -/
theorem brzAndDecjSetTheCounterAndTheProgram : Obligations.BrzAndDecjSetTheCounterAndTheProgram := by
  unfold Obligations.BrzAndDecjSetTheCounterAndTheProgram
  intro s target htarget
  have ht : target ≤ 0x7F#8 := htarget
  refine ⟨decode_brz_word ht, decode_decj_word ht, ?brz, ?decj⟩
  case brz =>
    by_cases hc : s.c = 0
    · exact ⟨_, exec_brz_taken ht hc, rfl, buffersAgree_of_eq rfl, fun _ => toNat_target ht, fun h => absurd hc h⟩
    · exact ⟨_, exec_brz_not_taken ht hc, rfl, buffersAgree_of_eq rfl, fun h => absurd h hc, fun _ => rfl⟩
  case decj =>
    refine ⟨_, exec_decj ht, rfl, buffersAgree_of_eq rfl, toNat_target ht, ?decrement⟩
    case decrement =>
      have hsub : (s.c - 1).toNat = (s.c.toNat + 511) % 512 := by rw [BitVec.toNat_sub, Nat.add_comm]; rfl
      exact hsub

end Sys2Proof.Machine
end

section
/-! Whole commands (45_engine.md R234, R235, R240). A program of R212 is a prologue that checks and loads, loops of BRZ, a body and
DECJ, and an epilogue that stores, clears and ends. Each is said once for any address it stands at, and `Represents` carries the
working values of the cipher from one to the next. That the engine was BUSY all the way follows backwards from its being BUSY at
DONE, because with the host silent nothing brings BUSY back. -/

namespace Sys2Proof.Machine

/-! ### With the host silent, BUSY is not regained -/

/-- A micro-operation at a variant's width keeps the host's coming actions where its rule does. -/
theorem atVariant_pending {s t : State} {rule : Variant → State} (h : atVariant s rule = .next t)
    (hrule : ∀ v, (rule v).pending = s.pending) : t.pending = s.pending := by
  obtain ⟨v, -, rfl⟩ := atVariant_next h
  exact hrule v

/-- So does a branch. -/
theorem atTarget_pending {s t : State} {target : BitVec 8} {rule : BitVec 7 → State} (h : atTarget target rule = .next t)
    (hrule : ∀ a, (rule a).pending = s.pending) : t.pending = s.pending := by
  obtain ⟨-, rfl⟩ := atTarget_next h
  exact hrule _

/-- Acceptance keeps the host's coming actions. -/
theorem startCommand_pending (s : State) (op : BitVec 5) (var : BitVec 2) (rounds dlen klen nr : BitVec 8) (entry : BitVec 7) :
    (startCommand s op var rounds dlen klen nr entry).pending = s.pending := by
  unfold startCommand; split <;> rfl

/-- BRZ and DECJ as branches. -/
theorem exec_brz_eq (target : BitVec 8) (s : State) :
    exec (.brz target) s = atTarget target fun t => if s.c = 0 then s.setUpc t else s.advance := rfl
theorem exec_decj_eq (target : BitVec 8) (s : State) :
    exec (.decj target) s = atTarget target fun t => (s.setC (s.c - 1)).setUpc t := rfl

/-- No instruction touches the host's coming actions. -/
theorem exec_pending {i : Instr} {s t : State} (h : exec i s = .next t) : t.pending = s.pending := by
  cases i with
  | enc | dec | encs | decs => cases h; exact startCommand_pending ..
  | chk => rcases execChk_cases s with h' | h' | h' <;> cases h'.symm.trans h <;> rfl
  | clr | done | setc | setc2 => cases h; simp
  | brz target => exact atTarget_pending (exec_brz_eq target s ▸ h) fun _ => by split <;> simp
  | decj target => exact atTarget_pending (exec_decj_eq target s ▸ h) fun _ => by simp
  | _ => exact atVariant_pending h fun _ => by simp

/-- A silent host stays silent. -/
theorem step_silent {s t : State} (hs : s.pending = []) (h : step s = .next t) : t.pending = [] := by
  rw [step_of_nothing_pending hs] at h
  rcases engineStep_next h with ⟨-, rfl⟩ | ⟨-, i, -, hi⟩
  · exact hs
  · rw [exec_pending hi, hs]

/-- Without BUSY and with the host silent the machine stays where it is (R210). -/
theorem run_of_not_busy {s : State} (hs : s.pending = []) (h : s.status ≠ .busy) (k : Nat) :
    Host.Core.run Sys2Proof.core k s = .next s := by
  have hstep : step s = .next s := by rw [step_of_nothing_pending hs, engineStep_of_not_busy h]
  induction k with
  | zero => rfl
  | succ k ih => rw [run_step hstep, ih]

/-- A run that arrives took a first step. -/
theorem run_succ_next (M : Host.Core) {k : Nat} {s u : M.State} (h : M.run (k + 1) s = .next u) :
    ∃ t, M.step s = .next t ∧ M.run k t = .next u := by
  rw [Host.Core.run] at h
  cases hs : M.step s with
  | next t => rw [hs] at h; exact ⟨t, rfl, h⟩
  | fault r => rw [hs] at h; cases h
  | refused r => rw [hs] at h; cases h

/-- A run with a silent host that ends BUSY is BUSY at every step of it. -/
theorem busy_throughout {k : Nat} {s u : State} (hs : s.pending = []) (hrun : Host.Core.run Sys2Proof.core k s = .next u)
    (hu : u.status = .busy) {j : Nat} (hj : j ≤ k) :
    ∃ m : State, Host.Core.run Sys2Proof.core j s = .next m ∧ m.status = .busy := by
  induction j generalizing k s with
  | zero =>
    refine ⟨s, rfl, by_contra fun hidle => ?_⟩
    cases hrun.symm.trans (run_of_not_busy hs hidle k)
    exact hidle hu
  | succ j ih =>
    obtain ⟨k, rfl⟩ := Nat.exists_eq_add_of_le' (Nat.one_le_of_lt hj)
    obtain ⟨t, hstep, hrun⟩ := run_succ_next Sys2Proof.core hrun
    obtain ⟨m, hm, hbusy⟩ := ih (step_silent hs hstep) hrun (Nat.le_of_succ_le_succ hj)
    exact ⟨m, (run_step hstep j).trans hm, hbusy⟩

/-! ### Stretches of a program and loops -/

/-- The micro-operations from address `a` to before `b` run in `len` steps, apply `f` to the working values and leave the counter and
everything outside the data path as it was. -/
def Computes (v : Variant) (a b : BitVec 7) (len : Nat) (f : Feistel v → Feistel v) : Prop :=
  ∀ (s : State) (st : Feistel v), Running v s → s.upc = a → Represents st s →
    ∃ t : State, Host.Core.run Sys2Proof.core len s = .next t ∧ SameSurface s t ∧ t.c = s.c ∧ t.upc = b ∧ Represents (f st) t

/-- One stretch after another. -/
theorem Computes.comp {v : Variant} {a b d : BitVec 7} {j k : Nat} {f g : Feistel v → Feistel v} (hg : Computes v b d k g)
    (hf : Computes v a b j f) : Computes v a d (j + k) (g ∘ f) := by
  intro s st hrun hupc hst
  obtain ⟨t, ht, hsurface, hc, htupc, htst⟩ := hf s st hrun hupc hst
  obtain ⟨u, hu, hsurface', hc', huupc, hust⟩ := hg t (f st) (hsurface.running hrun) htupc htst
  exact ⟨u, (run_add ht k).trans hu, hsurface.trans hsurface', hc'.trans hc, huupc, hust⟩

/-- A target of 7 bits is in range and is itself (30_encoding.md R88). -/
theorem target_le (a : BitVec 7) : a.setWidth 8 ≤ 0x7F#8 := by
  have : a.toNat < 128 := a.isLt
  simp only [BitVec.le_def, BitVec.toNat_setWidth, BitVec.toNat_ofNat]; omega

theorem target_setWidth (a : BitVec 7) : (a.setWidth 8).setWidth 7 = a := by simp

/-- A loop of R212: BRZ to `exit` at `head`, a body that computes `f` up to `foot`, DECJ to `head` there. With `n` in the counter it
applies `f` `n` times and leaves through its BRZ. -/
theorem run_loop {v : Variant} {head foot exit : BitVec 7} {len : Nat} {f : Feistel v → Feistel v}
    (hhead : decodeMicro (microprogram head.toNat) = .ok (.brz (exit.setWidth 8)))
    (hbody : Computes v (head + 1) foot len f)
    (hfoot : decodeMicro (microprogram foot.toNat) = .ok (.decj (head.setWidth 8)))
    (n : Nat) {s : State} {st : Feistel v} (hrun : Running v s) (hupc : s.upc = head) (hc : s.c.toNat = n) (hst : Represents st s) :
    ∃ t : State, Host.Core.run Sys2Proof.core ((len + 2) * n + 1) s = .next t ∧ SameSurface s t ∧ t.upc = exit ∧
      Represents (applyTimes f n st) t := by
  induction n generalizing s st with
  | zero =>
    have hzero : s.c = 0 := BitVec.eq_of_toNat_eq hc
    have hleave := run_running 0 hrun hupc hhead (exec_brz_taken (target_le exit) hzero)
    exact ⟨_, hleave, by constructor <;> rfl, target_setWidth exit, hst.l, hst.r, hst.key, hst.rc⟩
  | succ n ih =>
    have hnonzero : s.c ≠ 0 := fun h => by rw [h] at hc; cases hc
    have henter : SameSurface s s.advance := by constructor <;> rfl
    obtain ⟨t, ht, hsurface, htc, htupc, htst⟩ := hbody s.advance st (henter.running hrun) (congrArg (· + 1) hupc)
      ⟨hst.l, hst.r, hst.key, hst.rc⟩
    have hback : SameSurface t ((t.setC (t.c - 1)).setUpc ((head.setWidth 8).setWidth 7)) := by constructor <;> rfl
    have hcount : (t.c - 1).toNat = n := by
      have hle : (1 : BitVec 9) ≤ s.c := by rw [BitVec.le_def, hc]; exact Nat.le_add_left 1 n
      rw [htc, State.advance_c, BitVec.toNat_sub_of_le hle, hc]; rfl
    have hrunt := hsurface.running (henter.running hrun)
    obtain ⟨u, hu, hsurface', huupc, hust⟩ := ih (hback.running hrunt) (target_setWidth head) hcount
      ⟨htst.l, htst.r, htst.key, htst.rc⟩
    refine ⟨u, ?_, ((henter.trans hsurface).trans hback).trans hsurface', huupc, hust⟩
    have hsteps : (len + 2) * (n + 1) + 1 = len + ((len + 2) * n + 1 + 1) + 1 := by ring
    rw [hsteps, run_running _ hrun hupc hhead (exec_brz_not_taken (target_le exit) hnonzero), run_add ht,
      run_running _ hrunt htupc hfoot (exec_decj (target_le head)), hu]

/-- A loop behind the micro-operation that loads its counter, with `n`. -/
theorem run_counted_loop {v : Variant} {a foot exit : BitVec 7} {len n : Nat} {f : Feistel v → Feistel v} {i : Instr} {x : BitVec 9}
    {s : State} {st : Feistel v} (hrun : Running v s) (hupc : s.upc = a) (hst : Represents st s)
    (hload : decodeMicro (microprogram a.toNat) = .ok i) (hexec : exec i s = .next (s.setC x).advance) (hx : x.toNat = n)
    (hhead : decodeMicro (microprogram (a + 1).toNat) = .ok (.brz (exit.setWidth 8)))
    (hbody : Computes v (a + 1 + 1) foot len f)
    (hfoot : decodeMicro (microprogram foot.toNat) = .ok (.decj ((a + 1).setWidth 8))) :
    ∃ t : State, Host.Core.run Sys2Proof.core (1 + ((len + 2) * n + 1)) s = .next t ∧ SameSurface s t ∧ t.upc = exit ∧
      Represents (applyTimes f n st) t := by
  have hsurface : SameSurface s (s.setC x).advance := by constructor <;> rfl
  obtain ⟨t, ht, hsurface', htupc, htst⟩ := run_loop hhead hbody hfoot n (hsurface.running hrun) (congrArg (· + 1) hupc) hx
    ⟨hst.l, hst.r, hst.key, hst.rc⟩
  exact ⟨t, (run_add (run_running 0 hrun hupc hload hexec) _).trans ht, hsurface.trans hsurface', htupc, htst⟩

/-! ### The loops of R212 -/

/-- HRF.L and HRF.R are a round (R224). -/
theorem computes_fullRound (v : Variant) : Computes v 0x05 0x1B 22 (fullRound Config.cfg v) :=
  Computes.comp (b := 0x10) (j := 11) (k := 11) (fun _ _ h hu hs => run_hrfR h hu hs) (fun _ _ h hu hs => run_hrfL h hu hs)

/-- KFF is a step of the fast-forward (R226). -/
theorem computes_keyForward (v : Variant) : Computes v 0x25 0x2A 5 (keyForward Config.cfg v) :=
  fun _ _ h hu hs => run_kff h hu hs

/-- HRB.R and HRB.L are a reverse round (R229). -/
theorem computes_unRound (v : Variant) : Computes v 0x2D 0x43 22 (unRound Config.cfg v) :=
  Computes.comp (b := 0x38) (j := 11) (k := 11) (fun _ _ h hu hs => run_hrbL h hu hs) (fun _ _ h hu hs => run_hrbR h hu hs)

/-! ### Prologue and epilogue -/

/-- The data path after LDBLK and LDKEY holds the values a command starts with (R225). -/
theorem loaded_buffers (v : Variant) (s : State) : loaded v (dinBlock v s) (kinKey v s) =
    { l := leftHalf v (dinByte s), r := rightHalf v (dinByte s), key := kinKey v s, rc := 0 } :=
  loaded_ofFn v (dinByte s) (kinKey v s)

/-- What is read from the buffers depends on nothing else. -/
theorem dinByte_of_buf {s t : State} (h : t.buf = s.buf) : dinByte t = dinByte s := funext fun _ => by rw [dinByte, dinByte, h]

theorem kinByte_of_buf {s t : State} (h : t.buf = s.buf) : kinByte t = kinByte s := funext fun _ => by rw [kinByte, kinByte, h]

/-- CHK, LDKEY and LDBLK at `entry`, with lengths that pass. -/
theorem run_load {v : Variant} {entry : BitVec 7} {s : State} (hrun : Running v s) (hupc : s.upc = entry)
    (hlengths : s.dlenr.toNat = v.bb ∧ s.klenr.toNat = v.kb)
    (hchk : decodeMicro (microprogram entry.toNat) = .ok .chk)
    (hldkey : decodeMicro (microprogram (entry + 1).toNat) = .ok .ldkey)
    (hldblk : decodeMicro (microprogram (entry + 1 + 1).toNat) = .ok .ldblk) :
    ∃ t : State, Host.Core.run Sys2Proof.core 3 s = .next t ∧ SameSurface s t ∧ t.upc = entry + 1 + 1 + 1 ∧
      Represents (loaded v (dinBlock v s) (kinKey v s)) t := by
  rw [run_running 2 hrun hupc hchk ((exec_chk_of_some hrun.variant).trans (if_pos hlengths))]
  have e1 : SameSurface s s.advance := by constructor <;> rfl
  have u1 : s.advance.upc = entry + 1 := congrArg (· + 1) hupc
  rw [run_running 1 (e1.running hrun) u1 hldkey (exec_ldkey (e1.running hrun).variant)]
  generalize h2 : State.advance (State.setRc _ _) = s2
  have e2 : SameSurface s s2 := e1.trans (by subst h2; constructor <;> simp)
  have u2 : s2.upc = entry + 1 + 1 := by rw [← h2, State.advance_upc, State.setRc_upc, State.setKey_upc, u1]
  rw [run_running 0 (e2.running hrun) u2 hldblk (exec_ldblk (e2.running hrun).variant)]
  refine ⟨_, rfl, e2.trans (by constructor <;> simp), by simp [u2], ?_⟩
  rw [loaded_buffers]
  constructor
  case l => simp [dinByte_of_buf e2.buf]
  case r => simp [dinByte_of_buf e2.buf]
  case key =>
    rw [State.advance_key, State.setR_key, State.setL_key, ← h2, State.advance_key, State.setRc_key, State.setKey_key, keyAt_putKey,
      kinByte_of_buf e1.buf]
    rfl
  case rc => subst h2; simp

/-- How a successful command leaves the block: DONE without error, the data path cleared, `block` in `DOUT[0..BB-1]` and every other
buffer byte as in `s` (R234, R235). -/
structure Finished {v : Variant} (block : Vector Byte v.bb) (s u : State) : Prop where
  status : u.status = .done
  err : u.err = .none
  clean : dataPathZero u = true
  dout : doutBlock v u = block
  others : buffersAgreeOutside doutBase (doutBase + v.bb) s u

/-- STBLK, CLR and DONE at `a`: after two steps the engine is still BUSY, and the third ends the command. -/
theorem run_store {v : Variant} {a : BitVec 7} {s : State} {st : Feistel v} (hrun : Running v s) (hupc : s.upc = a)
    (herr : s.err = .none) (hst : Represents st s)
    (hstblk : decodeMicro (microprogram a.toNat) = .ok .stblk)
    (hclr : decodeMicro (microprogram (a + 1).toNat) = .ok .clr)
    (hdone : decodeMicro (microprogram (a + 1 + 1).toNat) = .ok .done) :
    ∃ m u : State, Host.Core.run Sys2Proof.core 2 s = .next m ∧ m.status = .busy ∧ step m = .next u ∧ Finished (stored st) s u := by
  obtain ⟨t, hexec, hframe, hdout, hothers⟩ := exec_stblk_stores hrun.variant
  have hrunt : Running v t := by rw [hframe]; exact ⟨hrun.busy, hrun.rom, hrun.silent, hrun.variant⟩
  have htupc : t.upc = a + 1 := by rw [hframe, ← hupc]
  have hterr : t.err = .none := by rw [hframe, ← herr]
  have hrunm : Running v t.clearDataPath.advance := ⟨hrunt.busy, hrunt.rom, hrunt.silent, hrunt.variant⟩
  refine ⟨_, _, ?_, hrunm.busy, step_running hrunm (congrArg (· + 1) htupc) hdone, rfl, hterr, ?clean, ?dout, hothers⟩
  · rw [run_running 1 hrun hupc hstblk hexec, run_running 0 hrunt htupc hclr (exec_clr t)]; rfl
  case clean => simp [dataPathZero]
  case dout =>
    refine bytes_ext fun i hi => ?_
    rw [doutBlock, stored, byteAt_ofFn _ hi, byteAt_ofFn _ hi, ← hst.l, ← hst.r]
    exact hdout i hi

/-! ### Acceptance -/

/-- `t` is `s` after acceptance of a command whose arguments pass CHK, with `n` rounds and its program at `entry` (R84). -/
structure Accepted (v : Variant) (n : Nat) (entry : BitVec 7) (s t : State) : Prop where
  running : Running v t
  upc : t.upc = entry
  rounds : t.nrr.toNat = n
  lengths : t.dlenr.toNat = v.bb ∧ t.klenr.toNat = v.kb
  err : t.err = .none
  buf : t.buf = s.buf

section
variable {s : State} {v : Variant} {var : BitVec 2} {dlen klen : BitVec 8} (hidle : s.status ≠ .busy) (hrom : s.rom = [])
  (hsilent : s.pending = []) (hvar : Variant.ofSelector var = some v) (hdlen : dlen.toNat = v.bb) (hklen : klen.toNat = v.kb)
include hidle hrom hsilent hvar hdlen hklen

/-- What the four commands share (R84). -/
theorem accepted_startCommand (op : BitVec 5) (rounds nr : BitVec 8) (entry : BitVec 7) :
    Accepted v nr.toNat entry s (startCommand s op var rounds dlen klen nr entry) := by
  rw [startCommand_of_not_busy hidle]
  exact ⟨⟨rfl, hrom, hsilent, hvar⟩, rfl, rfl, ⟨hdlen, hklen⟩, rfl, rfl⟩

/-- A pair of commands for one program, one with its own round count and one with the standard count, is accepted with the count
of each (R84). -/
theorem exec_accepts {op op' : BitVec 5} {rounds : BitVec 8} {entry : BitVec 7} {own std i : Instr} {n : Nat}
    (hown : exec own s = .next (startCommand s op var rounds dlen klen rounds entry))
    (hstd : exec std s = .next (startCommand s op' var rounds dlen klen (standardRounds Config.cfg var) entry))
    (hi : (i = own ∧ n = rounds.toNat) ∨ (i = std ∧ n = (Config.cfg.nrStd v).toNat)) :
    ∃ t, exec i s = .next t ∧ Accepted v n entry s t := by
  have haccepted := accepted_startCommand hidle hrom hsilent hvar hdlen hklen
  obtain ⟨rfl, rfl⟩ | ⟨rfl, rfl⟩ := hi
  · exact ⟨_, hown, haccepted _ _ _ _⟩
  · have hrounds : standardRounds Config.cfg var = Config.cfg.nrStd v := by rw [standardRounds, hvar]
    rw [← hrounds]
    exact ⟨_, hstd, haccepted _ _ _ _⟩

end

/-! ### The two programs -/

/-- A run of `k` steps from `t` that ends a command: its last state is `Finished`, and every state before is BUSY (R240). -/
def EndsAfter {v : Variant} (k : Nat) (block : Vector Byte v.bb) (s t : State) : Prop :=
  ∃ u : State, Host.Core.run Sys2Proof.core k t = .next u ∧ Finished block s u ∧
    ∀ j, j < k → ∃ m : State, Host.Core.run Sys2Proof.core j t = .next m ∧ m.status = .busy

/-- The common end of both programs: `k` steps after acceptance the engine stands at the epilogue with the working values `st`, and
three steps later the command has ended with their block. -/
theorem endsAfter_of_reached {v : Variant} {n k : Nat} {entry a : BitVec 7} {s t r : State} {st : Feistel v}
    (h : Accepted v n entry s t) (hrun : Host.Core.run Sys2Proof.core k t = .next r) (hsurface : SameSurface t r) (hupc : r.upc = a)
    (hst : Represents st r) (hstblk : decodeMicro (microprogram a.toNat) = .ok .stblk)
    (hclr : decodeMicro (microprogram (a + 1).toNat) = .ok .clr)
    (hdone : decodeMicro (microprogram (a + 1 + 1).toNat) = .ok .done) : EndsAfter (k + 3) (stored st) s t := by
  obtain ⟨m, u, hm, hbusy, hu, hfin⟩ :=
    run_store (hsurface.running h.running) hupc (hsurface.err.trans h.err) hst hstblk hclr hdone
  have hrunm := (run_add hrun 2).trans hm
  have hbuf : r.buf = s.buf := hsurface.buf.trans h.buf
  refine ⟨u, (run_add hrunm 1).trans (run_step hu 0), { hfin with others := fun offset ho => ?_ }, fun j hj => ?_⟩
  · rw [hfin.others offset ho, hbuf]
  · exact busy_throughout h.running.silent hrunm hbusy (Nat.le_of_lt_succ hj)

/-- The block and the key of the buffers are as at acceptance. -/
theorem Accepted.loaded_eq {v : Variant} {n : Nat} {entry : BitVec 7} {s t : State} (h : Accepted v n entry s t) :
    loaded v (dinBlock v t) (kinKey v t) = loaded v (dinBlock v s) (kinKey v s) := by
  rw [dinBlock, dinBlock, kinKey, kinKey, h.buf]

/-- The encryption program (R212, R234): prologue, the round loop, epilogue. -/
theorem encryption_endsAfter {v : Variant} {n : Nat} {s t : State} (h : Accepted v n encryptEntry s t) :
    EndsAfter (8 + 24 * n) (encryptBlock Config.cfg v (dinBlock v s) (kinKey v s) n) s t := by
  obtain ⟨a, ha, hta, hupca, hsta⟩ := run_load h.running h.upc h.lengths rfl rfl rfl
  have hcount : (a.nrr.setWidth 9).toNat = n := by rw [toNat_setc, hta.nrr, h.rounds]
  obtain ⟨r, hr, har, hupcr, hstr⟩ := run_counted_loop (exit := 0x1C) (hta.running h.running) hupca hsta rfl (exec_setc a) hcount
    rfl (computes_fullRound v) rfl
  have hend := endsAfter_of_reached h ((run_add ha _).trans hr) (hta.trans har) hupcr hstr rfl rfl rfl
  have hsteps : 8 + 24 * n = 3 + (1 + ((22 + 2) * n + 1)) + 3 := by ring
  rwa [hsteps, encryptBlock, ← h.loaded_eq]

/-- The decryption program (R212, R235): prologue, the loop of the fast-forward, the round loop, epilogue. -/
theorem decryption_endsAfter {v : Variant} {n : Nat} {s t : State} (h : Accepted v n decryptEntry s t) :
    EndsAfter (10 + 38 * n) (decryptBlock Config.cfg v (dinBlock v s) (kinKey v s) n) s t := by
  obtain ⟨a, ha, hta, hupca, hsta⟩ := run_load h.running h.upc h.lengths rfl rfl rfl
  have hcount2 : (2 * a.nrr.setWidth 9).toNat = 2 * n := by rw [toNat_setc2, hta.nrr, h.rounds]
  obtain ⟨b, hb, hab, hupcb, hstb⟩ := run_counted_loop (exit := 0x2B) (hta.running h.running) hupca hsta rfl (exec_setc2 a) hcount2
    rfl (computes_keyForward v) rfl
  have htb := hta.trans hab
  have hcount : (b.nrr.setWidth 9).toNat = n := by rw [toNat_setc, htb.nrr, h.rounds]
  obtain ⟨r, hr, hbr, hupcr, hstr⟩ := run_counted_loop (exit := 0x44) (htb.running h.running) hupcb hstb rfl (exec_setc b) hcount
    rfl (computes_unRound v) rfl
  have hrun := (run_add ha _).trans ((run_add hb _).trans hr)
  have hend := endsAfter_of_reached h hrun (htb.trans hbr) hupcr hstr rfl rfl rfl
  have hsteps : 10 + 38 * n = 3 + (1 + ((5 + 2) * (2 * n) + 1) + (1 + ((22 + 2) * n + 1))) + 3 := by ring
  rwa [hsteps, decryptBlock, fastForward, ← h.loaded_eq]

/-! ### The obligations -/

/-- Settles O50: ENC and ENCS are accepted with the round count they name, and the encryption program runs. -/
theorem encryptionCommandComputesEnc : Obligations.EncryptionCommandComputesEnc := by
  unfold Obligations.EncryptionCommandComputesEnc
  intro s v var rounds dlen klen i n hidle hrom hsilent hvar hdlen hklen hi
  obtain ⟨t, hexec, h⟩ := exec_accepts hidle hrom hsilent hvar hdlen hklen (entry := encryptEntry) rfl rfl hi
  obtain ⟨u, hrun, hfin, hbusy⟩ := encryption_endsAfter h
  exact ⟨t, u, hexec, hrun, hfin.status, hfin.err, hfin.clean, hfin.dout, hfin.others, hbusy⟩

/-- Settles O51: DEC and DECS are accepted with the round count they name, and the decryption program runs. -/
theorem decryptionCommandComputesDec : Obligations.DecryptionCommandComputesDec := by
  unfold Obligations.DecryptionCommandComputesDec
  intro s v var rounds dlen klen i n hidle hrom hsilent hvar hdlen hklen hi
  obtain ⟨t, hexec, h⟩ := exec_accepts hidle hrom hsilent hvar hdlen hklen (entry := decryptEntry) rfl rfl hi
  obtain ⟨u, hrun, hfin, hbusy⟩ := decryption_endsAfter h
  exact ⟨t, u, hexec, hrun, hfin.status, hfin.err, hfin.clean, hfin.dout, hfin.others, hbusy⟩

end Sys2Proof.Machine
end

section
/-! Every command ends (70_reset_and_hazards.md R305). A word written to `CMD` is refused at once or starts one of the two programs
of R212. CHK, the program's first micro-operation, raises an error or lets the program run to its DONE. Either way the engine takes
exactly the steps of R240, and those are at most 9700. -/

namespace Sys2Proof.Machine

/-! ### A run that ends -/

/-- With the host silent, after the engine steps of R240 the status is DONE or ERROR. -/
def EndsInItsSteps (t : State) : Prop :=
  ∃ u : State, Host.Core.run Sys2Proof.core (commandSteps t) t = .next u ∧ (u.status = .done ∨ u.status = .error)

/-- A command refused at once has ended (30_encoding.md R85). -/
theorem endsInItsSteps_refuseCommand {s : State} (hnotBusy : s.status ≠ .busy) (word : BitVec 32) :
    EndsInItsSteps (refuseCommand s word) := by
  rw [EndsInItsSteps, commandSteps_of_refused_at_once hnotBusy]
  refine ⟨_, rfl, .inr ?_⟩
  rw [refuseCommand_of_not_busy hnotBusy]

/-! ### The start of a command -/

/-- The engine stands at the first micro-operation of the program that the latched operation selects, with the ROM of R212 and a
silent host (30_encoding.md R84, 45_engine.md R213). -/
structure Started (t : State) : Prop where
  busy : t.status = .busy
  rom : t.rom = []
  silent : t.pending = []
  err : t.err = .none
  upc : t.upc = if encrypting t then encryptEntry else decryptEntry

/-- Bit 0 of an accepted `OP` tells ENC and ENCS from DEC and DECS (R81, R84). -/
theorem even_op_iff_encrypts : ∀ op : BitVec 5, op ≤ 3#5 →
    (op.setWidth 1 = 0#1 ↔ (decide (op = 0) || decide (op = 2)) = true) := by
  decide

/-- A word that decodes starts a command (R84). -/
theorem started_startCommand {s : State} {word : BitVec 32} {i : Instr} (hnotBusy : s.status ≠ .busy) (hrom : s.rom = [])
    (hsilent : s.pending = []) (hi : decodeCommand word = .ok i) (var : BitVec 2) (rounds dlen klen nr : BitVec 8) :
    Started (startCommand s (fieldOp word) var rounds dlen klen nr (programEntry word)) := by
  obtain ⟨hop, -⟩ := (decodeCommand_isOk_iff word).1 ⟨i, hi⟩
  rw [startCommand_of_not_busy hnotBusy, programEntry_eq]
  exact ⟨rfl, hrom, hsilent, rfl, if_congr (even_op_iff_encrypts _ hop) rfl rfl⟩

/-- Both programs start with CHK (R212, R214). -/
theorem step_of_started {t : State} (h : Started t) : step t = exec .chk t := by
  have hfetch : decodeMicro (fetchWord t) = .ok .chk := by
    rw [fetchWord_of_rom_nil h.rom, h.upc]
    split <;> rfl
  rw [step_of_nothing_pending h.silent, engineStep_of_busy h.busy hfetch]

/-! ### The end of a command -/

/-- CHK's error ends the command in its one step (R214, R240). -/
theorem endsInItsSteps_of_raise {t : State} {e : ErrorCode} (hsteps : commandSteps t = 1) (hstep : step t = .next (t.raiseError e)) :
    EndsInItsSteps t := by
  refine ⟨t.raiseError e, ?_, .inr rfl⟩
  rw [hsteps]
  exact run_step hstep 0

/-- What CHK lets pass runs to DONE (R234, R235). -/
theorem endsInItsSteps_of_passing {t : State} {v : Variant} (h : Started t) (hv : Variant.ofSelector t.varr = some v)
    (hlengths : t.dlenr.toNat = v.bb ∧ t.klenr.toNat = v.kb) : EndsInItsSteps t := by
  have haccepted : Accepted v t.nrr.toNat t.upc t t := ⟨⟨h.busy, h.rom, h.silent, hv⟩, rfl, rfl, hlengths, h.err, rfl⟩
  rw [h.upc] at haccepted
  rw [EndsInItsSteps, commandSteps_of_passing h.busy hv ((lengthsMatch_iff ..).2 hlengths)]
  split at haccepted
  case isTrue henc =>
    obtain ⟨u, hrun, hfin, -⟩ := encryption_endsAfter haccepted
    exact ⟨u, by rwa [if_pos henc], .inl hfin.status⟩
  case isFalse hdec =>
    obtain ⟨u, hrun, hfin, -⟩ := decryption_endsAfter haccepted
    exact ⟨u, by rwa [if_neg hdec], .inl hfin.status⟩

/-- Every command that starts ends: CHK finds no variant, the wrong lengths, or nothing wrong (R214). -/
theorem endsInItsSteps_of_started {t : State} (h : Started t) : EndsInItsSteps t := by
  have hchk := step_of_started h
  cases hv : Variant.ofSelector t.varr with
  | none =>
    have hsteps := commandSteps_of_refused h.busy fun v hv' => by cases hv.symm.trans hv'
    exact endsInItsSteps_of_raise hsteps (hchk.trans (exec_chk_of_none hv))
  | some v =>
    by_cases hlengths : t.dlenr.toNat = v.bb ∧ t.klenr.toNat = v.kb
    · exact endsInItsSteps_of_passing h hv hlengths
    · have hsteps := commandSteps_of_refused h.busy fun v' hv' => by
        cases hv.symm.trans hv'
        rwa [← Bool.not_eq_true, lengthsMatch_iff]
      exact endsInItsSteps_of_raise hsteps ((hchk.trans (exec_chk_of_some hv)).trans (if_neg hlengths))

/-! ### The host's write -/

/-- Any word written to `CMD` while not BUSY leaves a state that ends in its steps (R84, R85). -/
theorem step_of_writeCmd_ends {s : State} {word : BitVec 32} (hnotBusy : s.status ≠ .busy) (hrom : s.rom = [])
    (hp : s.pending = [.writeWord 0x00 word]) : ∃ t, step s = .next t ∧ EndsInItsSteps t := by
  cases hd : decodeCommand word with
  | error e =>
    exact ⟨_, step_of_reserved_word hnotBusy hp hd, endsInItsSteps_refuseCommand (s := s.setPending []) hnotBusy word⟩
  | ok i =>
    exact ⟨_, step_of_accepted_word hnotBusy hp hd,
      endsInItsSteps_of_started (started_startCommand (s := s.setPending []) hnotBusy hrom rfl hd ..)⟩

/-- Settles O58: the steps of R240 after the write, of which there are at most 9700. -/
theorem everyCommandEnds : Obligations.EveryCommandEnds := by
  unfold Obligations.EveryCommandEnds
  intro s word hnotBusy hrom hp
  obtain ⟨t, hstep, u, hrun, hend⟩ := step_of_writeCmd_ends hnotBusy hrom hp
  refine ⟨commandSteps t, u, commandSteps_le t, ?_, hend⟩
  rw [Nat.add_comm, run_step hstep, hrun]

end Sys2Proof.Machine
end

section
/-! The encoder and the decoder undo each other (30_encoding.md R80 to R89). A word put together from fields has those fields, so a
well-formed instruction's word decodes to it; and the bytes of a word, least significant first, decode as the word does. -/

namespace Sys2Proof

/-! ### The fields of an encoded command -/

section
variable (op : BitVec 5) (var : BitVec 2) (rounds dlen klen : BitVec 8)

@[simp] theorem fieldReserved_commandWord : fieldReserved (commandWord op var rounds dlen klen) = 0 := by
  rw [fieldReserved_eq_zero_iff]
  simp only [commandWord, BitVec.getLsbD_append]
  simp

@[simp] theorem fieldOp_commandWord : fieldOp (commandWord op var rounds dlen klen) = op := by
  refine BitVec.eq_of_getLsbD_eq fun p hp => ?_
  simp only [fieldOp, commandWord, BitVec.getLsbD_extractLsb', BitVec.getLsbD_append]
  simp [hp]

@[simp] theorem fieldVar_commandWord : fieldVar (commandWord op var rounds dlen klen) = var := by
  refine BitVec.eq_of_getLsbD_eq fun p hp => ?_
  simp only [fieldVar, commandWord, BitVec.getLsbD_extractLsb', BitVec.getLsbD_append]
  simp [hp]

@[simp] theorem fieldRounds_commandWord : fieldRounds (commandWord op var rounds dlen klen) = rounds := by
  refine BitVec.eq_of_getLsbD_eq fun p hp => ?_
  simp only [fieldRounds, commandWord, BitVec.getLsbD_extractLsb', BitVec.getLsbD_append]
  interval_cases p <;> simp

@[simp] theorem fieldDlen_commandWord : fieldDlen (commandWord op var rounds dlen klen) = dlen := by
  refine BitVec.eq_of_getLsbD_eq fun p hp => ?_
  simp only [fieldDlen, commandWord, BitVec.getLsbD_extractLsb', BitVec.getLsbD_append]
  interval_cases p <;> simp

@[simp] theorem fieldKlen_commandWord : fieldKlen (commandWord op var rounds dlen klen) = klen := by
  refine BitVec.eq_of_getLsbD_eq fun p hp => ?_
  simp only [fieldKlen, commandWord, BitVec.getLsbD_extractLsb', BitVec.getLsbD_append]
  interval_cases p <;> simp

end

/-! ### Decoding an encoded instruction -/

/-- A command's word decodes to the command with its own operands (R80, R81). -/
theorem decode_encode_command {op : BitVec 5} {i : BitVec 2 → BitVec 8 → BitVec 8 → BitVec 8 → Instr}
    (hdecode : ∀ word, fieldReserved word = 0 → fieldOp word = op →
      decodeCommand word = .ok (i (fieldVar word) (fieldRounds word) (fieldDlen word) (fieldKlen word)))
    (var : BitVec 2) (rounds dlen klen : BitVec 8) :
    decode (.command (commandWord op var rounds dlen klen)) = .ok (i var rounds dlen klen) := by
  simpa [decode] using hdecode (commandWord op var rounds dlen klen) (by simp) (by simp)

/-- The decoder gives a well-formed instruction back from its word (R80 to R88). -/
theorem decode_encode (i : Instr) (h : i.wellFormed = true) : decode (encode i) = .ok i := by
  cases i with
  | enc => exact decode_encode_command (fun _ hres hop => decodeCommand_enc hres hop) ..
  | dec => exact decode_encode_command (fun _ hres hop => decodeCommand_dec hres hop) ..
  | encs => exact decode_encode_command (fun _ hres hop => decodeCommand_encs hres hop) ..
  | decs => exact decode_encode_command (fun _ hres hop => decodeCommand_decs hres hop) ..
  | brz target => exact Machine.decode_brz_word (of_decide_eq_true h)
  | decj target => exact Machine.decode_decj_word (of_decide_eq_true h)
  | _ => rfl -- no operand, so one fixed word

/-! ### The bytes of a word -/

/-- A byte of a word as a field of it. -/
theorem ofNat_div_two_pow {w : Nat} (x : BitVec w) (k : Nat) : BitVec.ofNat 8 (x.toNat / 2 ^ k) = x.extractLsb' k 8 := by
  rw [← Nat.shiftRight_eq_div_pow]; rfl

/-- The bytes of a word, least significant first, put together again are the word, so they decode as it does (R80, R91). -/
theorem decodeBytes_codeBytes (word : Code) : decodeBytes (codeBytes word) = decode word := by
  cases word with
  | command word =>
    have hbytes : codeBytes (.command word) =
        [word.extractLsb' 0 8, word.extractLsb' 8 8, word.extractLsb' 16 8, word.extractLsb' 24 8] := by
      simp [codeBytes, bytesOfNat, ← ofNat_div_two_pow, Nat.div_div_eq_div_mul]
    rw [hbytes, decodeBytes, decode]
    congr 1
    refine BitVec.eq_of_getLsbD_eq fun p hp => ?_
    simp only [BitVec.getLsbD_append, BitVec.getLsbD_extractLsb']
    interval_cases p <;> simp
  | micro word =>
    have hbytes : codeBytes (.micro word) = [fieldArg word, fieldUop word] := by
      simp [codeBytes, bytesOfNat, fieldArg, fieldUop, ← ofNat_div_two_pow]
    rw [hbytes, decodeBytes, decode]
    exact congrArg decodeMicro (microWord_fields word)

/-! ### The obligations -/

/-- Settles O2: the word decodes to the instruction, and the bytes decode as the word does. -/
theorem decodeOfEncodeIsIdentity : Obligations.DecodeOfEncodeIsIdentity := by
  unfold Obligations.DecodeOfEncodeIsIdentity
  intro i h
  exact ⟨decode_encode i h, by rw [decodeBytes_codeBytes, decode_encode i h]⟩

/-- Settles O3. -/
theorem encodeOfDecodeIsIdentity : Obligations.EncodeOfDecodeIsIdentity := by
  unfold Obligations.EncodeOfDecodeIsIdentity
  exact fun _ _ h => encode_of_decode h

/-- Settles O1: an accepted word is read off as the encoding of its instruction, and a rejected one by its fields. -/
theorem writtenOutWordsDecode : Obligations.WrittenOutWordsDecode := by
  unfold Obligations.WrittenOutWordsDecode
  exact ⟨decode_encode (.enc 0 2 8 16) rfl, decode_encode (.dec 2 2 32 32) rfl, decode_encode (.encs 1 0 8 32) rfl,
    decode_encode (.decs 0 0 8 16) rfl, by decide, by decide, decode_encode (.brz 0x1C) rfl, decode_encode (.decj 0x24) rfl,
    decode_encode .beta rfl, decode_encode .skfold rfl, decode_encode .stblk rfl, by decide, by decide, by decide⟩

end Sys2Proof
end

section
/-! What one step can do, said once for each agent: the engine's micro-operations (45_engine.md R210) and the host's accesses
(20_memory.md R60 to R73). Each is an inductive relation with one constructor per outcome, so that a rule about every step is a
case split over it. -/

namespace Sys2Proof.Machine

/-! ### The micro-operations of a variant's width -/

/-- The nineteen micro-operations whose rule computes at a variant's width (00_scope.md R9). -/
def widthDependent : Instr → Bool
  | .enc _ _ _ _ | .dec _ _ _ _ | .encs _ _ _ _ | .decs _ _ _ _ => false
  | .chk | .clr | .done | .setc | .setc2 | .brz _ | .decj _ => false
  | .ldkey | .ldblk | .stblk | .rotf | .rotb | .rcadv | .rcret | .sktake | .skadd | .sksub | .skfold => true
  | .wldl | .wldr | .shift | .xorsk | .beta | .switch | .xfr | .xfl => true

/-- What such a micro-operation can write: registers of the data path, at the variant's width, or `DOUT[0..BB-1]`, which only STBLK
writes (44_datapath.md R190 to R192). -/
inductive DataWrite (i : Instr) (v : Variant) (s : State) : State → Prop
  | left (x : Lanes v.lw) : DataWrite i v s (s.setL (putLanes v s.l x))
  | right (x : Lanes v.lw) : DataWrite i v s (s.setR (putLanes v s.r x))
  | halves (x y : Lanes v.lw) : DataWrite i v s ((s.setL (putLanes v s.l x)).setR (putLanes v s.r y))
  | work (x : Lanes v.lw) : DataWrite i v s (s.setW (putLanes v s.w x))
  | subkey (x : Lanes v.lw) : DataWrite i v s (s.setSk (putLanes v s.sk x))
  | key (k : Vector Byte v.kb) : DataWrite i v s (s.setKey (putKey v s.key k))
  | accumulator (x : BitVec v.cw) : DataWrite i v s (s.setRc (putRc v s.rc x))
  | keyAndAccumulator (k : Vector Byte v.kb) (x : BitVec v.cw) :
      DataWrite i v s ((s.setKey (putKey v s.key k)).setRc (putRc v s.rc x))
  | store (hi : i = .stblk) (f : Nat → Byte) : DataWrite i v s (s.setBuf (writeBufferRun s.buf doutBase f v.bb))

/-- Each of the nineteen is `atVariant` of a rule that makes one such write. -/
theorem exec_eq_atVariant {i : Instr} (hi : widthDependent i = true) (s : State) :
    ∃ rule : Variant → State, exec i s = atVariant s rule ∧ ∀ v, DataWrite i v s (rule v) := by
  cases i with
  | enc | dec | encs | decs | chk | clr | done | setc | setc2 | brz | decj => cases hi
  | ldkey => exact ⟨_, rfl, fun _ => .keyAndAccumulator _ _⟩
  | ldblk => exact ⟨_, rfl, fun _ => .halves _ _⟩
  | stblk => exact ⟨_, rfl, fun _ => .store rfl _⟩
  | rotf | rotb | skfold => exact ⟨_, rfl, fun _ => .key _⟩
  | rcadv | rcret => exact ⟨_, rfl, fun _ => .accumulator _⟩
  | sktake | skadd | sksub => exact ⟨_, rfl, fun _ => .subkey _⟩
  | wldl | wldr | shift | xorsk | beta | switch => exact ⟨_, rfl, fun _ => .work _⟩
  | xfr => exact ⟨_, rfl, fun _ => .right _⟩
  | xfl => exact ⟨_, rfl, fun _ => .left _⟩

/-- Without a variant each of the nineteen faults (log 9). -/
theorem exec_of_no_variant {i : Instr} (hi : widthDependent i = true) {s : State} (h : Variant.ofSelector s.varr = none) :
    exec i s = .fault .noVariantSelected := by
  obtain ⟨rule, hexec, -⟩ := exec_eq_atVariant hi s
  rw [hexec, atVariant_of_none h]

/-! ### A micro-operation -/

/-- `MicroStep s i t`: the micro-operation `i` can lead from `s` to `t`. -/
inductive MicroStep (s : State) : Instr → State → Prop
  | chkPasses {v : Variant} (hv : Variant.ofSelector s.varr = some v) (hl : lengthsMatch v s.dlenr s.klenr = true) :
      MicroStep s .chk s.advance
  | chkRaises {e : ErrorCode} (he : e ≠ .none) : MicroStep s .chk (s.raiseError e)
  | clr : MicroStep s .clr s.clearDataPath.advance
  | done : MicroStep s .done (s.setStatus .done)
  | setc : MicroStep s .setc (s.setC (s.nrr.setWidth 9)).advance
  | setc2 : MicroStep s .setc2 (s.setC (2 * s.nrr.setWidth 9)).advance
  | brzTaken {target : BitVec 8} (hc : s.c = 0) : MicroStep s (.brz target) (s.setUpc (target.setWidth 7))
  | brzNotTaken {target : BitVec 8} (hc : s.c ≠ 0) : MicroStep s (.brz target) s.advance
  | decj {target : BitVec 8} : MicroStep s (.decj target) ((s.setC (s.c - 1)).setUpc (target.setWidth 7))
  | data {i : Instr} {v : Variant} {u : State} (hi : widthDependent i = true) (hv : Variant.ofSelector s.varr = some v)
      (hu : DataWrite i v s u) : MicroStep s i u.advance

/-- CHK answers a next state (R214). -/
theorem exec_chk_steps (s : State) : ∃ t, exec .chk s = .next t ∧ MicroStep s .chk t := by
  cases hv : Variant.ofSelector s.varr with
  | none => exact ⟨_, exec_chk_of_none hv, .chkRaises (by decide)⟩
  | some v =>
    by_cases hl : s.dlenr.toNat = v.bb ∧ s.klenr.toNat = v.kb
    · exact ⟨_, (exec_chk_of_some hv).trans (if_pos hl), .chkPasses hv ((lengthsMatch_iff ..).2 hl)⟩
    · exact ⟨_, (exec_chk_of_some hv).trans (if_neg hl), .chkRaises (by decide)⟩

/-- BRZ to an address of the ROM answers a next state (R217). -/
theorem exec_brz_steps {target : BitVec 8} (ht : target ≤ 0x7F#8) (s : State) :
    ∃ t, exec (.brz target) s = .next t ∧ MicroStep s (.brz target) t := by
  by_cases hc : s.c = 0
  · exact ⟨_, exec_brz_taken ht hc, .brzTaken hc⟩
  · exact ⟨_, exec_brz_not_taken ht hc, .brzNotTaken hc⟩

/-- With a variant selected each of the nineteen answers a next state. -/
theorem exec_data_steps {i : Instr} (hi : widthDependent i = true) {s : State} {v : Variant}
    (hv : Variant.ofSelector s.varr = some v) : ∃ t, exec i s = .next t ∧ MicroStep s i t := by
  obtain ⟨rule, hexec, hwrite⟩ := exec_eq_atVariant hi s
  exact ⟨_, hexec.trans (atVariant_of_some hv rule), .data hi hv (hwrite v)⟩

/-- What a fetched word can do: its micro-operation answers a next state, unless it needs a variant and none is selected. -/
theorem exec_of_decodeMicro {word : BitVec 16} {i : Instr} (hi : decodeMicro word = .ok i) (s : State) :
    (∃ t, exec i s = .next t ∧ MicroStep s i t) ∨ (widthDependent i = true ∧ Variant.ofSelector s.varr = none) := by
  obtain ⟨hword, hwf⟩ := encode_of_decodeMicro hi
  cases i with
  | enc | dec | encs | decs => cases hword -- no micro-instruction
  | chk => exact .inl (exec_chk_steps s)
  | clr => exact .inl ⟨_, rfl, .clr⟩
  | done => exact .inl ⟨_, rfl, .done⟩
  | setc => exact .inl ⟨_, rfl, .setc⟩
  | setc2 => exact .inl ⟨_, rfl, .setc2⟩
  | brz target => exact .inl (exec_brz_steps (of_decide_eq_true hwf) s)
  | decj target => exact .inl ⟨_, exec_decj (of_decide_eq_true hwf), .decj⟩
  | _ => -- the nineteen
    cases hv : Variant.ofSelector s.varr with
    | none => exact .inr ⟨rfl, rfl⟩
    | some v => exact .inl (exec_data_steps rfl hv)

/-- If a fetched word's micro-operation answers a next state, it took one of its steps. -/
theorem microStep_of_next {word : BitVec 16} {i : Instr} (hi : decodeMicro word = .ok i) {s t : State}
    (h : exec i s = .next t) : MicroStep s i t := by
  rcases exec_of_decodeMicro hi s with ⟨t', ht', hstep⟩ | ⟨hwidth, hnone⟩
  · cases ht'.symm.trans h
    exact hstep
  · cases (exec_of_no_variant hwidth hnone).symm.trans h

/-! ### A host access -/

/-- `HostEffect s action t`: the host side's `action`, already taken off the list of `s`, can lead from `s` to `t`. -/
inductive HostEffect (s : State) : HostAction → State → Prop
  | ignored {action : HostAction} : HostEffect s action s
  | answered {action : HostAction} (x : BitVec 32) : HostEffect s action (s.setAnswer x)
  | byteWritten {offset : Nat} {value : BitVec 8} (hnotBusy : s.status ≠ .busy) (hlo : dinBase ≤ offset) (hhi : offset < doutBase) :
      HostEffect s (.writeByte offset value) (s.setBuf (writeBuffer s.buf offset value))
  | accepted {word : BitVec 32} {i : Instr} (hnotBusy : s.status ≠ .busy) (hi : decodeCommand word = .ok i) :
      HostEffect s (.writeWord 0x00 word) (startCommand s (fieldOp word) (fieldVar word) (fieldRounds word) (fieldDlen word)
        (fieldKlen word) (latchedRounds word) (programEntry word))
  | refused {word : BitVec 32} (hnotBusy : s.status ≠ .busy) : HostEffect s (.writeWord 0x00 word) (refuseCommand s word)
  | reset : HostEffect s .reset (resetBlock s)

/-- If a host access answers a next state, it had one of its effects. -/
theorem hostEffect_of_next {action : HostAction} (hturn : action ≠ .engineTurn) {s t : State}
    (h : hostStep exec action s = .next t) : HostEffect s action t := by
  cases action with
  | engineTurn => exact absurd rfl hturn
  | readHalf offset => cases h
  | readByte offset =>
    obtain ⟨x, rfl⟩ := hostReadByte_next h
    exact .answered x
  | readWord offset =>
    obtain ⟨x, rfl⟩ := hostReadWord_next h
    exact .answered x
  | writeHalf offset value =>
    obtain rfl := hostWriteHalf_next h
    exact .ignored
  | writeByte offset value =>
    obtain rfl | ⟨hnotBusy, hlo, hhi, rfl⟩ := hostWriteByte_next h
    · exact .ignored
    · exact .byteWritten hnotBusy hlo hhi
  | writeWord offset value =>
    obtain rfl | ⟨hnotBusy, rfl, hcmd⟩ := hostWriteWord_next h
    · exact .ignored
    · obtain ⟨i, hi, hexec⟩ | ⟨e, -, rfl⟩ := hostWriteCmd_next hcmd
      · cases (exec_eq_startCommand hi s).symm.trans hexec
        exact .accepted hnotBusy hi
      · exact .refused hnotBusy
  | reset =>
    cases h
    exact .reset

/-- While BUSY a write anywhere in the window is ignored, whatever its width (R71, 70_reset_and_hazards.md R297). -/
theorem hostStep_of_busy {s : State} (hbusy : s.status = .busy) {action : HostAction} (hw : writeInWindow action = true) :
    hostStep exec action s = .next s := by
  cases action with
  | engineTurn | readByte | readHalf | readWord | reset => cases hw
  | writeByte | writeHalf | writeWord => exact hostWrite_of_busy hbusy (of_decide_eq_true hw) _

/-- A write that is not one into the window while BUSY follows its rule. -/
theorem hostWrite_of_rule {s : State} {offset width : Nat} (h : s.status = .busy → ¬ offset + width ≤ windowEnd) (rule : Result) :
    hostWrite offset width s rule = rule := if_neg fun hc => h hc.1 hc.2

/-- An access that R65 does not list is refused, but for a write into the window while BUSY (R66, R71). -/
theorem hostStep_of_unsupported {s : State} {action : HostAction} (hu : unsupportedAccess action = true)
    (hw : s.status = .busy → writeInWindow action = false) : hostStep exec action s = .refused .unsupportedHostAccess := by
  cases action with
  | engineTurn | reset => cases hu
  | readHalf => rfl
  | readByte offset =>
    have hout : offset < 0x08 ∨ 0x80 ≤ offset := by simpa [unsupportedAccess] using hu
    rw [hostStep, hostReadByte, if_neg (by simp only [dinBase]; omega), if_neg (by simp only [dinBase, windowEnd]; omega)]
  | readWord offset =>
    have hout : offset ≠ 0x00 ∧ offset ≠ 0x04 := by simpa [unsupportedAccess] using hu
    rw [hostStep, hostReadWord, if_neg hout.1, if_neg hout.2]
  | writeHalf offset value => exact hostWrite_of_rule (fun hb => of_decide_eq_false (hw hb)) _
  | writeByte offset value =>
    have hout : offset < 0x08 ∨ 0x80 ≤ offset := by simpa [unsupportedAccess] using hu
    rw [hostStep, hostWriteByte, hostWrite_of_rule fun hb => of_decide_eq_false (hw hb),
      if_neg (by simp only [dinBase, doutBase]; omega), if_neg (by simp only [windowEnd]; omega)]
  | writeWord offset value =>
    have hout : offset ≠ 0x00 ∧ offset ≠ 0x04 := by simpa [unsupportedAccess] using hu
    rw [hostStep, hostWriteWord, hostWrite_of_rule fun hb => of_decide_eq_false (hw hb), if_neg hout.1, if_neg hout.2]

/-- A write to `CMD` always answers a next state: the word is accepted or refused at once (30_encoding.md R84, R85). -/
theorem hostWriteCmd_answers (word : BitVec 32) (s : State) : ∃ t, hostWriteCmd exec word s = .next t := by
  unfold hostWriteCmd
  split
  · next i hi => exact ⟨_, exec_eq_startCommand hi s⟩
  · exact ⟨_, rfl⟩

/-- A write answers a next state where its rule does. -/
theorem hostWrite_answers {s : State} {rule : Result} (hrule : ∃ t, rule = .next t) (offset width : Nat) :
    ∃ t, hostWrite offset width s rule = .next t := by
  unfold hostWrite
  split
  · exact ⟨s, rfl⟩
  · exact hrule

/-- An access that R65 lists answers a next state. -/
theorem hostStep_of_supported {action : HostAction} (hturn : action ≠ .engineTurn) (hs : unsupportedAccess action = false)
    (s : State) : ∃ t, hostStep exec action s = .next t := by
  cases action with
  | engineTurn => exact absurd rfl hturn
  | readHalf | writeHalf => cases hs
  | reset => exact ⟨_, rfl⟩
  | readByte offset =>
    have hin : 0x08 ≤ offset ∧ offset < 0x80 := by simpa [unsupportedAccess] using hs
    by_cases hlow : offset < dinBase
    · exact ⟨_, if_pos ⟨hin.1, hlow⟩⟩
    · exact ⟨_, (if_neg fun h => hlow h.2).trans (if_pos ⟨Nat.le_of_not_lt hlow, hin.2⟩)⟩
  | readWord offset =>
    have hin : ¬ offset = 0x00 → offset = 0x04 := by simpa [unsupportedAccess] using hs
    by_cases h0 : offset = 0x00
    · exact ⟨_, if_pos h0⟩
    · exact ⟨_, (if_neg h0).trans (if_pos (hin h0))⟩
  | writeByte offset value =>
    have hin : 0x08 ≤ offset ∧ offset < 0x80 := by simpa [unsupportedAccess] using hs
    refine hostWrite_answers ?_ _ _
    by_cases hbuf : dinBase ≤ offset ∧ offset < doutBase
    · exact ⟨_, if_pos hbuf⟩
    · exact ⟨_, (if_neg hbuf).trans (if_pos hin)⟩
  | writeWord offset value =>
    have hin : ¬ offset = 0x00 → offset = 0x04 := by simpa [unsupportedAccess] using hs
    refine hostWrite_answers ?_ _ _
    by_cases h0 : offset = 0x00
    · rw [if_pos h0]
      exact hostWriteCmd_answers value s
    · exact ⟨_, (if_neg h0).trans (if_pos (hin h0))⟩

/-- A host access never faults, and one that is refused is not listed by R65 (R66). -/
theorem hostStep_cases {action : HostAction} (hturn : action ≠ .engineTurn) (s : State) :
    (∃ t, hostStep exec action s = .next t) ∨
      (hostStep exec action s = .refused .unsupportedHostAccess ∧ unsupportedAccess action = true) := by
  cases hu : unsupportedAccess action with
  | false => exact .inl (hostStep_of_supported hturn hu s)
  | true =>
    by_cases hignored : s.status = .busy ∧ writeInWindow action = true
    · exact .inl ⟨s, hostStep_of_busy hignored.1 hignored.2⟩
    · exact .inr ⟨hostStep_of_unsupported hu fun hb => by simpa [hb] using hignored, rfl⟩

/-! ### One step of the machine -/

/-- The state with the host side's next action, if there is one, taken off. -/
def taken (s : State) : State := s.setPending s.pending.tail

/-- The host side leaves the step to the engine (20_memory.md R70). -/
def EngineMoves (s : State) : Prop := s.pending = [] ∨ ∃ rest, s.pending = .engineTurn :: rest

theorem taken_of_pending {s : State} {action : HostAction} {rest : List HostAction} (h : s.pending = action :: rest) :
    taken s = s.setPending rest := by
  rw [taken, h, List.tail_cons]

theorem taken_of_nothing_pending {s : State} (h : s.pending = []) : taken s = s := by
  have hsame : taken s = s.setPending s.pending := by rw [taken, h, List.tail_nil]
  exact hsame

/-- The engine's step, however the host side leaves it to it. -/
theorem step_of_engineMoves {s : State} (h : EngineMoves s) : step s = engineStep exec (taken s) := by
  obtain hp | ⟨rest, hp⟩ := h
  · rw [step_of_nothing_pending hp, taken_of_nothing_pending hp]
  · rw [step_of_pending hp, taken_of_pending hp]
    rfl

/-- Any other step is the host side's. -/
theorem engineMoves_or_host (s : State) :
    EngineMoves s ∨ ∃ action rest, s.pending = action :: rest ∧ action ≠ .engineTurn ∧ step s = hostStep exec action (taken s) := by
  cases hp : s.pending with
  | nil => exact .inl (.inl hp)
  | cons action rest =>
    by_cases hturn : action = .engineTurn
    · exact .inl (.inr ⟨rest, hturn ▸ hp⟩)
    · exact .inr ⟨action, rest, rfl, hturn, by rw [step_of_pending hp, taken_of_pending hp]⟩

/-- `Moves s t`: one step leads from `s` to `t`, by the engine or by the host side. -/
inductive Moves (s : State) : State → Prop
  | idle (hturn : EngineMoves s) (hnotBusy : s.status ≠ .busy) : Moves s (taken s)
  | engine {i : Instr} {t : State} (hturn : EngineMoves s) (hbusy : s.status = .busy)
      (hi : decodeMicro (fetchWord s) = .ok i) (h : MicroStep (taken s) i t) : Moves s t
  | host {action : HostAction} {rest : List HostAction} {t : State} (hp : s.pending = action :: rest)
      (hturn : action ≠ .engineTurn) (h : HostEffect (taken s) action t) : Moves s t

/-- Every step that answers a next state is one of these (00_scope.md R15). -/
theorem moves_of_step {s t : State} (h : step s = .next t) : Moves s t := by
  obtain hturn | ⟨action, rest, hp, hturn, hstep⟩ := engineMoves_or_host s
  · rw [step_of_engineMoves hturn] at h
    obtain ⟨hnotBusy, rfl⟩ | ⟨hbusy, i, hi, hexec⟩ := engineStep_next h
    · exact .idle hturn hnotBusy
    · exact .engine hturn hbusy hi (microStep_of_next hi hexec)
  · exact .host hp hturn (hostEffect_of_next hturn (hstep.symm.trans h))

end Sys2Proof.Machine
end

section
/-! Time does not depend on secrets (70_reset_and_hazards.md R306). Two states with equal control parts are one state with two
data paths, buffers and answers. So the statement is that exchanging these changes no outcome's kind and no next state's control
part, and this is read off the rule of each action, none of which branches on them. -/

namespace Sys2Proof.Machine

/-- `s` with the data path, the buffers and the last answer of `d`. -/
def withSecretsOf (s d : State) : State :=
  { s with l := d.l, r := d.r, w := d.w, sk := d.sk, key := d.key, rc := d.rc, buf := d.buf, answer := d.answer }

section
variable (s d : State)

@[simp] theorem withSecretsOf_c : (withSecretsOf s d).c = s.c := rfl
@[simp] theorem withSecretsOf_dlenr : (withSecretsOf s d).dlenr = s.dlenr := rfl
@[simp] theorem withSecretsOf_klenr : (withSecretsOf s d).klenr = s.klenr := rfl
@[simp] theorem withSecretsOf_status : (withSecretsOf s d).status = s.status := rfl
@[simp] theorem withSecretsOf_pending : (withSecretsOf s d).pending = s.pending := rfl

end

/-- Equal control parts leave only the secrets to differ. -/
theorem eq_withSecretsOf {s t : State} (h : controlState s = controlState t) : t = withSecretsOf s t := by
  simp only [controlState, Prod.mk.injEq] at h
  obtain ⟨hc, hupc, hopr, hvarr, hnrr, hdlenr, hklenr, hcmd, hstatus, herr, hrom, hpending⟩ := h
  simp only [withSecretsOf, hc, hupc, hopr, hvarr, hnrr, hdlenr, hklenr, hcmd, hstatus, herr, hrom, hpending]

/-- A write of the data path or of `DOUT` leaves the control part. -/
theorem DataWrite.controlState_eq {i : Instr} {v : Variant} {s u : State} (h : DataWrite i v s u) :
    controlState u = controlState s := by
  cases h <;> simp [controlState]

/-- Advancing shows the control part nothing new. -/
theorem controlState_advance {s t : State} (h : controlState s = controlState t) :
    controlState s.advance = controlState t.advance := by
  rw [eq_withSecretsOf h]; rfl

section
variable (s d : State)

/-- A width-dependent micro-operation sees the variant selector and writes no control part (00_scope.md R9). -/
theorem sameControl_exec_data {i : Instr} (hi : widthDependent i = true) :
    sameControl (exec i s) (exec i (withSecretsOf s d)) := by
  obtain ⟨rule, hexec, hwrite⟩ := exec_eq_atVariant hi s
  obtain ⟨rule', hexec', hwrite'⟩ := exec_eq_atVariant hi (withSecretsOf s d)
  rw [hexec, hexec']
  cases hv : Variant.ofSelector s.varr with
  | none => rw [atVariant_of_none hv, atVariant_of_none (s := withSecretsOf s d) hv]; rfl
  | some v =>
    rw [atVariant_of_some hv, atVariant_of_some (s := withSecretsOf s d) hv]
    exact controlState_advance ((hwrite v).controlState_eq.trans (hwrite' v).controlState_eq.symm)

/-- CHK sees only the latches (45_engine.md R214). -/
theorem sameControl_exec_chk : sameControl (exec .chk s) (exec .chk (withSecretsOf s d)) := by
  cases hv : Variant.ofSelector s.varr with
  | none => rw [exec_chk_of_none hv, exec_chk_of_none (s := withSecretsOf s d) hv]; rfl
  | some v =>
    rw [exec_chk_of_some hv, exec_chk_of_some (s := withSecretsOf s d) hv]
    rw [withSecretsOf_dlenr, withSecretsOf_klenr]
    by_cases hl : s.dlenr.toNat = v.bb ∧ s.klenr.toNat = v.kb
    · rw [if_pos hl, if_pos hl]; rfl
    · rw [if_neg hl, if_neg hl]; rfl

/-- A branch sees only its target and the counter (R217, R218). -/
theorem sameControl_exec_brz (target : BitVec 8) : sameControl (exec (.brz target) s) (exec (.brz target) (withSecretsOf s d)) := by
  rw [exec_brz_eq, exec_brz_eq]
  by_cases ht : target ≤ 0x7F#8
  · rw [atTarget_of_le ht, atTarget_of_le ht, withSecretsOf_c]
    by_cases hc : s.c = 0
    · rw [if_pos hc, if_pos hc]; rfl
    · rw [if_neg hc, if_neg hc]; rfl
  · rw [atTarget_of_not_le ht, atTarget_of_not_le ht]; rfl

theorem sameControl_exec_decj (target : BitVec 8) :
    sameControl (exec (.decj target) s) (exec (.decj target) (withSecretsOf s d)) := by
  rw [exec_decj_eq, exec_decj_eq]
  by_cases ht : target ≤ 0x7F#8
  · rw [atTarget_of_le ht, atTarget_of_le ht]; rfl
  · rw [atTarget_of_not_le ht, atTarget_of_not_le ht]; rfl

/-- Acceptance and refusal of a command word see the status and the word (30_encoding.md R84, R85). -/
theorem controlState_startCommand (op : BitVec 5) (var : BitVec 2) (rounds dlen klen nr : BitVec 8) (entry : BitVec 7) :
    controlState (startCommand s op var rounds dlen klen nr entry) =
      controlState (startCommand (withSecretsOf s d) op var rounds dlen klen nr entry) := by
  by_cases hb : s.status = .busy
  · rw [startCommand_of_busy hb, startCommand_of_busy (s := withSecretsOf s d) hb]; rfl
  · rw [startCommand_of_not_busy hb, startCommand_of_not_busy (s := withSecretsOf s d) hb]; rfl

theorem controlState_refuseCommand (word : BitVec 32) :
    controlState (refuseCommand s word) = controlState (refuseCommand (withSecretsOf s d) word) := by
  by_cases hb : s.status = .busy
  · rw [refuseCommand_of_busy hb, refuseCommand_of_busy (s := withSecretsOf s d) hb]; rfl
  · rw [refuseCommand_of_not_busy hb, refuseCommand_of_not_busy (s := withSecretsOf s d) hb]; rfl

/-- No instruction's outcome shows a secret. -/
theorem sameControl_exec (i : Instr) : sameControl (exec i s) (exec i (withSecretsOf s d)) := by
  cases i with
  | enc | dec | encs | decs => exact controlState_startCommand s d ..
  | chk => exact sameControl_exec_chk s d
  | clr | done | setc | setc2 => exact rfl
  | brz target => exact sameControl_exec_brz s d target
  | decj target => exact sameControl_exec_decj s d target
  | _ => exact sameControl_exec_data s d rfl

/-- The fetch sees the ROM and `UPC` (45_engine.md R210). -/
theorem sameControl_engineStep : sameControl (engineStep exec s) (engineStep exec (withSecretsOf s d)) := by
  by_cases hb : s.status = .busy
  · rw [engineStep, engineStep, if_pos hb, if_pos ((withSecretsOf_status s d).trans hb)]
    have hfetch : fetchWord (withSecretsOf s d) = fetchWord s := rfl
    rw [hfetch]
    cases decodeMicro (fetchWord s) with
    | ok i => exact sameControl_exec s d i
    | error e => exact rfl
  · rw [engineStep_of_not_busy hb, engineStep_of_not_busy (s := withSecretsOf s d) hb]; rfl

/-- A write's outcome sees the status and its rule. -/
theorem sameControl_hostWrite {offset width : Nat} {rule rule' : Result} (h : sameControl rule rule') :
    sameControl (hostWrite offset width s rule) (hostWrite offset width (withSecretsOf s d) rule') := by
  by_cases hignored : s.status = .busy ∧ offset + width ≤ windowEnd
  · rw [hostWrite_of_busy hignored.1 hignored.2, hostWrite_of_busy (s := withSecretsOf s d) hignored.1 hignored.2]; rfl
  · have hrule : s.status = .busy → ¬ offset + width ≤ windowEnd := fun hb hw => hignored ⟨hb, hw⟩
    rwa [hostWrite_of_rule hrule, hostWrite_of_rule (s := withSecretsOf s d) hrule]

theorem sameControl_hostWriteCmd (word : BitVec 32) :
    sameControl (hostWriteCmd exec word s) (hostWriteCmd exec word (withSecretsOf s d)) := by
  unfold hostWriteCmd
  cases decodeCommand word with
  | ok i => exact sameControl_exec s d i
  | error e => exact controlState_refuseCommand s d word

/-- A host access reads a secret only into its answer, and writes no control part but `CMD`'s (20_memory.md R60). -/
theorem sameControl_hostStep (action : HostAction) :
    sameControl (hostStep exec action s) (hostStep exec action (withSecretsOf s d)) := by
  cases action with
  | engineTurn => exact sameControl_engineStep s d
  | readHalf | reset => exact rfl
  | readByte offset => simp only [hostStep, hostReadByte]; split_ifs <;> exact rfl
  | readWord offset => simp only [hostStep, hostReadWord]; split_ifs <;> exact rfl
  | writeHalf offset value => exact sameControl_hostWrite s d rfl
  | writeByte offset value => exact sameControl_hostWrite s d (by split_ifs <;> exact rfl)
  | writeWord offset value =>
    refine sameControl_hostWrite s d ?_
    split_ifs
    · exact sameControl_hostWriteCmd s d value
    · exact rfl
    · exact rfl

end

/-- Settles O57: the other state is the first with other secrets, and the action that moves does not show them. -/
theorem timeDoesNotDependOnSecrets : Obligations.TimeDoesNotDependOnSecrets := by
  unfold Obligations.TimeDoesNotDependOnSecrets
  intro s t h
  rw [eq_withSecretsOf h]
  cases hp : s.pending with
  | nil =>
    rw [step_of_nothing_pending hp, step_of_nothing_pending ((withSecretsOf_pending s t).trans hp)]
    exact sameControl_engineStep s t
  | cons action rest =>
    rw [step_of_pending hp, step_of_pending ((withSecretsOf_pending s t).trans hp)]
    exact sameControl_hostStep (s.setPending rest) t action

end Sys2Proof.Machine
end

section
/-! The invariant of the machine (10_state.md R44, R51; 20_memory.md R75; 45_engine.md R213, R218). What each clause needs of a step
is a lemma of its own: which fields a step leaves, that the buffers stay canonical, that unused bits stay zero, and where in R212's
listing the next `UPC` stands. The last is a fact about 128 addresses, said of each address and what is listed there. -/

namespace Sys2Proof.Machine

/-! ### The clauses of the invariant -/

/-- The clauses of a cleared data path (R51). -/
theorem dataPathZero_iff (s : State) : dataPathZero s = true ↔
    s.l = Vector.replicate 4 0 ∧ s.r = Vector.replicate 4 0 ∧ s.w = Vector.replicate 4 0 ∧ s.sk = Vector.replicate 4 0 ∧
      s.key = Vector.replicate 32 0 ∧ s.rc = 0 ∧ s.c = 0 := by
  simp [dataPathZero, and_assoc]

/-- CLR's update clears the data path (44_datapath.md R193). -/
theorem dataPathZero_clearDataPath (s : State) : dataPathZero s.clearDataPath = true := by simp [dataPathZero_iff]

/-- The bits beyond the variant are zero, register by register (R33, R35). -/
structure UnusedZero (v : Variant) (s : State) : Prop where
  l : lanesBelow v.lw s.l = true
  r : lanesBelow v.lw s.r = true
  w : lanesBelow v.lw s.w = true
  sk : lanesBelow v.lw s.sk = true
  rc : s.rc.toNat < 2 ^ v.cw
  key : ∀ i, i < 32 → v.kb ≤ i → byteAt s.key i = 0

theorem unusedBitsZero_iff (s : State) :
    unusedBitsZero s = true ↔ ∀ v, Variant.ofSelector s.varr = some v → UnusedZero v s := by
  unfold unusedBitsZero
  cases Variant.ofSelector s.varr with
  | none => simp
  | some v =>
    simp only [Bool.and_eq_true, decide_eq_true_eq, List.all_eq_true, List.mem_range, Bool.or_eq_true, Option.some.injEq,
      forall_eq']
    constructor
    · rintro ⟨⟨⟨⟨⟨hl, hr⟩, hw⟩, hsk⟩, hrc⟩, hkey⟩
      exact ⟨hl, hr, hw, hsk, hrc, fun i hi hge => (hkey i hi).resolve_left (Nat.not_lt.2 hge)⟩
    · rintro ⟨hl, hr, hw, hsk, hrc, hkey⟩
      refine ⟨⟨⟨⟨⟨hl, hr⟩, hw⟩, hsk⟩, hrc⟩, fun i hi => ?_⟩
      exact (Nat.lt_or_ge i v.kb).imp_right (hkey i hi)

/-- An address of CHK, of DONE, inside a loop, and of either program (R212, R213). -/
def checkAt (a : BitVec 7) : Bool := decide (a = 0x00) || decide (a = 0x20)
def doneAt (a : BitVec 7) : Bool := decide (a = 0x1E) || decide (a = 0x46)
def loopAt (a : BitVec 7) : Bool :=
  (decide (0x05#7 ≤ a) && decide (a ≤ 0x1B#7)) || (decide (0x25#7 ≤ a) && decide (a ≤ 0x2A#7))
    || (decide (0x2D#7 ≤ a) && decide (a ≤ 0x43#7))
def encryptionAt (a : BitVec 7) : Bool := decide (a ≤ 0x1E#7)
def decryptionAt (a : BitVec 7) : Bool := decide (0x20#7 ≤ a) && decide (a ≤ 0x46#7)

theorem insideProgram_iff (s : State) : insideProgram s = true ↔
    (encrypting s = true ∧ encryptionAt s.upc = true) ∨ (decrypting s = true ∧ decryptionAt s.upc = true) := by
  simp only [insideProgram, encryptionAt, decryptionAt, Bool.or_eq_true, Bool.and_eq_true, and_assoc]

/-- What holds while a command runs, clause by clause (R51, R109, R213, R214). -/
structure RunsWell (s : State) : Prop where
  inside : insideProgram s = true
  clean : checkAt s.upc = true ∨ doneAt s.upc = true → dataPathZero s = true
  arguments : checkAt s.upc = false → argumentsPass s = true
  counting : loopAt s.upc = true → s.c ≠ 0
  counter : s.c.toNat ≤ 2 * s.nrr.toNat

theorem runningWell_iff (s : State) : runningWell s = true ↔ RunsWell s := by
  have hcheck : atCheck s = checkAt s.upc := rfl
  have hdone : atDone s = doneAt s.upc := rfl
  have hloop : insideLoop s = loopAt s.upc := rfl
  rw [runningWell, hcheck, hdone, hloop]
  simp only [Bool.and_eq_true, Bool.or_eq_true, Bool.not_eq_true', Bool.or_eq_false_iff, decide_eq_true_eq]
  constructor
  · rintro ⟨⟨⟨⟨hinside, hclean⟩, harguments⟩, hcounting⟩, hcounter⟩
    refine ⟨hinside, fun h => ?_, fun h => ?_, fun h => ?_, hcounter⟩
    · exact hclean.resolve_left fun hn => by simp [hn] at h
    · exact harguments.resolve_left (by simp [h])
    · exact hcounting.resolve_left (by simp [h])
  · rintro ⟨hinside, hclean, harguments, hcounting, hcounter⟩
    refine ⟨⟨⟨⟨hinside, ?_⟩, ?_⟩, ?_⟩, hcounter⟩
    · by_cases h : checkAt s.upc = true ∨ doneAt s.upc = true
      · exact .inr (hclean h)
      · exact .inl (by simpa using h)
    · exact (Bool.eq_false_or_eq_true _).imp_right harguments
    · exact (Bool.eq_false_or_eq_true _).symm.imp_right hcounting

/-- The invariant, clause by clause. -/
structure InvHolds (s : State) : Prop where
  buffers : bufferWf s.buf = true
  rom : s.rom = []
  clean : s.status ≠ .busy → dataPathZero s = true
  errors : s.status = .error ↔ s.err ≠ .none
  unused : unusedBitsZero s = true
  running : s.status = .busy → RunsWell s

theorem inv_iff (s : State) : Inv s = true ↔ InvHolds s := by
  simp only [Inv, Bool.and_eq_true, Bool.or_eq_true, decide_eq_true_eq, Bool.not_eq_true', decide_eq_false_iff_not, beq_iff_eq,
    decide_eq_decide]
  constructor
  · rintro ⟨⟨⟨⟨⟨hbuf, hrom⟩, hclean⟩, herr⟩, hunused⟩, hrun⟩
    exact ⟨hbuf, hrom, hclean.resolve_left, herr, hunused, fun hb => (runningWell_iff s).1 (hrun.resolve_left (not_not.2 hb))⟩
  · rintro ⟨hbuf, hrom, hclean, herr, hunused, hrun⟩
    refine ⟨⟨⟨⟨⟨hbuf, hrom⟩, ?_⟩, herr⟩, hunused⟩, ?_⟩
    · exact (em _).imp_right hclean
    · exact (em _).symm.imp_right fun hb => (runningWell_iff s).2 (hrun hb)

/-! ### Unused bits -/

theorem lanesBelow_iff (w : Nat) (x : Lanes 32) : lanesBelow w x = true ↔ ∀ j : Fin 4, x[j].toNat < 2 ^ w := by
  simp [lanesBelow, Fin.forall_fin_succ, and_assoc]

/-- A write of the lanes at the variant's width leaves the bits above it zero (R35). -/
theorem lanesBelow_putLanes {v : Variant} {reg : Lanes 32} (h : lanesBelow v.lw reg = true) (x : Lanes v.lw) :
    lanesBelow v.lw (putLanes v reg x) = true := by
  rw [lanesBelow_iff] at h ⊢
  intro j
  rw [Fin.getElem_fin, getElem_putLanes v reg x j.isLt]
  exact putLow_toNat_lt (by cases v <;> decide) _ _ (h j)

/-- So does a write of the accumulator. -/
theorem putRc_toNat_lt {v : Variant} {reg : BitVec 128} (h : reg.toNat < 2 ^ v.cw) (x : BitVec v.cw) :
    (putRc v reg x).toNat < 2 ^ v.cw := putLow_toNat_lt (by cases v <;> decide) reg x h

section
variable {v : Variant} {s : State} (hs : UnusedZero v s)
include hs

theorem UnusedZero.setL {x : Lanes 32} (h : lanesBelow v.lw x = true) : UnusedZero v (s.setL x) := { hs with l := h }
theorem UnusedZero.setR {x : Lanes 32} (h : lanesBelow v.lw x = true) : UnusedZero v (s.setR x) := { hs with r := h }
theorem UnusedZero.setW {x : Lanes 32} (h : lanesBelow v.lw x = true) : UnusedZero v (s.setW x) := { hs with w := h }
theorem UnusedZero.setSk {x : Lanes 32} (h : lanesBelow v.lw x = true) : UnusedZero v (s.setSk x) := { hs with sk := h }
theorem UnusedZero.setRc {x : BitVec 128} (h : x.toNat < 2 ^ v.cw) : UnusedZero v (s.setRc x) := { hs with rc := h }
theorem UnusedZero.setBuf (x : List Host.Cell) : UnusedZero v (s.setBuf x) := { hs with }
theorem UnusedZero.advance : UnusedZero v s.advance := { hs with }

theorem UnusedZero.setKey {k : Vector Byte 32} (h : ∀ i, i < 32 → v.kb ≤ i → byteAt k i = 0) : UnusedZero v (s.setKey k) :=
  { hs with key := h }

/-- A write of the key leaves the bytes beyond it zero (R33). -/
theorem UnusedZero.putKey_of_ge (k : Vector Byte v.kb) (i : Nat) (hi : i < 32) (hge : v.kb ≤ i) :
    byteAt (putKey v s.key k) i = 0 :=
  (byteAt_putKey_of_ge v s.key k hge).trans (hs.key i hi hge)

end

/-- A micro-operation at the variant's width writes no bit beyond it (R33, R35). -/
theorem DataWrite.unusedZero {i : Instr} {v : Variant} {s u : State} (h : DataWrite i v s u) (hs : UnusedZero v s) :
    UnusedZero v u := by
  cases h with
  | left x => exact hs.setL (lanesBelow_putLanes hs.l x)
  | right x => exact hs.setR (lanesBelow_putLanes hs.r x)
  | halves x y => exact (hs.setL (lanesBelow_putLanes hs.l x)).setR (lanesBelow_putLanes hs.r y)
  | work x => exact hs.setW (lanesBelow_putLanes hs.w x)
  | subkey x => exact hs.setSk (lanesBelow_putLanes hs.sk x)
  | key k => exact hs.setKey (hs.putKey_of_ge k)
  | accumulator x => exact hs.setRc (putRc_toNat_lt hs.rc x)
  | keyAndAccumulator k x => exact (hs.setKey (hs.putKey_of_ge k)).setRc (putRc_toNat_lt hs.rc x)
  | store _ f => exact hs.setBuf _

/-- A cleared data path has no unused bit set, whatever the variant (R51). -/
theorem unusedZero_of_dataPathZero {s : State} (h : dataPathZero s = true) (v : Variant) : UnusedZero v s := by
  obtain ⟨hl, hr, hw, hsk, hkey, hrc, -⟩ := (dataPathZero_iff s).1 h
  have hlanes : lanesBelow v.lw (Vector.replicate 4 0) = true := by simp [lanesBelow_iff]
  exact ⟨hl ▸ hlanes, hr ▸ hlanes, hw ▸ hlanes, hsk ▸ hlanes, by simp [hrc], fun i hi _ => by simp [hkey, byteAt, hi]⟩

theorem unusedBitsZero_of_dataPathZero {s : State} (h : dataPathZero s = true) : unusedBitsZero s = true :=
  (unusedBitsZero_iff s).2 fun v _ => unusedZero_of_dataPathZero h v

/-! ### What a micro-operation leaves -/

/-- The latches, `CMD` and the ROM are as before (R40, R42, R49). -/
structure LatchesKept (s t : State) : Prop where
  cmd : t.cmd = s.cmd
  opr : t.opr = s.opr
  varr : t.varr = s.varr
  nrr : t.nrr = s.nrr
  dlenr : t.dlenr = s.dlenr
  klenr : t.klenr = s.klenr
  rom : t.rom = s.rom

/-- The block fits `DOUT` (20_memory.md R60). -/
theorem bb_le (v : Variant) : v.bb ≤ 32 := by cases v <;> decide

section
variable {i : Instr} {v : Variant} {s u : State} (h : DataWrite i v s u)
include h

theorem DataWrite.latchesKept : LatchesKept s u := by
  cases h <;> constructor <;> simp

theorem DataWrite.status_eq : u.status = s.status := by cases h <;> simp
theorem DataWrite.err_eq : u.err = s.err := by cases h <;> simp
theorem DataWrite.c_eq : u.c = s.c := by cases h <;> simp
theorem DataWrite.upc_eq : u.upc = s.upc := by cases h <;> simp

/-- Only STBLK writes the buffers (44_datapath.md R192). -/
theorem DataWrite.buf_eq (hi : i ≠ .stblk) : u.buf = s.buf := by
  cases h with
  | store hstblk => exact absurd hstblk hi
  | _ => simp

theorem DataWrite.bufferWf_kept (hs : bufferWf s.buf = true) : bufferWf u.buf = true := by
  cases h with
  | store _ f =>
    have := bb_le v
    exact bufferWf_writeBufferRun hs (by simp [dinBase, doutBase]) (by simp only [doutBase, windowEnd]; omega) f
  | _ => simpa using hs

end

section
variable {i : Instr} {s t : State} (h : MicroStep s i t)
include h

/-- No micro-operation writes `CMD`, a latch or the ROM (R40, 20_memory.md R75). -/
theorem MicroStep.latchesKept : LatchesKept s t := by
  cases h with
  | data _ _ hu => exact { hu.latchesKept with }
  | _ => constructor <;> simp

theorem MicroStep.bufferWf_kept (hs : bufferWf s.buf = true) : bufferWf t.buf = true := by
  cases h with
  | data _ _ hu => exact hu.bufferWf_kept hs
  | _ => exact hs

theorem MicroStep.unusedBitsZero_kept (hs : unusedBitsZero s = true) : unusedBitsZero t = true := by
  cases h with
  | clr => exact unusedBitsZero_of_dataPathZero (dataPathZero_clearDataPath s)
  | @data i v u _ hv hu =>
    rw [unusedBitsZero_iff] at hs ⊢
    intro v' hv'
    rw [State.advance_varr, hu.latchesKept.varr, hv] at hv'
    cases hv'
    exact (hu.unusedZero (hs v hv)).advance
  | _ => exact hs

end

/-! ### Where a program goes -/

/-- `b` is an address of the same program as `a`, behind its CHK (R213). -/
def goesTo (a b : BitVec 7) : Bool :=
  (!encryptionAt a || encryptionAt b) && (!decryptionAt a || decryptionAt b) && !checkAt b

/-- `b` is an address of the same program as `a`, between its CHK and its DONE. -/
def goesOnTo (a b : BitVec 7) : Bool := goesTo a b && !doneAt b

/-- What the listing has to have at `a` for `i` to stand there: CHK, CLR and DONE at their places, BRZ before a loop and DECJ at its
end, and a counter that is loaded outside the loops. -/
def wellPlaced (a : BitVec 7) (i : Instr) : Bool :=
  if widthDependent i then !checkAt a && goesOnTo a (a + 1) && (!loopAt (a + 1) || loopAt a)
  else
    match i with
    | .chk => checkAt a && goesOnTo a (a + 1) && !loopAt (a + 1)
    | .clr => !checkAt a && goesTo a (a + 1) && !loopAt (a + 1)
    | .done => doneAt a
    | .setc | .setc2 => !checkAt a && goesOnTo a (a + 1) && !loopAt (a + 1)
    | .brz target =>
      !checkAt a && goesOnTo a (a + 1) && goesOnTo a (target.setWidth 7) && !loopAt (target.setWidth 7)
    | .decj target => !checkAt a && loopAt a && goesOnTo a (target.setWidth 7) && !loopAt (target.setWidth 7)
    | _ => false

section
variable {a : BitVec 7}

theorem wellPlaced_chk : wellPlaced a .chk = true ↔
    checkAt a = true ∧ goesOnTo a (a + 1) = true ∧ ¬ loopAt (a + 1) = true := by
  simp [wellPlaced, widthDependent, and_assoc]

theorem wellPlaced_clr : wellPlaced a .clr = true ↔
    checkAt a = false ∧ goesTo a (a + 1) = true ∧ ¬ loopAt (a + 1) = true := by
  simp [wellPlaced, widthDependent, and_assoc]

theorem wellPlaced_done : wellPlaced a .done = true ↔ doneAt a = true := by
  simp [wellPlaced, widthDependent]

theorem wellPlaced_setc : wellPlaced a .setc = true ↔
    checkAt a = false ∧ goesOnTo a (a + 1) = true ∧ ¬ loopAt (a + 1) = true := by
  simp [wellPlaced, widthDependent, and_assoc]

theorem wellPlaced_setc2 : wellPlaced a .setc2 = true ↔
    checkAt a = false ∧ goesOnTo a (a + 1) = true ∧ ¬ loopAt (a + 1) = true := by
  simp [wellPlaced, widthDependent, and_assoc]

theorem wellPlaced_brz {target : BitVec 8} : wellPlaced a (.brz target) = true ↔
    checkAt a = false ∧ goesOnTo a (a + 1) = true ∧ goesOnTo a (target.setWidth 7) = true ∧
      ¬ loopAt (target.setWidth 7) = true := by
  simp [wellPlaced, widthDependent, and_assoc]

theorem wellPlaced_decj {target : BitVec 8} : wellPlaced a (.decj target) = true ↔
    checkAt a = false ∧ loopAt a = true ∧ goesOnTo a (target.setWidth 7) = true ∧ ¬ loopAt (target.setWidth 7) = true := by
  simp [wellPlaced, widthDependent, and_assoc]

theorem wellPlaced_data {i : Instr} (hi : widthDependent i = true) : wellPlaced a i = true ↔
    checkAt a = false ∧ goesOnTo a (a + 1) = true ∧ (loopAt (a + 1) = true → loopAt a = true) := by
  simp only [wellPlaced, hi, if_true, Bool.and_eq_true, Bool.or_eq_true, Bool.not_eq_true', and_assoc]
  cases loopAt (a + 1) <;> simp

end

/-- What an address of the ROM holds decodes and is well placed, or the address is in neither program. -/
def listingIsWellPlaced (a : BitVec 7) : Bool :=
  match decodeMicro (microprogram a.toNat) with
  | .ok i => wellPlaced a i
  | .error _ => !(encryptionAt a || decryptionAt a)

theorem listingIsWellPlaced_all : ∀ a : BitVec 7, listingIsWellPlaced a = true := by
  decide

end Sys2Proof.Machine
end

section
/-! Every step keeps the invariant: a micro-operation leads to an address behind it in its program or ends the command with a
cleared data path, and a host access starts a command at its CHK or leaves the block at rest. -/

namespace Sys2Proof.Machine

/-! ### The fetch -/

section
variable {s : State} (hs : RunsWell s) (hrom : s.rom = [])
include hs hrom

/-- Inside a program the fetched word decodes (R213). -/
theorem RunsWell.fetch_decodes : ∃ i, decodeMicro (fetchWord s) = .ok i ∧ wellPlaced s.upc i = true := by
  have hplaced := listingIsWellPlaced_all s.upc
  rw [fetchWord_of_rom_nil hrom]
  unfold listingIsWellPlaced at hplaced
  split at hplaced
  · next i hi => exact ⟨i, hi, hplaced⟩
  · have hinside := (insideProgram_iff s).1 hs.inside
    simp only [Bool.not_eq_true', Bool.or_eq_false_iff] at hplaced
    simp [hplaced] at hinside

theorem RunsWell.wellPlaced_of_fetch {i : Instr} (hi : decodeMicro (fetchWord s) = .ok i) : wellPlaced s.upc i = true := by
  obtain ⟨j, hj, hplaced⟩ := hs.fetch_decodes hrom
  cases hj.symm.trans hi
  exact hplaced

end

/-! ### The micro-operations -/

section
variable {s t : State} (hs : RunsWell s) (hk : LatchesKept s t) (harguments : argumentsPass s = true)
include hs hk harguments

/-- A step behind CHK in the same program runs well, if it keeps the counter in bounds and clears the data path before DONE. -/
theorem RunsWell.of_goesTo (hgo : goesTo s.upc t.upc = true) (hdone : doneAt t.upc = true → dataPathZero t = true)
    (hcounting : loopAt t.upc = true → t.c ≠ 0) (hcounter : t.c.toNat ≤ 2 * s.nrr.toNat) : RunsWell t := by
  simp only [goesTo, Bool.and_eq_true, Bool.or_eq_true, Bool.not_eq_true'] at hgo
  obtain ⟨⟨henc, hdec⟩, hcheck⟩ := hgo
  refine ⟨?inside, ?clean, fun _ => ?arguments, hcounting, by rwa [hk.nrr]⟩
  case inside =>
    have hinside := (insideProgram_iff s).1 hs.inside
    rw [insideProgram_iff, encrypting, decrypting, hk.opr]
    refine hinside.imp (And.imp_right fun h => ?_) (And.imp_right fun h => ?_)
    · exact henc.resolve_left (by simp [h])
    · exact hdec.resolve_left (by simp [h])
  case clean => exact fun h => hdone (h.resolve_left (by simp [hcheck]))
  case arguments => rwa [argumentsPass, hk.varr, hk.dlenr, hk.klenr]

/-- The same, between CHK and DONE. -/
theorem RunsWell.of_goesOnTo (hgo : goesOnTo s.upc t.upc = true) (hcounting : loopAt t.upc = true → t.c ≠ 0)
    (hcounter : t.c.toNat ≤ 2 * s.nrr.toNat) : RunsWell t := by
  simp only [goesOnTo, Bool.and_eq_true, Bool.not_eq_true'] at hgo
  exact hs.of_goesTo hk harguments hgo.1 (fun h => by simp [hgo.2] at h) hcounting hcounter

end

/-- A decrement of a counter that is not zero counts down (R218). -/
theorem toNat_decrement_le (c : BitVec 9) (hc : c ≠ 0) : (c - 1).toNat ≤ c.toNat := by
  bv_omega

/-- The command has ended and left the block at rest (R51, R219). -/
structure AtRest (t : State) : Prop where
  notBusy : t.status ≠ .busy
  errors : t.status = .error ↔ t.err ≠ .none
  clean : dataPathZero t = true

/-- A fetched micro-operation goes on in its program or ends the command (R213, R214, R219). -/
theorem RunsWell.of_microStep {i : Instr} {s t : State} (hs : RunsWell s) (herr : s.err = .none)
    (hplaced : wellPlaced s.upc i = true) (h : MicroStep s i t) :
    (t.status = s.status ∧ t.err = s.err ∧ RunsWell t) ∨ AtRest t := by
  have hk := h.latchesKept
  cases h with
  | @chkPasses v hv hl =>
    obtain ⟨-, hgo, hloop⟩ := wellPlaced_chk.1 hplaced
    have harguments : argumentsPass s = true := by simpa [argumentsPass, hv] using (lengthsMatch_iff ..).1 hl
    exact .inl ⟨rfl, rfl, hs.of_goesOnTo hk harguments hgo (absurd · hloop) hs.counter⟩
  | chkRaises he =>
    obtain ⟨hcheck, -, -⟩ := wellPlaced_chk.1 hplaced
    have hzero : dataPathZero s = true := hs.clean (.inl hcheck)
    exact .inr ⟨by simp, by simpa using he, hzero⟩
  | clr =>
    obtain ⟨hcheck, hgo, hloop⟩ := wellPlaced_clr.1 hplaced
    exact .inl ⟨rfl, rfl, hs.of_goesTo hk (hs.arguments hcheck) hgo (fun _ => dataPathZero_clearDataPath s) (absurd · hloop)
      (Nat.zero_le _)⟩
  | done =>
    have hzero : dataPathZero s = true := hs.clean (.inr (wellPlaced_done.1 hplaced))
    exact .inr ⟨by simp, by simp [herr], hzero⟩
  | setc =>
    obtain ⟨hcheck, hgo, hloop⟩ := wellPlaced_setc.1 hplaced
    have hcounter : (s.nrr.setWidth 9).toNat ≤ 2 * s.nrr.toNat := by rw [toNat_setc]; omega
    exact .inl ⟨rfl, rfl, hs.of_goesOnTo hk (hs.arguments hcheck) hgo (absurd · hloop) hcounter⟩
  | setc2 =>
    obtain ⟨hcheck, hgo, hloop⟩ := wellPlaced_setc2.1 hplaced
    exact .inl ⟨rfl, rfl, hs.of_goesOnTo hk (hs.arguments hcheck) hgo (absurd · hloop) (toNat_setc2 s.nrr).le⟩
  | brzTaken _ =>
    obtain ⟨hcheck, -, hgo, hloop⟩ := wellPlaced_brz.1 hplaced
    exact .inl ⟨rfl, rfl, hs.of_goesOnTo hk (hs.arguments hcheck) hgo (absurd · hloop) hs.counter⟩
  | brzNotTaken hc =>
    obtain ⟨hcheck, hgo, -⟩ := wellPlaced_brz.1 hplaced
    exact .inl ⟨rfl, rfl, hs.of_goesOnTo hk (hs.arguments hcheck) hgo (fun _ => hc) hs.counter⟩
  | decj =>
    obtain ⟨hcheck, hhere, hgo, hloop⟩ := wellPlaced_decj.1 hplaced
    have hcounter := (toNat_decrement_le s.c (hs.counting hhere)).trans hs.counter
    exact .inl ⟨rfl, rfl, hs.of_goesOnTo hk (hs.arguments hcheck) hgo (absurd · hloop) hcounter⟩
  | data hi _ hu =>
    obtain ⟨hcheck, hgo, hloop⟩ := (wellPlaced_data hi).1 hplaced
    refine .inl ⟨hu.status_eq, hu.err_eq, hs.of_goesOnTo hk (hs.arguments hcheck) ?_ ?_ ?_⟩
    · rwa [State.advance_upc, hu.upc_eq]
    · rw [State.advance_upc, State.advance_c, hu.upc_eq, hu.c_eq]
      exact fun h => hs.counting (hloop h)
    · rw [State.advance_c, hu.c_eq]
      exact hs.counter

/-- A micro-operation of the engine keeps the invariant. -/
theorem InvHolds.of_microStep {i : Instr} {s t : State} (hs : InvHolds s) (hbusy : s.status = .busy)
    (hi : decodeMicro (fetchWord s) = .ok i) (h : MicroStep s i t) : InvHolds t := by
  have hrun := hs.running hbusy
  have hnotError : s.status ≠ .error := by simp [hbusy]
  have herr : s.err = .none := by_contra fun hne => hnotError (hs.errors.2 hne)
  have hrom : t.rom = [] := h.latchesKept.rom.trans hs.rom
  obtain ⟨hstatus, herr', hrun'⟩ | hrest := hrun.of_microStep herr (hrun.wellPlaced_of_fetch hs.rom hi) h
  · refine ⟨h.bufferWf_kept hs.buffers, hrom, fun hn => absurd (hstatus.trans hbusy) hn, ?_,
      h.unusedBitsZero_kept hs.unused, fun _ => hrun'⟩
    rw [hstatus, herr']
    exact hs.errors
  · exact ⟨h.bufferWf_kept hs.buffers, hrom, fun _ => hrest.clean, hrest.errors, h.unusedBitsZero_kept hs.unused,
      fun hb => absurd hb hrest.notBusy⟩

/-! ### The host's accesses -/

/-- The program R84 starts for an accepted `OP` is that operation's, at its CHK (R212). -/
theorem entry_of_op : ∀ op : BitVec 5, op ≤ 3#5 →
    let entry := if op.setWidth 1 = 0#1 then encryptEntry else decryptEntry
    (((decide (op = 0) || decide (op = 2)) = true ∧ encryptionAt entry = true) ∨
        ((decide (op = 1) || decide (op = 3)) = true ∧ decryptionAt entry = true)) ∧
      checkAt entry = true ∧ ¬ loopAt entry = true := by
  decide

/-- Acceptance, from a block at rest, stands at the CHK of the operation's program with a cleared data path (R84, R213). -/
theorem InvHolds.startCommand {s : State} (hs : InvHolds s) (hnotBusy : s.status ≠ .busy) {word : BitVec 32} {i : Instr}
    (hi : decodeCommand word = .ok i) (var : BitVec 2) (rounds dlen klen nr : BitVec 8) :
    InvHolds (startCommand s (fieldOp word) var rounds dlen klen nr (programEntry word)) := by
  obtain ⟨hop, -⟩ := (decodeCommand_isOk_iff word).1 ⟨i, hi⟩
  have hzero := hs.clean hnotBusy
  obtain ⟨-, -, -, -, -, -, hc⟩ := (dataPathZero_iff s).1 hzero
  rw [startCommand_of_not_busy hnotBusy, programEntry_eq]
  refine ⟨hs.buffers, hs.rom, fun hn => absurd rfl hn, by simp, unusedBitsZero_of_dataPathZero hzero, fun _ => ?running⟩
  case running =>
    obtain ⟨hinside, hcheck, hloop⟩ := entry_of_op _ hop
    exact ⟨(insideProgram_iff _).2 hinside, fun _ => hzero, fun h => absurd hcheck (Bool.eq_false_iff.1 h),
      (absurd · hloop), by simp [hc]⟩

/-- Refusal at once leaves the block at rest, in error (R85). -/
theorem InvHolds.refuseCommand {s : State} (hs : InvHolds s) (hnotBusy : s.status ≠ .busy) (word : BitVec 32) :
    InvHolds (refuseCommand s word) := by
  have hzero := hs.clean hnotBusy
  rw [refuseCommand_of_not_busy hnotBusy]
  exact ⟨hs.buffers, hs.rom, fun _ => hzero, by simp, hs.unused, fun h => by simp at h⟩

/-- Reset leaves the block at rest (70_reset_and_hazards.md R290). -/
theorem InvHolds.resetBlock {s : State} (hrom : s.rom = []) : InvHolds (resetBlock s) := by
  have hzero : dataPathZero (Machine.resetBlock s) = true := rfl
  exact ⟨rfl, hrom, fun _ => hzero, by simp [State.reset], unusedBitsZero_of_dataPathZero hzero,
    fun h => by simp [State.reset] at h⟩

/-- A write to an input buffer touches no clause but that of the buffers. -/
theorem InvHolds.setBuf {s : State} (hs : InvHolds s) {buf : List Host.Cell} (hbuf : bufferWf buf = true) :
    InvHolds (s.setBuf buf) :=
  { hs with buffers := hbuf, running := fun hb => { hs.running hb with } }

/-- The answer and the host's coming actions are in no clause. -/
theorem InvHolds.setAnswer {s : State} (hs : InvHolds s) (x : BitVec 32) : InvHolds (s.setAnswer x) :=
  { hs with running := fun hb => { hs.running hb with } }

theorem InvHolds.taken {s : State} (hs : InvHolds s) : InvHolds (taken s) :=
  { hs with running := fun hb => { hs.running hb with } }

/-- A host access keeps the invariant. -/
theorem InvHolds.of_hostEffect {action : HostAction} {s t : State} (hs : InvHolds s) (h : HostEffect s action t) : InvHolds t := by
  cases h with
  | ignored => exact hs
  | answered x => exact hs.setAnswer x
  | byteWritten _ hlo hhi =>
    exact hs.setBuf (bufferWf_writeBuffer hs.buffers hlo (hhi.trans (by decide)) _)
  | accepted hnotBusy hi => exact hs.startCommand hnotBusy hi ..
  | refused hnotBusy => exact hs.refuseCommand hnotBusy _
  | reset => exact .resetBlock hs.rom

/-! ### The obligations -/

/-- Settles O54: the engine's step and the host's access keep the invariant, and taking the action off the list is in no clause. -/
theorem everyStepKeepsTheInvariant : Obligations.EveryStepKeepsTheInvariant := by
  unfold Obligations.EveryStepKeepsTheInvariant
  intro s t hinv hstep
  have hs := ((inv_iff s).1 hinv).taken
  rw [inv_iff]
  cases moves_of_step hstep with
  | idle => exact hs
  | engine _ hbusy hi h => exact hs.of_microStep hbusy hi h
  | host _ _ h => exact hs.of_hostEffect h

/-- Settles O55: the block at reset is at rest. -/
theorem invariantHoldsAtReset : Obligations.InvariantHoldsAtReset := by
  unfold Obligations.InvariantHoldsAtReset
  rw [inv_iff]
  exact InvHolds.resetBlock (s := State.reset) rfl

/-- Inside a program the engine's step answers a next state: the fetched word decodes, and past CHK a variant is selected. -/
theorem InvHolds.engineStep_answers {s : State} (hs : InvHolds s) : ∃ t, engineStep exec s = .next t := by
  by_cases hbusy : s.status = .busy
  · have hrun := hs.running hbusy
    obtain ⟨i, hi, hplaced⟩ := hrun.fetch_decodes hs.rom
    rw [engineStep_of_busy hbusy hi]
    obtain ⟨t, hexec, -⟩ | ⟨hwidth, hnone⟩ := exec_of_decodeMicro hi s
    · exact ⟨t, hexec⟩
    · obtain ⟨hcheck, -⟩ := (wellPlaced_data hwidth).1 hplaced
      have harguments := hrun.arguments hcheck
      simp [argumentsPass, hnone] at harguments
  · exact ⟨s, engineStep_of_not_busy hbusy⟩

/-- Settles O56: the engine's step stops nowhere, and a host access only where R65 does not list it. -/
theorem invariantStatesNeverFault : Obligations.InvariantStatesNeverFault := by
  unfold Obligations.InvariantStatesNeverFault
  intro s hinv
  have hs := ((inv_iff s).1 hinv).taken
  obtain hturn | ⟨action, rest, hp, hturn, hstep⟩ := engineMoves_or_host s
  · obtain ⟨t, ht⟩ := hs.engineStep_answers
    simp [step_of_engineMoves hturn, ht]
  · obtain ⟨t, ht⟩ | ⟨hrefused, hunsupported⟩ := hostStep_cases hturn (taken s)
    · simp [hstep, ht]
    · rw [hstep, hrefused]
      refine ⟨nofun, fun r h => ?_⟩
      cases h
      exact ⟨rfl, action, rest, hp, hunsupported⟩

end Sys2Proof.Machine
end

section
/-! One step of the machine (45_engine.md R210; 20_memory.md R60 to R73; 30_encoding.md R84 to R88): who moves, what runs, and what
is refused. -/

namespace Sys2Proof.Machine

/-! ### Reset and the engine -/

/-- Settles O6. -/
theorem resetEventClearsTheBlock : Obligations.ResetEventClearsTheBlock := by
  unfold Obligations.ResetEventClearsTheBlock
  intro s rest hp
  rw [step_of_pending hp]
  rfl

/-- The engine's step when the host side leaves it to it by name. -/
theorem step_of_engineTurn {s : State} {rest : List HostAction} (hp : s.pending = .engineTurn :: rest) :
    step s = engineStep exec (s.setPending rest) := by
  rw [step_of_engineMoves (.inr ⟨rest, hp⟩), taken_of_pending hp]

/-- Settles O7. -/
theorem engineWithoutBusyHasNoStep : Obligations.EngineWithoutBusyHasNoStep := by
  unfold Obligations.EngineWithoutBusyHasNoStep
  refine fun s hnotBusy => ⟨fun hp => ?silent, fun rest hp => ?turn⟩
  case silent => rw [step_of_nothing_pending hp, engineStep_of_not_busy hnotBusy]
  case turn =>
    rw [step_of_engineTurn hp, engineStep_of_not_busy (s := s.setPending rest) hnotBusy]
    rfl

/-- Settles O8. -/
theorem stepRunsTheFetchedMicroOperation : Obligations.StepRunsTheFetchedMicroOperation := by
  unfold Obligations.StepRunsTheFetchedMicroOperation
  refine fun s i hbusy hi => ⟨fun hp => ?silent, fun rest hp => ?turn⟩
  case silent => rw [step_of_nothing_pending hp, engineStep_of_busy hbusy hi]
  case turn =>
    rw [step_of_engineTurn hp, engineStep_of_busy (s := s.setPending rest) hbusy hi]
    rfl

/-- While BUSY a word that does not decode is refused (30_encoding.md R87). -/
theorem engineStep_of_illegal {ex : Instr → State → Result} {s : State} (hbusy : s.status = .busy) {e : DecodeError}
    (he : decodeMicro (fetchWord s) = .error e) : engineStep ex s = .refused .illegalMicroOperation := by
  rw [engineStep, if_pos hbusy, he]

/-- Settles O10: the fetch of an illegal word, and the target above the ROM. -/
theorem illegalMicroInstructionsRefused : Obligations.IllegalMicroInstructionsRefused := by
  unfold Obligations.IllegalMicroInstructionsRefused
  refine ⟨fun s e hbusy hturn he => ?fetch, fun s target htarget => ?target⟩
  case fetch => rw [step_of_engineMoves hturn, engineStep_of_illegal (s := taken s) hbusy he]
  case target =>
    have hout : ¬ target ≤ 0x7F#8 := by bv_omega
    rw [exec_brz_eq, exec_decj_eq, atTarget_of_not_le hout, atTarget_of_not_le hout]
    exact ⟨rfl, rfl⟩

/-- Settles O22: DONE leaves the status other than BUSY, and then the engine has no step. -/
theorem doneEndsTheCommand : Obligations.DoneEndsTheCommand := by
  unfold Obligations.DoneEndsTheCommand
  have hexec (s : State) : exec .done s = .next (s.setStatus .done) := rfl
  refine ⟨by decide, fun s => ⟨hexec s, fun t ht hp => ?_⟩⟩
  cases (hexec s).symm.trans ht
  rw [step_of_nothing_pending hp, engineStep_of_not_busy (by simp)]

/-- Settles O36: selector 3 selects no variant, and each of the nineteen needs one. -/
theorem widthDependentMicroOperationsNeedAVariant : Obligations.WidthDependentMicroOperationsNeedAVariant := by
  unfold Obligations.WidthDependentMicroOperationsNeedAVariant
  intro s hvar i hi
  have hnone : Variant.ofSelector s.varr = none := by rw [hvar]; rfl
  have hwidth : ∀ j ∈ [Instr.ldkey, .ldblk, .stblk, .rotf, .rotb, .rcadv, .rcret, .sktake, .skadd, .sksub, .skfold, .wldl, .wldr,
      .shift, .xorsk, .beta, .switch, .xfr, .xfl], widthDependent j = true := by decide
  exact exec_of_no_variant (hwidth i hi) hnone

/-! ### Commands -/

/-- Settles O9: while BUSY the write is ignored, and so is the command it decodes to. -/
theorem stepRunsTheHostCommand : Obligations.StepRunsTheHostCommand := by
  unfold Obligations.StepRunsTheHostCommand
  intro s word rest i hp hi
  by_cases hbusy : s.status = .busy
  · have hexec : exec i (s.setPending rest) = .next (s.setPending rest) := by
      rw [exec_eq_startCommand hi, startCommand_of_busy (s := s.setPending rest) hbusy]
    rw [step_of_pending hp, hostStep_of_busy (s := s.setPending rest) hbusy rfl]
    exact hexec.symm
  · rw [step_of_writeCmd hbusy hp, hostWriteCmd, hi]
    rfl

/-- Settles O14: a write anywhere in the window, and each of the four commands. -/
theorem writesWhileBusyIgnored : Obligations.WritesWhileBusyIgnored := by
  unfold Obligations.WritesWhileBusyIgnored
  refine fun s hbusy => ⟨fun action rest hp hw => ?write, fun var rounds dlen klen => ?command⟩
  case write =>
    rw [step_of_pending hp, hostStep_of_busy (s := s.setPending rest) hbusy hw]
    rfl
  case command =>
    have hignored (op : BitVec 5) (nr : BitVec 8) (entry : BitVec 7) :
        Host.Outcome.next (startCommand s op var rounds dlen klen nr entry) = (.next s : Result) := by
      rw [startCommand_of_busy hbusy]
    exact ⟨hignored _ _ _, hignored _ _ _, hignored _ _ _, hignored _ _ _⟩

/-- The standard round count of a selector is its variant's, and 0 for selector 3 (R84). -/
theorem standardRounds_eq {var : BitVec 2} {std : BitVec 8} (hv : ∀ v, Variant.ofSelector var = some v → std = Config.cfg.nrStd v)
    (h3 : var = 3 → std = 0) : standardRounds Config.cfg var = std := by
  unfold standardRounds
  cases hsel : Variant.ofSelector var with
  | some v => exact (hv v hsel).symm
  | none =>
    have hvar : ∀ sel : BitVec 2, Variant.ofSelector sel = none → sel = 3 := by decide
    exact (h3 (hvar var hsel)).symm

/-- Settles O17: each command is the acceptance of its own word. -/
theorem commandInstructionsAccepted : Obligations.CommandInstructionsAccepted := by
  unfold Obligations.CommandInstructionsAccepted
  intro s var rounds dlen klen std hnotBusy hv h3
  obtain rfl := standardRounds_eq hv h3
  have haccepted (op : BitVec 5) (nr : BitVec 8) (entry : BitVec 7) :=
    congrArg (Host.Outcome.next (φ := Fault) (ρ := Refusal)) (startCommand_of_not_busy hnotBusy op var rounds dlen klen nr entry)
  refine ⟨fun word hw => ?enc, fun word hw => ?dec, fun word hw => ?encs, fun word hw => ?decs⟩
  all_goals cases hw
  case enc => exact haccepted 0 rounds encryptEntry
  case dec => exact haccepted 1 rounds decryptEntry
  case encs => exact haccepted 2 _ encryptEntry
  case decs => exact haccepted 3 _ decryptEntry

/-! ### The host's window -/

/-- Settles O11. -/
theorem unsupportedAccessRefused : Obligations.UnsupportedAccessRefused := by
  unfold Obligations.UnsupportedAccessRefused
  intro s action rest hp hu hw
  rw [step_of_pending hp, hostStep_of_unsupported (s := s.setPending rest) hu hw]

/-- The status word as a number: `STATUS` in bits 1..0, `ERR` in bits 9..8 (10_state.md R45). -/
theorem toNat_statusWord (s : State) : (statusWord s).toNat =
    (match s.status with | .idle => 0 | .busy => 1 | .done => 2 | .error => 3) +
      256 * (match s.err with | .none => 0 | .invalidLength => 1 | .unsupportedVariant => 2) := by
  rw [statusWord]
  cases s.status <;> cases s.err <;> rfl

/-- Settles O12, one kind of read after the other. -/
theorem hostReadsAnswerTheWindow : Obligations.HostReadsAnswerTheWindow := by
  unfold Obligations.HostReadsAnswerTheWindow
  refine fun s rest => ⟨fun hp => ?cmd, fun hp => ⟨statusWord s, ?status, toNat_statusWord s⟩, fun offset hlo hhi hp => ?reserved,
    fun offset hlo hhi hp => ?buffer⟩
  all_goals rw [step_of_pending hp]
  case cmd => rfl
  case status => rfl
  case reserved => exact if_pos ⟨hlo, hhi⟩
  case buffer => exact (if_neg fun h => absurd h.2 (Nat.not_lt.2 hlo)).trans (if_pos ⟨hlo, hhi⟩)

/-- Without BUSY a byte write to `DIN` or `KIN` lands there (R60). -/
theorem hostWriteByte_of_input {s : State} (hnotBusy : s.status ≠ .busy) {offset : Nat} (hlo : dinBase ≤ offset)
    (hhi : offset < doutBase) (value : BitVec 8) :
    hostWriteByte offset value s = .next (s.setBuf (writeBuffer s.buf offset value)) := by
  rw [hostWriteByte, hostWrite_of_not_busy hnotBusy, if_pos ⟨hlo, hhi⟩]

/-- Anywhere else in the window but the registers it is ignored (R60). -/
theorem hostWriteByte_of_ignored {s : State} (hnotBusy : s.status ≠ .busy) {offset : Nat}
    (hout : ¬(dinBase ≤ offset ∧ offset < doutBase)) (hlo : 0x08 ≤ offset) (hhi : offset < windowEnd) (value : BitVec 8) :
    hostWriteByte offset value s = .next s := by
  rw [hostWriteByte, hostWrite_of_not_busy hnotBusy, if_neg hout, if_pos ⟨hlo, hhi⟩]

/-- Settles O13: a byte of `DIN` and `KIN` is written, and the other writes are ignored. -/
theorem hostWritesLandInTheInputBuffers : Obligations.HostWritesLandInTheInputBuffers := by
  unfold Obligations.HostWritesLandInTheInputBuffers
  refine fun s rest hnotBusy => ⟨fun offset value hlo hhi hp => ?input, fun offset value hlo hhi hp => ?reserved,
    fun offset value hlo hhi hp => ?output, fun value hp => ?status⟩
  all_goals rw [step_of_pending hp]
  case input =>
    refine ⟨_, hostWriteByte_of_input (s := s.setPending rest) hnotBusy hlo hhi value, rfl, ?_, fun a ha => ?_⟩
    · simp
    · simp [ha]
  case reserved =>
    exact hostWriteByte_of_ignored (s := s.setPending rest) hnotBusy (fun h => absurd h.1 (Nat.not_le.2 hhi)) hlo
      (hhi.trans (by decide)) value
  case output =>
    exact hostWriteByte_of_ignored (s := s.setPending rest) hnotBusy (fun h => absurd h.2 (Nat.not_lt.2 hlo))
      (le_trans (by decide) hlo) hhi value
  case status => exact hostWrite_of_not_busy (s := s.setPending rest) hnotBusy _ _ _

end Sys2Proof.Machine
end

section
/-! What each agent cannot change (10_state.md R37, R40, R43, R48; 20_memory.md R75), read off the steps of the engine and the
effects of the host, and the refusal of bad arguments (60_exceptions.md R263 to R266). -/

namespace Sys2Proof.Machine

/-! ### The host and the data path -/

/-- `L`, `R`, `W`, `SK`, `KEY`, `RC` and `C` are as before (R37). -/
structure DataPathKept (s t : State) : Prop where
  l : t.l = s.l
  r : t.r = s.r
  w : t.w = s.w
  sk : t.sk = s.sk
  key : t.key = s.key
  rc : t.rc = s.rc
  c : t.c = s.c

section
variable (s : State)

/-- Acceptance and refusal of a command word write no data path, no buffer and no ROM (30_encoding.md R84, R85). -/
theorem startCommand_keeps (op : BitVec 5) (var : BitVec 2) (rounds dlen klen nr : BitVec 8) (entry : BitVec 7) :
    DataPathKept s (startCommand s op var rounds dlen klen nr entry) ∧
      (startCommand s op var rounds dlen klen nr entry).buf = s.buf ∧
      (startCommand s op var rounds dlen klen nr entry).rom = s.rom := by
  unfold startCommand
  split <;> exact ⟨by constructor <;> rfl, rfl, rfl⟩

theorem refuseCommand_keeps (word : BitVec 32) :
    DataPathKept s (refuseCommand s word) ∧ (refuseCommand s word).buf = s.buf ∧ (refuseCommand s word).rom = s.rom := by
  unfold refuseCommand
  split <;> exact ⟨by constructor <;> rfl, rfl, rfl⟩

end

/-- No host access but a reset reaches the data path or `DOUT` (R37, R48, R60). -/
theorem HostEffect.keeps {action : HostAction} {s t : State} (h : HostEffect s action t) (hreset : action ≠ .reset) :
    DataPathKept s t ∧ ∀ offset, doutBase ≤ offset → readBuffer t.buf offset = readBuffer s.buf offset := by
  cases h with
  | ignored | answered => exact ⟨by constructor <;> rfl, fun _ _ => rfl⟩
  | byteWritten _ _ hhi =>
    refine ⟨by constructor <;> rfl, fun offset ho => ?_⟩
    rw [State.setBuf_buf, readBuffer_writeBuffer, if_neg (hhi.trans_le ho).ne']
  | accepted _ _ =>
    obtain ⟨hpath, hbuf, -⟩ := startCommand_keeps s ..
    exact ⟨hpath, fun _ _ => by rw [hbuf]⟩
  | refused _ =>
    obtain ⟨hpath, hbuf, -⟩ := refuseCommand_keeps s _
    exact ⟨hpath, fun _ _ => by rw [hbuf]⟩
  | reset => exact absurd rfl hreset

/-- No host access writes the ROM, not even a reset (R75, 70_reset_and_hazards.md R290). -/
theorem HostEffect.rom_eq {action : HostAction} {s t : State} (h : HostEffect s action t) : t.rom = s.rom := by
  cases h with
  | ignored | answered | byteWritten | reset => rfl
  | accepted _ _ => exact (startCommand_keeps s ..).2.2
  | refused _ => exact (refuseCommand_keeps s _).2.2

/-- No step of either agent writes the ROM (R75). -/
theorem Moves.rom_eq {s t : State} (h : Moves s t) : t.rom = s.rom := by
  cases h with
  | idle => rfl
  | engine _ _ _ h => exact h.latchesKept.rom
  | host _ _ h => exact h.rom_eq

/-- A host access is not the engine's turn. -/
theorem EngineMoves.not_host {s : State} (h : EngineMoves s) {action : HostAction} {rest : List HostAction}
    (hp : s.pending = action :: rest) : action = .engineTurn := by
  obtain hnil | ⟨rest', hturn⟩ := h
  · cases hnil.symm.trans hp
  · cases hturn.symm.trans hp
    rfl

/-- Settles O15. -/
theorem hostCannotReachTheDataPath : Obligations.HostCannotReachTheDataPath := by
  unfold Obligations.HostCannotReachTheDataPath
  intro s t action rest hp hturn hreset hstep
  have hrom := (moves_of_step hstep).rom_eq
  cases moves_of_step hstep with
  | idle hengine | engine hengine => exact absurd (hengine.not_host hp) hturn
  | host hp' _ h =>
    cases hp'.symm.trans hp
    obtain ⟨⟨hl, hr, hw, hsk, hkey, hrc, hc⟩, hdout⟩ := h.keeps hreset
    exact ⟨hl, hr, hw, hsk, hkey, hrc, hc, hrom, hdout⟩

/-! ### The engine and the host's side -/

/-- A fetched word is the word of what it decodes to (30_encoding.md R89). -/
theorem fetchWord_of_decode {word w : BitVec 16} {i : Instr} (hi : decodeMicro word = .ok i) (hw : encode i = .micro w) :
    word = w := by
  cases (encode_of_decodeMicro hi).1.symm.trans hw
  rfl

section
variable {i : Instr} {s t : State} (h : MicroStep s i t)
include h

/-- Only STBLK writes the buffers (R48). -/
theorem MicroStep.buf_eq (hi : i ≠ .stblk) : t.buf = s.buf := by
  cases h with
  | data _ _ hu => exact hu.buf_eq hi
  | _ => rfl

/-- No micro-operation writes below `DOUT` (R48). -/
theorem MicroStep.readBuffer_eq {offset : Nat} (ho : offset < doutBase) : readBuffer t.buf offset = readBuffer s.buf offset := by
  cases h with
  | data _ _ hu =>
    cases hu with
    | store _ f =>
      rw [State.advance_buf, State.setBuf_buf, readBuffer_writeBufferRun, if_neg fun hin => absurd hin.1 (Nat.not_le.2 ho)]
    | _ => simp
  | _ => rfl

/-- CHK and DONE are the micro-operations that change the status (R43). -/
theorem MicroStep.status_cases :
    t.status = s.status ∨ (i = .done ∧ t.status = .done) ∨ (i = .chk ∧ t.status = .error) := by
  cases h with
  | chkRaises => exact .inr (.inr ⟨rfl, rfl⟩)
  | done => exact .inr (.inl ⟨rfl, rfl⟩)
  | data _ _ hu => exact .inl hu.status_eq
  | _ => exact .inl rfl

end

/-- Settles O59. -/
theorem engineWritesOnlyDout : Obligations.EngineWritesOnlyDout := by
  unfold Obligations.EngineWritesOnlyDout
  refine ⟨fun s t hturn hstep => ?engine, fun s t hstep => (moves_of_step hstep).rom_eq⟩
  case engine =>
    cases moves_of_step hstep with
    | idle => exact ⟨rfl, rfl, rfl, rfl, rfl, rfl, fun _ _ => rfl, fun _ _ => rfl⟩
    | @engine i t _ _ hi h =>
      obtain ⟨hcmd, hopr, hvarr, hnrr, hdlenr, hklenr, -⟩ := h.latchesKept
      refine ⟨hcmd, hopr, hvarr, hnrr, hdlenr, hklenr, fun _ ho => h.readBuffer_eq ho, fun hword => ?_⟩
      refine buffersAgree_of_eq (h.buf_eq fun hstblk => ?_)
      rw [hstblk] at hi
      exact hword (fetchWord_of_decode hi rfl)
    | host hp hhost => exact absurd (EngineMoves.not_host hturn hp) hhost

/-- A host access but a reset changes the status only by a word written to `CMD` while not BUSY (R43). -/
theorem HostEffect.status_cases {action : HostAction} {s t : State} (h : HostEffect s action t) (hreset : action ≠ .reset) :
    t.status = s.status ∨
      (s.status ≠ .busy ∧ ∃ word, action = .writeWord 0x00 word ∧ (t.status = .busy ∨ t.status = .error)) := by
  cases h with
  | ignored | answered | byteWritten => exact .inl rfl
  | accepted hnotBusy _ =>
    rw [startCommand_of_not_busy hnotBusy]
    exact .inr ⟨hnotBusy, _, rfl, .inl rfl⟩
  | refused hnotBusy =>
    rw [refuseCommand_of_not_busy hnotBusy]
    exact .inr ⟨hnotBusy, _, rfl, .inr rfl⟩
  | reset => exact absurd rfl hreset

/-- Settles O60: the engine moves while BUSY, by CHK and DONE; the host, without BUSY, by a word to `CMD`. -/
theorem statusChangesOnlyAsListed : Obligations.StatusChangesOnlyAsListed := by
  unfold Obligations.StatusChangesOnlyAsListed
  intro s t hstep hreset
  cases moves_of_step hstep with
  | idle _ hnotBusy => exact ⟨fun hb => absurd hb hnotBusy, fun _ => .inl rfl⟩
  | @engine i t _ hbusy hi h =>
    refine ⟨fun _ => ?_, fun hn => absurd hbusy hn⟩
    obtain hsame | ⟨rfl, hdone⟩ | ⟨rfl, herror⟩ := h.status_cases
    · exact .inl (hsame.trans hbusy)
    · exact .inr (.inl ⟨hdone, fetchWord_of_decode hi rfl⟩)
    · exact .inr (.inr ⟨herror, fetchWord_of_decode hi rfl⟩)
  | @host action rest t hp _ h =>
    obtain hsame | ⟨hnotBusy, word, rfl, hchanged⟩ := h.status_cases fun heq => hreset rest (heq ▸ hp)
    · exact ⟨fun hb => .inl (hsame.trans hb), fun _ => .inl hsame⟩
    · exact ⟨fun hb => absurd hb hnotBusy, fun _ => .inr ⟨word, rest, hp, hchanged⟩⟩

/-! ### Bad arguments -/

/-- Each of the four command instructions is the acceptance of its operation, with its program's entry (R84). -/
theorem exec_command_eq {i : Instr} {var : BitVec 2} {rounds dlen klen : BitVec 8}
    (hi : i ∈ [Instr.enc var rounds dlen klen, .dec var rounds dlen klen, .encs var rounds dlen klen, .decs var rounds dlen klen])
    (s : State) : ∃ op nr, exec i s = .next (startCommand s op var rounds dlen klen nr
      (if (decide (op = 0) || decide (op = 2)) = true then encryptEntry else decryptEntry)) := by
  simp only [List.mem_cons, List.not_mem_nil, or_false] at hi
  obtain rfl | rfl | rfl | rfl := hi
  · exact ⟨0, _, rfl⟩
  · exact ⟨1, _, rfl⟩
  · exact ⟨2, _, rfl⟩
  · exact ⟨3, _, rfl⟩

/-- A started command whose arguments CHK refuses takes its one step, and that step is the whole command (R214, R240). -/
theorem refused_by_first_step {t : State} (h : Started t) {e : ErrorCode} (hchk : exec .chk t = .next (t.raiseError e))
    (hbad : ∀ v, Variant.ofSelector t.varr = some v → lengthsMatch v t.dlenr t.klenr = false) :
    step t = .next { t with status := .error, err := e } ∧ step t = .next (wholeCommand Config.cfg t) ∧ commandSteps t = 1 := by
  rw [step_of_started h]
  exact ⟨hchk, wholeCommand_of_refused h.busy hbad, commandSteps_of_refused h.busy hbad⟩

/-- Settles O52: the first step is CHK, which judges the latched arguments. -/
theorem badArgumentsRefusedByTheFirstStep : Obligations.BadArgumentsRefusedByTheFirstStep := by
  unfold Obligations.BadArgumentsRefusedByTheFirstStep
  intro s t var rounds dlen klen i hnotBusy hrom hsilent hi hexec
  obtain ⟨op, nr, hstart⟩ := exec_command_eq hi s
  have ht := Host.Outcome.next.inj (hexec.symm.trans hstart)
  obtain ⟨⟨hl, hr, hw, hsk, hkey, hrc, hc⟩, hbuf, -⟩ := ht ▸ startCommand_keeps s ..
  rw [startCommand_of_not_busy hnotBusy] at ht
  have hstarted : Started t := by rw [ht]; exact ⟨rfl, hrom, hsilent, rfl, rfl⟩
  have hvar : t.varr = var := by rw [ht]
  have hdlen : t.dlenr = dlen := by rw [ht]
  have hklen : t.klenr = klen := by rw [ht]
  refine ⟨fun h3 => ?noVariant, fun v hv hlengths => ?badLength, hl, hr, hw, hsk, hkey, hrc, hc, buffersAgree_of_eq hbuf⟩
  case noVariant =>
    have hnone : Variant.ofSelector t.varr = none := by rw [hvar, h3]; rfl
    exact refused_by_first_step hstarted (exec_chk_of_none hnone) fun v hv => by cases hnone.symm.trans hv
  case badLength =>
    rw [← hvar] at hv
    have hbad : ¬(t.dlenr.toNat = v.bb ∧ t.klenr.toNat = v.kb) := by rw [hdlen, hklen]; tauto
    refine refused_by_first_step hstarted ((exec_chk_of_some hv).trans (if_neg hbad)) fun v' hv' => ?_
    cases hv.symm.trans hv'
    rwa [← Bool.not_eq_true, lengthsMatch_iff]

end Sys2Proof.Machine
end

section
/-! The micro-operations of the data path (44_datapath.md R182 to R191; 40_round_constant.md R104 to R107; 42_beta.md R145;
43_linear_layers.md R162, R166). Each writes one component's value at the variant's width into its register: the frame is that of
the write, and the value is said of one byte, one bit or one number of the component. -/

namespace Sys2Proof.Machine

/-! ### The frames of a write -/

section
variable {i : Instr} {s : State} {v : Variant} {x : Lanes v.lw}

/-- A micro-operation that writes one register at the lane width and advances. -/
theorem exec_left_write (h : exec i s = .next (State.advance (s.setL (putLanes v s.l x)))) :
    ∃ t, exec i s = .next t ∧ t = { s with l := t.l, upc := s.upc + 1 } ∧ t.l = putLanes v s.l x ∧
      highBitsKept v.lw s.l t.l ∧ buffersAgree s t :=
  ⟨_, h, State.setL_advance_frame s _, rfl, putLanes_ushiftRight v s.l x, fun _ => rfl⟩

theorem exec_right_write (h : exec i s = .next (State.advance (s.setR (putLanes v s.r x)))) :
    ∃ t, exec i s = .next t ∧ t = { s with r := t.r, upc := s.upc + 1 } ∧ t.r = putLanes v s.r x ∧
      highBitsKept v.lw s.r t.r ∧ buffersAgree s t :=
  ⟨_, h, State.setR_advance_frame s _, rfl, putLanes_ushiftRight v s.r x, fun _ => rfl⟩

theorem exec_work_write (h : exec i s = .next (State.advance (s.setW (putLanes v s.w x)))) :
    ∃ t, exec i s = .next t ∧ t = { s with w := t.w, upc := s.upc + 1 } ∧ t.w = putLanes v s.w x ∧
      highBitsKept v.lw s.w t.w ∧ buffersAgree s t :=
  ⟨_, h, State.setW_advance_frame s _, rfl, putLanes_ushiftRight v s.w x, fun _ => rfl⟩

theorem exec_subkey_write (h : exec i s = .next (State.advance (s.setSk (putLanes v s.sk x)))) :
    ∃ t, exec i s = .next t ∧ t = { s with sk := t.sk, upc := s.upc + 1 } ∧ t.sk = putLanes v s.sk x ∧
      highBitsKept v.lw s.sk t.sk ∧ buffersAgree s t :=
  ⟨_, h, State.setSk_advance_frame s _, rfl, putLanes_ushiftRight v s.sk x, fun _ => rfl⟩

/-- Both halves. -/
theorem exec_halves_write {y : Lanes v.lw}
    (h : exec i s = .next (State.advance ((s.setL (putLanes v s.l x)).setR (putLanes v s.r y)))) :
    ∃ t, exec i s = .next t ∧ t = { s with l := t.l, r := t.r, upc := s.upc + 1 } ∧ t.l = putLanes v s.l x ∧
      t.r = putLanes v s.r y ∧ buffersAgree s t :=
  ⟨_, h, State.setL_setR_advance_frame s _ _, rfl, rfl, fun _ => rfl⟩

/-- The key and the accumulator. -/
theorem exec_key_accumulator_write {reg : Vector Byte 32} {acc : BitVec 128}
    (h : exec i s = .next (State.advance ((s.setKey reg).setRc acc))) :
    ∃ t, exec i s = .next t ∧ t = { s with key := t.key, rc := t.rc, upc := s.upc + 1 } ∧ t.key = reg ∧ t.rc = acc ∧
      buffersAgree s t :=
  ⟨_, h, State.setKey_setRc_advance_frame s _ _, rfl, rfl, fun _ => rfl⟩

/-- The accumulator at its own width. -/
theorem exec_accumulator_write {y : BitVec v.cw} (h : exec i s = .next (State.advance (s.setRc (putRc v s.rc y)))) :
    ∃ t, exec i s = .next t ∧ t = { s with rc := t.rc, upc := s.upc + 1 } ∧ rcAt v t.rc = y ∧
      t.rc >>> v.cw = s.rc >>> v.cw ∧ buffersAgree s t :=
  ⟨_, h, State.setRc_advance_frame s _, rcAt_putRc v s.rc y, putRc_ushiftRight v s.rc y, fun _ => rfl⟩

end

/-! ### Loads -/

/-- Byte `k` of lane `j` of lanes taken from bytes (20_memory.md R63). -/
theorem byteOf_lanesFrom {lb : Nat} (f : Nat → Byte) (j : Fin 4) {k : Nat} (hk : k < lb) :
    byteOf (lanesFrom lb f)[j] k = f (j.val * lb + k) := by
  rw [Fin.getElem_fin, getElem_lanesFrom, byteOf_leWord hk]

/-- Settles O23: the key's bytes are KIN's, and the accumulator is zero at its width. -/
theorem ldkeyLoadsTheKey : Obligations.LdkeyLoadsTheKey := by
  unfold Obligations.LdkeyLoadsTheKey
  refine ⟨by decide, fun s v h => ?_⟩
  obtain ⟨t, hexec, hframe, hkey, hrc, hbuf⟩ := exec_key_accumulator_write (exec_ldkey h)
  refine ⟨t, hexec, hframe, fun i hi => ?loaded, fun i hi => ?kept, ?zero, ?high, hbuf⟩
  case loaded => rw [hkey, byteAt_putKey_of_lt v _ _ hi, byteAt_ofFn _ hi, kinByte]
  case kept => rw [hkey, byteAt_putKey_of_ge v _ _ hi]
  case zero => exact hrc ▸ rcAt_putRc v s.rc 0
  case high => exact hrc ▸ putRc_ushiftRight v s.rc 0

/-- Settles O24: the bytes of the halves are DIN's. -/
theorem ldblkLoadsTheBlock : Obligations.LdblkLoadsTheBlock := by
  unfold Obligations.LdblkLoadsTheBlock
  refine ⟨by decide, fun s v h => ?_⟩
  obtain ⟨t, hexec, hframe, hl, hr, hbuf⟩ := exec_halves_write (exec_ldblk h)
  refine ⟨t, hexec, hframe, fun j k hk => ⟨?left, ?right⟩, ?highLeft, ?highRight, hbuf⟩
  case left => rw [hl, byteOf_putLanes v _ _ j hk, leftHalf, byteOf_lanesFrom _ j hk, dinByte, Nat.add_assoc]
  case right => rw [hr, byteOf_putLanes v _ _ j hk, rightHalf, byteOf_lanesFrom _ j hk, dinByte, Nat.add_assoc, Nat.add_assoc]
  case highLeft => exact hl ▸ putLanes_ushiftRight v s.l _
  case highRight => exact hr ▸ putLanes_ushiftRight v s.r _

/-! ### The key schedule -/

/-- Settles O28: R101 and R102 as numbers. -/
theorem rcadvAndRcretMoveTheAccumulator : Obligations.RcadvAndRcretMoveTheAccumulator := by
  unfold Obligations.RcadvAndRcretMoveTheAccumulator
  refine ⟨by decide, by decide, fun s v h => ⟨?advance, ?retreat⟩⟩
  case advance =>
    obtain ⟨t, hexec, hframe, hrc, hhigh, hbuf⟩ := exec_accumulator_write (exec_rcadv h)
    exact ⟨t, hexec, hframe, (congrArg BitVec.toNat hrc).trans (BitVec.toNat_add _ _), hhigh, hbuf⟩
  case retreat =>
    obtain ⟨t, hexec, hframe, hrc, hhigh, hbuf⟩ := exec_accumulator_write (exec_rcret h)
    refine ⟨t, hexec, hframe, (congrArg BitVec.toNat hrc).trans ?_, hhigh, hbuf⟩
    rw [ret, BitVec.toNat_sub, Nat.add_comm]
    rfl

/-- A sum over physical lanes is the number of `INT` of the lanes (00_scope.md R22). -/
theorem laneSum_eq_toNat_intOf (v : Variant) (reg : Lanes 32) : laneSum v.lw reg = (intOf (lanesAt v reg)).toNat := by
  rw [laneSum_eq, intOf_toNat]

/-- Settles O29: `INT` of the new lanes is the wide sum or difference, which `LANES` only cuts up (R106, R107). -/
theorem skaddAndSksubAreOneWideAddition : Obligations.SkaddAndSksubAreOneWideAddition := by
  unfold Obligations.SkaddAndSksubAreOneWideAddition
  refine ⟨by decide, by decide, fun s v h => ⟨?add, ?sub⟩⟩
  case add =>
    obtain ⟨t, hexec, hframe, hsk, hhigh, hbuf⟩ := exec_subkey_write (exec_skadd h)
    refine ⟨t, hexec, hframe, ?_, hhigh, hbuf⟩
    rw [laneSum_eq_toNat_intOf, laneSum_eq_toNat_intOf, hsk, lanesAt_putLanes, addConstant, intOf_lanesOf, BitVec.toNat_add]
    rfl
  case sub =>
    obtain ⟨t, hexec, hframe, hsk, hhigh, hbuf⟩ := exec_subkey_write (exec_sksub h)
    refine ⟨t, hexec, hframe, ?_, hhigh, hbuf⟩
    rw [laneSum_eq_toNat_intOf, laneSum_eq_toNat_intOf, hsk, lanesAt_putLanes, subConstant, intOf_lanesOf, BitVec.toNat_sub,
      Nat.add_comm]
    rfl

/-- Settles O30: Take's lanes and Fold's bytes, by the index R63 gives to byte `k` of lane `j`. -/
theorem sktakeAndSkfoldCopyTheFirstKeyBytes : Obligations.SktakeAndSkfoldCopyTheFirstKeyBytes := by
  unfold Obligations.SktakeAndSkfoldCopyTheFirstKeyBytes
  refine ⟨by decide, by decide, fun s v h => ⟨?take, ?fold⟩⟩
  case take =>
    obtain ⟨t, hexec, hframe, hsk, hhigh, hbuf⟩ := exec_subkey_write (exec_sktake h)
    refine ⟨t, hexec, hframe, fun j k hk => ?_, hhigh, hbuf⟩
    have hindex := (lane_index_lt v j hk).trans_le (hb_le_kb v)
    rw [hsk, byteOf_putLanes v _ _ j hk, take, byteOf_lanesFrom _ j hk, byteAt_keyAt v _ hindex]
  case fold =>
    obtain ⟨t, hexec, hframe, hkey, hbuf⟩ := exec_key_write_frame (exec_skfold h)
    refine ⟨t, hexec, hframe, fun j k hk => ?_, fun i hi => ?_, hbuf⟩
    · have hhalf := lane_index_lt v j hk
      have hindex := hhalf.trans_le (hb_le_kb v)
      rw [hkey, byteAt_putKey_of_lt v _ _ hindex, byteAt_fold v _ _ hindex, if_pos hhalf, laneByte_index _ j hk,
        byteOf_lanesAt v j hk]
    · rw [hkey]
      by_cases hin : i < v.kb
      · rw [byteAt_putKey_of_lt v _ _ hin, byteAt_fold v _ _ hin, if_neg (Nat.not_lt.2 hi), byteAt_keyAt v _ hin]
      · exact byteAt_putKey_of_ge v _ _ (Nat.le_of_not_lt hin)

/-! ### Copies and xors -/

/-- A lane read at the variant's width (R35). -/
theorem getElem_lanesAt_fin (v : Variant) (reg : Lanes 32) (j : Fin 4) : (lanesAt v reg)[j] = low v.lw reg[j] :=
  getElem_lanesAt v reg j.isLt

/-- Settles O31. -/
theorem wldlAndWldrCopyAHalf : Obligations.WldlAndWldrCopyAHalf := by
  unfold Obligations.WldlAndWldrCopyAHalf
  refine ⟨by decide, by decide, fun s v h => ⟨?left, ?right⟩⟩
  case left =>
    obtain ⟨t, hexec, hframe, hw, hhigh, hbuf⟩ := exec_work_write (exec_wldl h)
    exact ⟨t, hexec, hframe, fun j => by rw [hw, low_putLanes, getElem_lanesAt_fin], hhigh, hbuf⟩
  case right =>
    obtain ⟨t, hexec, hframe, hw, hhigh, hbuf⟩ := exec_work_write (exec_wldr h)
    exact ⟨t, hexec, hframe, fun j => by rw [hw, low_putLanes, getElem_lanesAt_fin], hhigh, hbuf⟩

/-- Bit `p` of a lane of an xor of two registers, after its write at the lane width (R22, R35). -/
theorem getLsbD_putLanes_xorLanes (v : Variant) (reg a b : Lanes 32) (j : Fin 4) {p : Nat} (hp : p < v.lw) :
    (putLanes v reg (xorLanes (lanesAt v a) (lanesAt v b)))[j].getLsbD p = (a[j].getLsbD p ^^ b[j].getLsbD p) := by
  rw [getLsbD_putLanes v _ _ j hp, ← getLsbD_lanesAt v a j hp, ← getLsbD_lanesAt v b j hp, ← BitVec.getLsbD_xor]
  exact congrArg (BitVec.getLsbD · p) (getElem_xorLanes _ _ j.isLt)

/-- Settles O32: three xors, each into its own register. -/
theorem xorskXfrXflXorLaneByLane : Obligations.XorskXfrXflXorLaneByLane := by
  unfold Obligations.XorskXfrXflXorLaneByLane
  refine ⟨by decide, by decide, by decide, fun s v h => ⟨?xorsk, ?xfr, ?xfl⟩⟩
  case xorsk =>
    obtain ⟨t, hexec, hframe, hw, hhigh, hbuf⟩ := exec_work_write (exec_xorsk h)
    exact ⟨t, hexec, hframe, fun j p hp => by rw [hw, getLsbD_putLanes_xorLanes v _ _ _ j hp], hhigh, hbuf⟩
  case xfr =>
    obtain ⟨t, hexec, hframe, hr, hhigh, hbuf⟩ := exec_right_write (exec_xfr h)
    exact ⟨t, hexec, hframe, fun j p hp => by rw [hr, getLsbD_putLanes_xorLanes v _ _ _ j hp], hhigh, hbuf⟩
  case xfl =>
    obtain ⟨t, hexec, hframe, hl, hhigh, hbuf⟩ := exec_left_write (exec_xfl h)
    exact ⟨t, hexec, hframe, fun j p hp => by rw [hl, getLsbD_putLanes_xorLanes v _ _ _ j hp], hhigh, hbuf⟩

/-! ### The layers of the round function -/

/-- A rotation left takes bit `p` to bit `p + s` modulo the width (00_scope.md R18). -/
theorem getLsbD_rol_add {w : Nat} (x : BitVec w) {s p : Nat} (hs : s < w) (hp : p < w) :
    (rol x s).getLsbD ((p + s) % w) = x.getLsbD p := by
  have hback : p + s + (w - s) = p + w := by omega
  rw [getLsbD_rol x hs (Nat.mod_lt _ (Nat.zero_lt_of_lt hp)), Nat.mod_add_mod, hback, Nat.add_mod_right, Nat.mod_eq_of_lt hp]

/-- Lane `j` of ShiftLanes (43_linear_layers.md R160). -/
theorem getElem_shiftLanes (c : Cfg) (v : Variant) (x : Lanes v.lw) (j : Fin 4) :
    (shiftLanes c v x)[j] = rol x[j] (c.shift v j).val := by simp [shiftLanes]

/-- Settles O33. -/
theorem shiftRotatesEachLane : Obligations.ShiftRotatesEachLane := by
  unfold Obligations.ShiftRotatesEachLane
  refine ⟨by decide, fun s v h => ?_⟩
  obtain ⟨t, hexec, hframe, hw, hhigh, hbuf⟩ := exec_work_write (exec_shift h)
  refine ⟨t, hexec, hframe, fun j p hp => ?_, hhigh, hbuf⟩
  rw [hw, getLsbD_putLanes v _ _ j (Nat.mod_lt _ (Nat.zero_lt_of_lt hp)), getElem_shiftLanes,
    getLsbD_rol_add _ (Config.cfg.shift v j).isLt hp, getLsbD_lanesAt v _ j hp]

/-- A nibble as a number is the number of the nibble (42_beta.md R142). -/
theorem toNat_nibbleOfBits : ∀ b0 b1 b2 b3 : Bool, (nibbleOfBits b0 b1 b2 b3).toNat = nibbleValue b0 b1 b2 b3 := by decide

/-- The S-box's value as a number is the printed one (R140). -/
theorem toNat_sbox : ∀ x : BitVec 4, (sbox x).toNat = printedSbox.getD x.toNat 0 := by decide

/-- The number of the nibble at `p`, with lane 0 carrying its low bit, and without (R142). -/
theorem toNat_nibbleAt_lsb {w : Nat} (x : Lanes w) (p : Nat) : (nibbleAt true x p).toNat =
    nibbleValue (x[0].getLsbD p) (x[1].getLsbD p) (x[2].getLsbD p) (x[3].getLsbD p) := by
  rw [nibbleAt_lsb, toNat_nibbleOfBits]

theorem toNat_nibbleAt_msb {w : Nat} (x : Lanes w) (p : Nat) : (nibbleAt false x p).toNat =
    nibbleValue (x[3].getLsbD p) (x[2].getLsbD p) (x[1].getLsbD p) (x[0].getLsbD p) := by
  rw [nibbleAt_msb, toNat_nibbleAt_lsb]
  simp only [Vector.getElem_reverse, Nat.reduceSub]

/-- The nibble at `p` of a register after Beta is written to it at the lane width is the S-box's value (R142, R145). -/
theorem nibbleAt_putLanes_beta (v : Variant) (o : Bool) (reg : Lanes 32) {p : Nat} (hp : p < v.lw) :
    nibbleAt o (putLanes v reg (beta o (lanesAt v reg))) p = sbox (nibbleAt o reg p) := by
  have hold : nibbleAt o (lanesAt v reg) p = nibbleAt o reg p :=
    congrArg BitVec.ofFnLE (funext fun b => getLsbD_lanesAt v reg (nibbleLane o b) hp)
  rw [← hold, ← nibbleAt_mapNibbles o _ sbox hp]
  exact congrArg BitVec.ofFnLE (funext fun b => getLsbD_putLanes v reg _ (nibbleLane o b) hp)

/-- Settles O34: the S-box's value at every nibble, as a number, in either nibble order. -/
theorem betaSubstitutesEveryNibble : Obligations.BetaSubstitutesEveryNibble := by
  unfold Obligations.BetaSubstitutesEveryNibble
  refine ⟨by decide, fun s v h => ?_⟩
  obtain ⟨t, hexec, hframe, hw, hhigh, hbuf⟩ := exec_work_write (exec_beta h)
  refine ⟨t, hexec, hframe, fun p hp => ?_, hhigh, hbuf⟩
  have hnibble := congrArg BitVec.toNat (nibbleAt_putLanes_beta v Config.cfg.nibLsbLane0 s.w hp)
  rw [← hw, toNat_sbox] at hnibble
  split
  case isTrue hlsb => rwa [hlsb, toNat_nibbleAt_lsb, toNat_nibbleAt_lsb] at hnibble
  case isFalse hmsb => rwa [Bool.eq_false_iff.2 hmsb, toNat_nibbleAt_msb, toNat_nibbleAt_msb] at hnibble

/-- Bit `p` of lane `j` of the affine map of the lanes (43_linear_layers.md R163). -/
theorem getLsbD_mixLanes {w : Nat} (m : Matrix (Fin 4) (Fin 4) (ZMod 2)) (k x : Lanes w) (j : Fin 4) (p : Nat) :
    (mixLanes m k x)[j].getLsbD p =
      (((((k[j].getLsbD p ^^ (decide (m j 0 = 1) && x[0].getLsbD p)) ^^ (decide (m j 1 = 1) && x[1].getLsbD p)) ^^
        (decide (m j 2 = 1) && x[2].getLsbD p)) ^^ (decide (m j 3 = 1) && x[3].getLsbD p))) := by
  simp [mixLanes, getLsbD_pick]

/-- A bit below the width of a narrowed register (R35). -/
theorem getLsbD_low {N w p : Nat} (x : BitVec N) (hp : p < w) : (low w x).getLsbD p = x.getLsbD p := by
  simp [low, hp]

/-- Settles O35. -/
theorem switchMixesTheLanes : Obligations.SwitchMixesTheLanes := by
  unfold Obligations.SwitchMixesTheLanes
  refine ⟨by decide, fun s v h => ?_⟩
  obtain ⟨t, hexec, hframe, hw, hhigh, hbuf⟩ := exec_work_write (exec_switch h)
  refine ⟨t, hexec, hframe, fun j p hp => ?_, hhigh, hbuf⟩
  rw [hw, getLsbD_putLanes v _ _ j hp, switchLanes, getLsbD_mixLanes]
  simp only [getElem_lanesAt, getLsbD_low _ hp]

end Sys2Proof.Machine
end

section
/-! The linear layers (43_linear_layers.md R161, R165). ShiftLanes rotates each lane, and a rotation is undone by the rotation that
completes a turn. SwitchLanes works at each bit position on its own: there four lanes are a vector over GF(2) and the layer is an
affine map of it, with an invertible matrix. -/

namespace Sys2Proof.Machine

/-! ### ShiftLanes -/

/-- A rotation left is undone by completing the turn (00_scope.md R18). -/
theorem rol_rol_cancel {w s t : Nat} (x : BitVec w) (hs : s < w) (ht : t < w) (hturn : (s + t) % w = 0) : rol (rol x s) t = x := by
  refine BitVec.eq_of_getLsbD_eq fun p hp => ?_
  have hstep : (p + (w - s + (w - t))) % w = p := by
    have hsum : s + t = 0 ∨ s + t = w := by
      obtain ⟨q, hq⟩ := Nat.dvd_of_mod_eq_zero hturn
      have hq2 : q < 2 := Nat.lt_of_mul_lt_mul_left (a := w) (by omega)
      interval_cases q <;> omega
    obtain hzero | hfull := hsum
    · rw [show p + (w - s + (w - t)) = p + w + w by omega, Nat.add_mod_right, Nat.add_mod_right, Nat.mod_eq_of_lt hp]
    · rw [show p + (w - s + (w - t)) = p + w by omega, Nat.add_mod_right, Nat.mod_eq_of_lt hp]
  rw [getLsbD_rol _ ht hp, getLsbD_rol x hs (Nat.mod_lt _ (Nat.zero_lt_of_lt hp)), Nat.mod_add_mod, Nat.add_assoc,
    Nat.add_comm (w - t), hstep]

/-- The rotation of each lane that completes ShiftLanes' turn. -/
def unshiftLanes (c : Cfg) (v : Variant) (x : Lanes v.lw) : Lanes v.lw :=
  Vector.ofFn fun j => rol x[j] ((v.lw - (c.shift v j).val) % v.lw)

theorem getElem_unshiftLanes (c : Cfg) (v : Variant) (x : Lanes v.lw) (j : Fin 4) :
    (unshiftLanes c v x)[j] = rol x[j] ((v.lw - (c.shift v j).val) % v.lw) := by simp [unshiftLanes]

/-- Two lane vectors with equal lanes are equal. -/
theorem lanes_ext_lane {w : Nat} {x y : Lanes w} (h : ∀ j : Fin 4, x[j] = y[j]) : x = y :=
  Vector.ext fun j hj => h ⟨j, hj⟩

section
variable (c : Cfg) (v : Variant)

/-- The two rotations of a lane complete its turn, in either order. -/
theorem shift_turn (j : Fin 4) : ((c.shift v j).val + (v.lw - (c.shift v j).val) % v.lw) % v.lw = 0 := by
  rw [Nat.add_mod_mod, Nat.add_sub_cancel' (c.shift v j).isLt.le, Nat.mod_self]

theorem unshiftLanes_shiftLanes : Function.LeftInverse (unshiftLanes c v) (shiftLanes c v) := fun x =>
  lanes_ext_lane fun j => by
    have hs := (c.shift v j).isLt
    rw [getElem_unshiftLanes, getElem_shiftLanes,
      rol_rol_cancel _ hs (Nat.mod_lt _ (Nat.zero_lt_of_lt hs)) (shift_turn c v j)]

theorem shiftLanes_unshiftLanes : Function.RightInverse (unshiftLanes c v) (shiftLanes c v) := fun x =>
  lanes_ext_lane fun j => by
    have hs := (c.shift v j).isLt
    rw [getElem_shiftLanes, getElem_unshiftLanes,
      rol_rol_cancel _ (Nat.mod_lt _ (Nat.zero_lt_of_lt hs)) hs (Nat.add_comm .. ▸ shift_turn c v j)]

/-- A rotation of an xor is the xor of the rotations. -/
theorem rol_xor {w : Nat} (x y : BitVec w) {s : Nat} (hs : s < w) : rol (x ^^^ y) s = rol x s ^^^ rol y s := by
  refine BitVec.eq_of_getLsbD_eq fun p hp => ?_
  rw [BitVec.getLsbD_xor, getLsbD_rol _ hs hp, getLsbD_rol _ hs hp, getLsbD_rol _ hs hp, BitVec.getLsbD_xor]

theorem getElem_xorLanes_fin {w : Nat} (x y : Lanes w) (j : Fin 4) :
    (xorLanes x y)[j] = x[j] ^^^ y[j] := getElem_xorLanes x y j.isLt

/-- ShiftLanes is linear over xor (R161). -/
theorem shiftLanes_xorLanes (x y : Lanes v.lw) :
    shiftLanes c v (xorLanes x y) = xorLanes (shiftLanes c v x) (shiftLanes c v y) :=
  lanes_ext_lane fun j => by
    rw [getElem_shiftLanes, getElem_xorLanes_fin, getElem_xorLanes_fin, getElem_shiftLanes, getElem_shiftLanes,
      rol_xor _ _ (c.shift v j).isLt]

end

/-! ### SwitchLanes over GF(2) -/

/-- A bit as an element of GF(2). -/
def gf2 (b : Bool) : ZMod 2 := if b then 1 else 0

theorem gf2_injective : Function.Injective gf2 := by unfold Function.Injective; decide

theorem gf2_xor : ∀ a b : Bool, gf2 (a ^^ b) = gf2 a + gf2 b := by decide

theorem gf2_pick : ∀ (m : ZMod 2) (b : Bool), gf2 (decide (m = 1) && b) = m * gf2 b := by decide

/-- The four lanes' bits at one position, as a vector over GF(2). -/
def laneBits {w : Nat} (x : Lanes w) (p : Nat) : Fin 4 → ZMod 2 := fun j => gf2 (x[j].getLsbD p)

section
variable {w : Nat}

theorem lanes_ext_laneBits {x y : Lanes w} (h : ∀ p < w, laneBits x p = laneBits y p) : x = y :=
  lanes_ext fun j p hp => gf2_injective (congrFun (h p hp) j)

theorem laneBits_xorLanes (x y : Lanes w) (p : Nat) : laneBits (xorLanes x y) p = laneBits x p + laneBits y p := by
  funext j
  rw [laneBits, getElem_xorLanes_fin, BitVec.getLsbD_xor, gf2_xor]
  rfl

/-- At each position the affine map of the lanes is that of their bits (R163). -/
theorem laneBits_mixLanes (m : Matrix (Fin 4) (Fin 4) (ZMod 2)) (k x : Lanes w) (p : Nat) :
    laneBits (mixLanes m k x) p = laneBits k p + m.mulVec (laneBits x p) := by
  funext j
  simp only [laneBits, getLsbD_mixLanes, gf2_xor, gf2_pick, Pi.add_apply, Matrix.mulVec, dotProduct, Fin.sum_univ_four, add_assoc]
  rfl

/-- In GF(2) a vector added twice is gone. -/
theorem add_add_cancel_gf2 (a b : Fin 4 → ZMod 2) : a + b + a = b := by
  have hbit : ∀ x y : ZMod 2, x + y + x = y := by decide
  exact funext fun j => hbit (a j) (b j)

variable {m m' : Matrix (Fin 4) (Fin 4) (ZMod 2)}

/-- The inverse of the affine map: take the constant off and apply the inverse matrix (R165). -/
def unmixLanes (m' : Matrix (Fin 4) (Fin 4) (ZMod 2)) (k y : Lanes w) : Lanes w :=
  mixLanes m' (Vector.replicate 4 0) (xorLanes y k)

theorem laneBits_unmixLanes (k y : Lanes w) (p : Nat) :
    laneBits (unmixLanes m' k y) p = m'.mulVec (laneBits y p + laneBits k p) := by
  have hzero : laneBits (Vector.replicate 4 (0 : BitVec w)) p = 0 := by
    funext j
    simp [laneBits, gf2]
  rw [unmixLanes, laneBits_mixLanes, laneBits_xorLanes, hzero, zero_add]

theorem unmixLanes_mixLanes (h : m' * m = 1) (k : Lanes w) : Function.LeftInverse (unmixLanes m' k) (mixLanes m k) := fun x =>
  lanes_ext_laneBits fun p _ => by
    rw [laneBits_unmixLanes, laneBits_mixLanes, add_add_cancel_gf2, Matrix.mulVec_mulVec, h, Matrix.one_mulVec]

theorem mixLanes_unmixLanes (h : m * m' = 1) (k : Lanes w) : Function.RightInverse (unmixLanes m' k) (mixLanes m k) := fun y =>
  lanes_ext_laneBits fun p _ => by
    rw [laneBits_mixLanes, laneBits_unmixLanes, Matrix.mulVec_mulVec, h, Matrix.one_mulVec, ← add_assoc, add_add_cancel_gf2]

/-- The affine map of an xor: the constant is counted three times, so once (R165). -/
theorem mixLanes_xorLanes (k x y : Lanes w) :
    mixLanes m k (xorLanes x y) = xorLanes (xorLanes (mixLanes m k x) (mixLanes m k y)) k :=
  lanes_ext_laneBits fun p _ => by
    simp only [laneBits_mixLanes, laneBits_xorLanes, Matrix.mulVec_add]
    have hbit : ∀ a b d : ZMod 2, a + (b + d) = a + b + (a + d) + a := by decide
    exact funext fun j => hbit (laneBits k p j) _ _

end

/-- Settles O42: ShiftLanes and SwitchLanes with their inverses. -/
theorem linearLayersAreBijections : Obligations.LinearLayersAreBijections := by
  unfold Obligations.LinearLayersAreBijections
  refine fun c v => ⟨shiftLanes_xorLanes c v, ?shift, fun x y => mixLanes_xorLanes _ x y, ?switch⟩
  case shift =>
    exact Function.bijective_iff_has_inverse.mpr ⟨unshiftLanes c v, unshiftLanes_shiftLanes c v, shiftLanes_unshiftLanes c v⟩
  case switch =>
    exact Function.bijective_iff_has_inverse.mpr ⟨unmixLanes (c.switchM v).inv (c.switchC v),
      unmixLanes_mixLanes (c.switchM v).inv_val _, mixLanes_unmixLanes (c.switchM v).val_inv _⟩

end Sys2Proof.Machine
end

section
/-! The key schedule and the table of round keys (45_engine.md R239, R241, R244). The key and the accumulator run through a command
on their own, so every half-round finds in the schedule the subkey that R241's table lists for it. -/

namespace Sys2Proof.Machine

/-- The load puts the schedule at its start (R225). -/
theorem schedule_loaded (v : Variant) (p : Vector Byte v.bb) (kin : Vector Byte v.kb) : schedule (loaded v p kin) = (kin, 0) := rfl

/-- Equal schedules are equal keys and equal accumulators. -/
theorem schedule_inj {v : Variant} {a b : Feistel v} (h : schedule a = schedule b) : a.key = b.key ∧ a.rc = b.rc := Prod.mk.inj h

/-- Settles O48: two facts of the schedule, each a pair. -/
theorem keyAndAccumulatorComeHome : Obligations.KeyAndAccumulatorComeHome := by
  unfold Obligations.KeyAndAccumulatorComeHome
  intro c v p q kin n
  have hhome := schedule_unRounds_fastForward c (loaded v p kin) n
  have hmeet : schedule (fastForward c v (2 * n) (loaded v q kin)) = schedule (applyTimes (fullRound c v) n (loaded v p kin)) := by
    rw [schedule_fastForward, schedule_fullRounds, schedule_loaded, schedule_loaded]
  obtain ⟨hkey, hrc⟩ := schedule_inj hhome
  obtain ⟨hkey', hrc'⟩ := schedule_inj hmeet
  exact ⟨hkey, hrc, hkey', hrc'⟩

/-- Settles O53: no round is applied to the load, and the fast-forward by no steps is the load. -/
theorem zeroRoundsCopyTheBlock : Obligations.ZeroRoundsCopyTheBlock := by
  unfold Obligations.ZeroRoundsCopyTheBlock
  exact fun c v p kin => ⟨stored_loaded v p kin, stored_loaded v p kin⟩

/-! ### The table of round keys -/

section
variable (c : Cfg) (v : Variant) (kin : Vector Byte v.kb)

/-- The key schedule `i` key steps from the load of `kin` (R220, R226). -/
def scheduleAt (i : Nat) : Vector Byte v.kb × BitVec v.cw := (scheduleStep c v)^[i] (kin, 0)

theorem scheduleAt_succ (i : Nat) : scheduleAt c v kin (i + 1) = scheduleStep c v (scheduleAt c v kin i) :=
  Function.iterate_succ_apply' ..

/-- The table lists the subkey of each key step of the schedule (R241). -/
theorem roundKey_eq (i : Nat) : roundKey c v kin i = (keyStep c v (scheduleAt c v kin i).1 (scheduleAt c v kin i).2).2.2 := by
  have hschedule := schedule_fastForward c
    { l := Vector.replicate 4 0, r := Vector.replicate 4 0, key := kin, rc := 0 : Feistel v } i
  obtain ⟨hkey, hrc⟩ := Prod.ext_iff.1 hschedule
  rw [scheduleAt, roundKey]
  exact congrArg (fun y => y.2.2) (congr (congrArg (keyStep c v) hkey) hrc)

/-- A key step back from the schedule returns the subkey of the table, and the schedule before it (R236). -/
theorem keyUnstep_scheduleAt (i : Nat) :
    keyUnstep c v (scheduleAt c v kin (i + 1)).1 (scheduleAt c v kin (i + 1)).2 =
      ((scheduleAt c v kin i).1, (scheduleAt c v kin i).2, roundKey c v kin i) := by
  rw [scheduleAt_succ, roundKey_eq]
  exact keyUnstep_keyStep c v _ _

end

/-- The halves of the working values. -/
def halves {v : Variant} (st : Feistel v) : Lanes v.lw × Lanes v.lw := (st.l, st.r)

section
variable {c : Cfg} {v : Variant} {kin : Vector Byte v.kb} {st : Feistel v} {i : Nat}

/-- The half-rounds and their reverses, with the table's subkey in place of the key step's. -/
theorem halfL_of_schedule (h : schedule st = scheduleAt c v kin i) :
    halves (halfL c v st) = (st.l, xorLanes st.r (roundFunction c v st.l (roundKey c v kin i))) ∧
      schedule (halfL c v st) = scheduleAt c v kin (i + 1) := by
  rw [roundKey_eq, scheduleAt_succ, ← h]
  exact ⟨rfl, rfl⟩

theorem halfR_of_schedule (h : schedule st = scheduleAt c v kin i) :
    halves (halfR c v st) = (xorLanes st.l (roundFunction c v st.r (roundKey c v kin i)), st.r) ∧
      schedule (halfR c v st) = scheduleAt c v kin (i + 1) := by
  rw [roundKey_eq, scheduleAt_succ, ← h]
  exact ⟨rfl, rfl⟩

theorem unHalfR_of_schedule (h : schedule st = scheduleAt c v kin (i + 1)) :
    halves (unHalfR c v st) = (xorLanes st.l (roundFunction c v st.r (roundKey c v kin i)), st.r) ∧
      schedule (unHalfR c v st) = scheduleAt c v kin i := by
  have hback := keyUnstep_scheduleAt c v kin i
  rw [← h] at hback
  simp only [schedule] at hback
  simp only [unHalfR, hback, halves, schedule, and_self]

theorem unHalfL_of_schedule (h : schedule st = scheduleAt c v kin (i + 1)) :
    halves (unHalfL c v st) = (st.l, xorLanes st.r (roundFunction c v st.l (roundKey c v kin i))) ∧
      schedule (unHalfL c v st) = scheduleAt c v kin i := by
  have hback := keyUnstep_scheduleAt c v kin i
  rw [← h] at hback
  simp only [schedule] at hback
  simp only [unHalfL, hback, halves, schedule, and_self]

/-- `n` rounds from the start of the schedule are `n` rounds over the table (R241). -/
theorem halves_fullRounds (h : schedule st = scheduleAt c v kin 0) (n : Nat) :
    halves (applyTimes (fullRound c v) n st) = tableRounds c v (roundKey c v kin) n (halves st) ∧
      schedule (applyTimes (fullRound c v) n st) = scheduleAt c v kin (2 * n) := by
  induction n with
  | zero => exact ⟨rfl, h⟩
  | succ n ih =>
    obtain ⟨hhalves, hschedule⟩ := ih
    rw [applyTimes_succ, tableRounds, ← hhalves]
    generalize applyTimes (fullRound c v) n st = st' at hschedule
    obtain ⟨hleft, hschedule⟩ := halfL_of_schedule hschedule
    obtain ⟨hright, hschedule⟩ := halfR_of_schedule hschedule
    refine ⟨?_, hschedule⟩
    obtain ⟨hl, hr⟩ := Prod.mk.inj hleft
    rw [fullRound, hright, hl, hr]
    rfl

/-- `n` reverse rounds from `2n` key steps on are the rounds over the table, backwards (R241). -/
theorem halves_unRounds (n : Nat) (h : schedule st = scheduleAt c v kin (2 * n)) :
    halves (applyTimes (unRound c v) n st) = tableUnrounds c v (roundKey c v kin) n (halves st) := by
  induction n generalizing st with
  | zero => rfl
  | succ n ih =>
    obtain ⟨hright, hschedule⟩ := unHalfR_of_schedule (i := 2 * n + 1) h
    obtain ⟨hleft, hschedule⟩ := unHalfL_of_schedule hschedule
    obtain ⟨hl, hr⟩ := Prod.mk.inj hright
    rw [applyTimes, unRound, ih hschedule, hleft, hl, hr]
    rfl

end

/-- Byte `i` of the stored block. -/
theorem byteAt_stored {v : Variant} (st : Feistel v) {i : Nat} (hi : i < v.bb) :
    byteAt (stored st) i = blockByte v (halves st).1 (halves st).2 i := byteAt_ofFn _ hi

/-- The load's halves are those of the block (R225). -/
theorem halves_loaded (v : Variant) (b : Vector Byte v.bb) (kin : Vector Byte v.kb) :
    halves (loaded v b kin) = (leftHalf v (byteAt b), rightHalf v (byteAt b)) := rfl

/-- The fast-forward leaves the halves (R226). -/
theorem halves_fastForward (c : Cfg) {v : Variant} (st : Feistel v) (n : Nat) : halves (fastForward c v n st) = halves st :=
  Prod.ext_iff.2 (fastForward_halves c st n)

/-- Settles O49: the stored block is that of the halves, and the halves are the table's. -/
theorem roundKeyTableGivesTheSameCipher : Obligations.RoundKeyTableGivesTheSameCipher := by
  unfold Obligations.RoundKeyTableGivesTheSameCipher
  refine fun c v b kin n i hi => ⟨fun l r htable => ?encryption, fun l r htable => ?decryption⟩
  case encryption =>
    obtain ⟨hhalves, -⟩ := halves_fullRounds (st := loaded v b kin) (kin := kin) (c := c) rfl n
    rw [encryptBlock, byteAt_stored _ hi, hhalves, halves_loaded, htable]
  case decryption =>
    have hschedule : schedule (fastForward c v (2 * n) (loaded v b kin)) = scheduleAt c v kin (2 * n) :=
      schedule_fastForward c (loaded v b kin) (2 * n)
    rw [decryptBlock, byteAt_stored _ hi, halves_unRounds n hschedule, halves_fastForward, halves_loaded, htable]

end Sys2Proof.Machine
end
